-- ==== Sys2Proof/Word.lean ====
section
/-! DEFINITION. The word types of the block (00_scope R7, 30_encoding R53). -/

namespace Sys2Proof

/-- A byte of memory. -/
abbrev Byte := BitVec 8

/-- R7: every register value, address, count and operand is a u32. -/
abbrev U32 := BitVec 32

/-- R53: a bus command is a 72-bit word, `HH_AAAAAAAA_VVVVVVVV`. -/
abbrev BusWord := BitVec 72

end Sys2Proof
end

