-- ==== Sys2Proof/Config.lean ====
section
/-! DEFINITION. The configuration of the block (00_scope R5), the registry's entries (10_state R10), the reference
configuration (92_eei_decisions D42), and the free values: external shims and the storage backend's draws. -/

namespace Sys2Proof

/-- R16: the narrow or the wide clock domain. -/
inductive Domain where
  | narrow
  | wide
  deriving DecidableEq, Repr

/-- One value for each domain. -/
structure PerDomain (α : Type) where
  narrow : α
  wide : α
  deriving DecidableEq, Repr

/-- The value of a domain. -/
def PerDomain.get {α : Type} (p : PerDomain α) : Domain → α
  | .narrow => p.narrow
  | .wide => p.wide

/-- Replace the value of a domain. -/
def PerDomain.set {α : Type} (p : PerDomain α) (d : Domain) (v : α) : PerDomain α :=
  match d with
  | .narrow => { p with narrow := v }
  | .wide => { p with wide := v }

/-- Bytes listed by offset: strictly rising keys, no zero byte; an unlisted byte reads 0 (assumption 7). -/
abbrev Memory := List (Nat × Byte)

/-- The private state of an external handler (R21, R73), coded as a list of words (assumption 4). -/
abbrev ExtState := List U32

/-- R73: which external leaf handler an EXT entry routes to. ECHO and CONST are the test handlers of D42; `shim n` is
the n-th further handler of the `EXT` parameter. -/
inductive ExtHandler where
  | echo
  | const
  | shim (n : Nat)
  deriving DecidableEq, Repr

/-- R73: one Interrupt Controller call or fatal report an external handler returns. An id is any natural number
(assumption 23). -/
inductive ExtCall where
  | enable (id : Nat)
  | trigger (id : Nat) (delay : U32)
  | fatalReport
  deriving DecidableEq, Repr

/-- R56: a handler kind together with the entry's `param`. -/
inductive Handler where
  | intc (param : Nat)
  | ct (slot : Nat)
  | clk (domain : Domain)
  | oc (family : Domain) (slot : Nat)
  | sdma (channel : Nat)
  | pdma (channel : Nat)
  | ext (handler : ExtHandler) (param : U32)
  deriving DecidableEq, Repr

/-- R10: a registry entry; `last` is the rule's `end`, and the range `[start, last]` is inclusive. -/
structure Entry where
  label : String
  start : U32
  last : U32
  handler : Handler
  deriving DecidableEq, Repr

/-- R57: the register-role offsets, each a parameter. -/
structure Offsets where
  intcReason : U32
  intcEnable : U32
  ctCtrl : U32
  ctReload : U32
  ctValue : U32
  clkValue : U32
  ocCompare : U32
  ocStatus : U32
  sdmaSrc : U32
  sdmaDst : U32
  sdmaCount : U32
  sdmaStart : U32
  pdmaSrc : U32
  pdmaDst : U32
  pdmaCount : U32
  pdmaStart : U32
  pdmaXfer : U32
  pdmaStatus : U32
  deriving DecidableEq, Repr

/-- R5: the completion ids of a polled channel; `drv = 0` means none. -/
structure PdmaIrq where
  dma : Nat
  drv : Nat
  deriving DecidableEq, Repr

/-- R172: a boot image of `size` bytes, its nonzero bytes listed by offset. -/
structure Image where
  size : Nat
  bytes : Memory
  deriving DecidableEq, Repr

/-- R135: one answer of the storage backend. A `DevReady` call uses `ready`, a `DevRead` call uses `data`, and any call
may find the backend in an impossible state (assumption 5). -/
structure Draw where
  ready : Bool
  data : List Byte
  impossible : Bool
  deriving DecidableEq, Repr, Inhabited

/-- R5: every parameter of the block. The counts N_OC_d, N_SDMA and N_PDMA are the lengths of the id lists
(assumption 10). -/
structure Config where
  ramBase : U32
  ramSize : U32
  romBase : U32
  romSize : U32
  romLimit : U32
  mmioBase : U32
  mmioSize : U32
  initRam : Option Image
  initRom : Option Image
  registry : List Entry
  nIrq : Nat
  periodicIrq : Nat
  reasonShift : Nat
  nCt : Nat
  sysTimerSlot : Nat
  ctStep : U32
  periodShift : Nat
  width : PerDomain Nat
  clkStep : PerDomain U32
  ocIrq : PerDomain (List Nat)
  sdmaChunk : Nat
  sdmaIrq : List Nat
  dmaLatencyDiv : Nat
  pdmaChunk : Nat
  pdmaWaitInit : BitVec 32
  pdmaIrq : List PdmaIrq
  offs : Offsets
  nShims : Nat
  deriving DecidableEq, Repr

/-- N_OC_d: the number of output-compare slots of a family. -/
def Config.nOc (c : Config) (d : Domain) : Nat := (c.ocIrq.get d).length

/-- N_SDMA: the number of synchronous DMA channels. -/
def Config.nSdma (c : Config) : Nat := c.sdmaIrq.length

/-- N_PDMA: the number of polled DMA channels. -/
def Config.nPdma (c : Config) : Nat := c.pdmaIrq.length

/-- FREE VALUE (R73, assumption 4): the initial private state of shim `n` at parameter `param`. -/
opaque Config.shimInit : Nat → U32 → ExtState

/-- FREE VALUE (R73, assumption 4): shim `n`'s read function `(state, param, off) -> (state', result, calls)`. -/
opaque Config.shimRead : Nat → ExtState → U32 → U32 → ExtState × U32 × List ExtCall

/-- FREE VALUE (R73, assumption 4): shim `n`'s write function `(state, param, off, wv) -> (state', calls)`. -/
opaque Config.shimWrite : Nat → ExtState → U32 → U32 → U32 → ExtState × List ExtCall

/-- FREE VALUE (R135, assumption 5): the n-th draw of the storage backend beyond those listed in State. -/
opaque Config.backendDraw : Nat → Draw

/-- R57: the reference register layout (D8). -/
def Offsets.reference : Offsets where
  intcReason := 0x00
  intcEnable := 0x04
  ctCtrl := 0x00
  ctReload := 0x04
  ctValue := 0x08
  clkValue := 0x00
  ocCompare := 0x00
  ocStatus := 0x04
  sdmaSrc := 0x00
  sdmaDst := 0x04
  sdmaCount := 0x08
  sdmaStart := 0x0C
  pdmaSrc := 0x00
  pdmaDst := 0x04
  pdmaCount := 0x08
  pdmaStart := 0x0C
  pdmaXfer := 0x10
  pdmaStatus := 0x14

/-- D42: the reference registry, in declaration order. -/
def Config.referenceRegistry : List Entry :=
  [ ⟨"intc", 0xC0201000, 0xC0201FFF, .intc 0⟩,
    ⟨"ct0", 0xC0210000, 0xC021000F, .ct 0⟩,
    ⟨"ct1", 0xC0210100, 0xC021010F, .ct 1⟩,
    ⟨"clkN", 0xC0240000, 0xC0240003, .clk .narrow⟩,
    ⟨"clkW", 0xC0240010, 0xC0240013, .clk .wide⟩,
    ⟨"ocN0", 0xC0250000, 0xC0250007, .oc .narrow 0⟩,
    ⟨"ocN1", 0xC0250010, 0xC0250017, .oc .narrow 1⟩,
    ⟨"ocW0", 0xC0260000, 0xC0260007, .oc .wide 0⟩,
    ⟨"dma0", 0xC0300000, 0xC030000F, .sdma 0⟩,
    ⟨"pdma0", 0xC0400000, 0xC0400017, .pdma 0⟩,
    ⟨"scratch", 0xC0800000, 0xC0800FFF, .ext .echo 0⟩,
    ⟨"catchall", 0xC0000000, 0xC0FFFFFF, .ext .const 0x12345678⟩ ]

/-- D42: the reference configuration (assumption 1). -/
def Config.reference : Config where
  ramBase := 0x00000000
  ramSize := 0x01000000
  romBase := 0xF0000000
  romSize := 0x01000000
  romLimit := 0xFFFFFFFF
  mmioBase := 0xC0000000
  mmioSize := 0x20000000
  initRam := some ⟨0x01000000, []⟩
  initRom := some ⟨0x01000000, []⟩
  registry := Config.referenceRegistry
  nIrq := 0x100
  periodicIrq := 0x0A
  reasonShift := 0
  nCt := 2
  sysTimerSlot := 0
  ctStep := 256
  periodShift := 8
  width := ⟨20, 32⟩
  clkStep := ⟨256, 1024⟩
  ocIrq := ⟨[0x18, 0x18], [0x1C]⟩
  sdmaChunk := 4
  sdmaIrq := [0x2F]
  dmaLatencyDiv := 10000
  pdmaChunk := 8
  pdmaWaitInit := 3
  pdmaIrq := [⟨0x32, 0x33⟩]
  offs := Offsets.reference
  nShims := 0

end Sys2Proof
end

