-- ==== Sys2Proof/Syntax.lean ====
section
/-! DEFINITION. The instructions: one constructor for each row of spec/opcode_table.json. The first eight are what a
72-bit bus command word is (30_encoding R53, R54); the REGISTER rows are the operations a READ or WRITE resolves to
through the registry (R55 to R59); the INTERNAL rows are operations with no bus encoding (R60). -/

namespace Sys2Proof

/-- R122, R131: the transfer registers a write can select. -/
inductive DmaField where
  | src
  | dst
  | count
  deriving DecidableEq, Repr

/-- R133: the registers of a polled channel a read can select. -/
inductive PdmaReg where
  | src
  | dst
  | count
  | xfer
  | status
  deriving DecidableEq, Repr

/-- R9, R52: one step's command, or one operation a command resolves to, or one internal operation. -/
inductive Instr where
  /-- `R.B addr` (R70). -/
  | readB (addr : U32)
  /-- `R.H addr` (R71). -/
  | readH (addr : U32)
  /-- `R.W addr` (R72). -/
  | readW (addr : U32)
  /-- `W.B addr, value` (R74). -/
  | writeB (addr value : U32)
  /-- `W.H addr, value` (R75). -/
  | writeH (addr value : U32)
  /-- `W.W addr, value` (R76). -/
  | writeW (addr value : U32)
  /-- `TICK` (R141). -/
  | tick
  /-- ILLEGAL (R54): a word that is none of the seven commands. -/
  | illegal (w : BusWord)
  /-- `INTC.ACK` (R90). -/
  | intcAck
  /-- `INTC.ENABLE` (R86). -/
  | intcEnable (wv : U32)
  /-- `CT.CTRL.R` (R106). -/
  | ctCtrlR (k : Nat)
  /-- `CT.CTRL.W` (R103). -/
  | ctCtrlW (k : Nat) (wv : U32)
  /-- `CT.RELOAD.R` (R108). -/
  | ctReloadR (k : Nat)
  /-- `CT.RELOAD.W` (R107). -/
  | ctReloadW (k : Nat) (wv : U32)
  /-- `CT.VALUE.R` (R109). -/
  | ctValueR (k : Nat)
  /-- `CLK.VALUE.R` (R101). -/
  | clkValueR (d : Domain)
  /-- `OC.COMPARE.R` (R114). -/
  | ocCompareR (d : Domain) (k : Nat)
  /-- `OC.ARM` (R113). -/
  | ocArm (d : Domain) (k : Nat) (wv : U32)
  /-- `OC.STATUS.R` (R115). -/
  | ocStatusR (d : Domain) (k : Nat)
  /-- `OC.CLEAR` (R117); `wv` is ignored. -/
  | ocClear (d : Domain) (k : Nat) (wv : U32)
  /-- `SDMA.RREG` (R126). -/
  | sdmaRreg (c : Nat) (f : DmaField)
  /-- `SDMA.WREG` (R122). -/
  | sdmaWreg (c : Nat) (f : DmaField) (wv : U32)
  /-- `SDMA.START` (R123); `wv` is ignored. -/
  | sdmaStart (c : Nat) (wv : U32)
  /-- `PDMA.RREG` (R133). -/
  | pdmaRreg (c : Nat) (r : PdmaReg)
  /-- `PDMA.WREG` (R131). -/
  | pdmaWreg (c : Nat) (f : DmaField) (wv : U32)
  /-- `PDMA.START` (R132). -/
  | pdmaStart (c : Nat) (wv : U32)
  /-- `EXT.READ` (R73) at offset `off` of registry entry `e`. -/
  | extRead (e : Nat) (off : U32)
  /-- `EXT.WRITE` (R73) at offset `off` of registry entry `e`. -/
  | extWrite (e : Nat) (off wv : U32)
  /-- `DEFAULT.READ` (R77), with the original address and size. -/
  | defaultRead (size : Nat) (addr : U32)
  /-- `DEFAULT.WRITE` (R77), with the original address, size and value. -/
  | defaultWrite (size : Nat) (addr value : U32)
  /-- `MISMATCH.READ` (R59) at offset `off` of registry entry `e`. -/
  | mismatchRead (e : Nat) (off : U32)
  /-- `MISMATCH.WRITE` (R59) at offset `off` of registry entry `e`. -/
  | mismatchWrite (e : Nat) (off wv : U32)
  /-- `register(range, handler, parameter)` (R69). -/
  | register (entry : Entry)
  /-- `activate(id)` (R88); the rule gives an id no width (assumption 23). -/
  | activate (id : Nat)
  /-- `trigger(id, delay)` (R89): `delay` is a u32, and an id has no width (assumption 23). -/
  | trigger (id : Nat) (delay : U32)
  /-- `period()` (R91). -/
  | period
  /-- `service_tick()` (R92). -/
  | serviceTick
  /-- `clock_step()` (R100). -/
  | clockStep
  /-- `start(k)` (R104). -/
  | start (k : Nat)
  /-- `stop(k)` (R105). -/
  | stop (k : Nat)
  /-- `countdown_step()` (R110). -/
  | countdownStep
  /-- `set_compare(d, k, v)` (R113). -/
  | setCompare (d : Domain) (k : Nat) (v : U32)
  /-- `oc_check()` (R116). -/
  | ocCheck
  /-- `oc_raise()` (R118). -/
  | ocRaise
  /-- `sdma_copy(src, dst, n)` (R124). -/
  | sdmaCopy (src dst n : U32)
  /-- `pdma_step()` (R134). -/
  | pdmaStep
  /-- `rearm()` (R142). -/
  | rearm
  deriving DecidableEq, Repr

end Sys2Proof
end

