-- ==== Sys2Proof/Machine/Operands.lean ====
section
/-! DEFINITION. Operand forms: the fields of a bus command word and R54's checks, the normalisation of R40, the role
of an offset (R57), the regions of the address space (R33), and the fault codes of R152. -/

namespace Sys2Proof

/-- R152: FATAL is the source's fatal assertion; REFUSED marks an input the spec declines to give a meaning. -/
inductive FaultKind where
  | fatal
  | refused
  deriving DecidableEq, Repr

/-- R152: the ten fault codes. -/
inductive FaultCode where
  | setup
  | triggerIdZero
  | triggerIdRange
  | accessSize
  | dmaRegion
  | pdmaBusy
  | pdmaAlign
  | extHandler
  | outsideAperture
  | badCommand
  deriving DecidableEq, Repr

/-- R152: the kind the table gives each code. -/
def FaultCode.kind : FaultCode → FaultKind
  | .setup => .fatal
  | .triggerIdZero => .fatal
  | .triggerIdRange => .fatal
  | .accessSize => .refused
  | .dmaRegion => .refused
  | .pdmaBusy => .fatal
  | .pdmaAlign => .refused
  | .extHandler => .fatal
  | .outsideAperture => .refused
  | .badCommand => .refused

/-- R152: the number the table gives each code. -/
def FaultCode.number : FaultCode → Nat
  | .setup => 1
  | .triggerIdZero => 2
  | .triggerIdRange => 3
  | .accessSize => 4
  | .dmaRegion => 5
  | .pdmaBusy => 6
  | .pdmaAlign => 7
  | .extHandler => 8
  | .outsideAperture => 9
  | .badCommand => 10

/-- R67: the direction of a bus access. -/
inductive Mode where
  | read
  | write
  deriving DecidableEq, Repr

/-! ### The bus command word (R53, R54) -/

/-- R53 bits [71:68]. -/
def bcwRsv (w : BusWord) : BitVec 4 := w.extractLsb' 68 4

/-- R53 bits [67:66]. -/
def bcwSz (w : BusWord) : BitVec 2 := w.extractLsb' 66 2

/-- R53 bits [65:64]. -/
def bcwK (w : BusWord) : BitVec 2 := w.extractLsb' 64 2

/-- R53 bits [63:32]. -/
def bcwAddr (w : BusWord) : U32 := w.extractLsb' 32 32

/-- R53 bits [31:0]. -/
def bcwValue (w : BusWord) : U32 := w.extractLsb' 0 32

/-- R53: the word with header byte `h`, address `a` and value `v`. -/
def bcw (h : BitVec 8) (a v : U32) : BusWord := (h ++ a) ++ v

/-- R54: the refusal of a word that is no command, by the checks in their order; `none` for the seven commands. -/
def illegalReason (w : BusWord) : Option FaultCode :=
  if bcwRsv w ≠ 0 ∨ bcwK w = 3 then some .badCommand
  else if bcwK w = 2 then
    if bcwSz w ≠ 0 ∨ bcwAddr w ≠ 0 ∨ bcwValue w ≠ 0 then some .badCommand else none
  else if bcwSz w = 3 then some .accessSize
  else if bcwK w = 0 ∧ bcwValue w ≠ 0 then some .badCommand
  else none

/-! ### Normalisation (R40) -/

/-- R40: the register-granular address, `addr & 0xFFFFFFFC`. -/
def normAddr (addr : U32) : U32 := addr &&& 0xFFFFFFFC

/-- R7, R40: `trunc_n(v)`, the low `n` bytes, zero-extended. -/
def truncBytes (n : Nat) (v : U32) : U32 := BitVec.ofNat 32 (v.toNat % 2 ^ (8 * n))

/-- R38: byte `i` of a value, little-endian. -/
def byteOf (v : U32) (i : Nat) : Byte := v.extractLsb' (8 * i) 8

/-! ### Roles (R57) -/

inductive IntcRole where
  | reason
  | enable
  deriving DecidableEq, Repr

inductive CtRole where
  | ctrl
  | reload
  | value
  deriving DecidableEq, Repr

inductive ClkRole where
  | value
  deriving DecidableEq, Repr

inductive OcRole where
  | compare
  | status
  deriving DecidableEq, Repr

inductive SdmaRole where
  | field (f : DmaField)
  | start
  deriving DecidableEq, Repr

inductive PdmaRole where
  | field (f : DmaField)
  | start
  | xfer
  | status
  deriving DecidableEq, Repr

/-- R57: the role of an offset in an INTC entry; `none` is UNASSIGNED. -/
def intcRole (o : Offsets) (off : U32) : Option IntcRole :=
  if off = o.intcReason then some .reason
  else if off = o.intcEnable then some .enable
  else none

/-- R57: the role of an offset in a CT entry. -/
def ctRole (o : Offsets) (off : U32) : Option CtRole :=
  if off = o.ctCtrl then some .ctrl
  else if off = o.ctReload then some .reload
  else if off = o.ctValue then some .value
  else none

/-- R57: the role of an offset in a CLK entry. -/
def clkRole (o : Offsets) (off : U32) : Option ClkRole :=
  if off = o.clkValue then some .value else none

/-- R57: the role of an offset in an OC entry. -/
def ocRole (o : Offsets) (off : U32) : Option OcRole :=
  if off = o.ocCompare then some .compare
  else if off = o.ocStatus then some .status
  else none

/-- R57: the role of an offset in an SDMA entry. -/
def sdmaRole (o : Offsets) (off : U32) : Option SdmaRole :=
  if off = o.sdmaSrc then some (.field .src)
  else if off = o.sdmaDst then some (.field .dst)
  else if off = o.sdmaCount then some (.field .count)
  else if off = o.sdmaStart then some .start
  else none

/-- R57: the role of an offset in a PDMA entry. -/
def pdmaRole (o : Offsets) (off : U32) : Option PdmaRole :=
  if off = o.pdmaSrc then some (.field .src)
  else if off = o.pdmaDst then some (.field .dst)
  else if off = o.pdmaCount then some (.field .count)
  else if off = o.pdmaStart then some .start
  else if off = o.pdmaXfer then some .xfer
  else if off = o.pdmaStatus then some .status
  else none

/-- R133: the register a read of a transfer field shows. -/
def DmaField.reg : DmaField → PdmaReg
  | .src => .src
  | .dst => .dst
  | .count => .count

/-! ### Regions of the address space (R33) -/

/-- R33: RAM is `[RAM_BASE, RAM_BASE+RAM_SIZE-1]`. -/
def Config.inRam (c : Config) (a : Nat) : Bool :=
  decide (c.ramBase.toNat ≤ a) && decide (a < c.ramBase.toNat + c.ramSize.toNat)

/-- R33: ROM is `[ROM_BASE, ROM_LIMIT]`, its mirrors included; with no ROM byte there is none (assumption 8). -/
def Config.inRom (c : Config) (a : Nat) : Bool :=
  decide (c.romBase.toNat ≤ a) && decide (a ≤ c.romLimit.toNat) && decide (c.romSize.toNat ≠ 0)

/-- R33: the aperture is `[MMIO_BASE, MMIO_BASE+MMIO_SIZE-1]`. -/
def Config.inAperture (c : Config) (a : Nat) : Bool :=
  decide (c.mmioBase.toNat ≤ a) && decide (a < c.mmioBase.toNat + c.mmioSize.toNat)

/-! ### Lookup (R68) -/

/-- R68: the entry's range contains the address, both bounds inclusive. -/
def Entry.contains (e : Entry) (a : U32) : Bool := decide (e.start ≤ a) && decide (a ≤ e.last)

/-- R68: the first entry of `es` that contains `a`, with its index counted from `i`. -/
def lookupFrom (a : U32) : Nat → List Entry → Option (Nat × Entry)
  | _, [] => none
  | i, e :: es => if e.contains a then some (i, e) else lookupFrom a (i + 1) es

/-- R68: first match in declaration order, never by specificity. -/
def Config.lookup (c : Config) (a : U32) : Option (Nat × Entry) := lookupFrom a 0 c.registry

end Sys2Proof
end

