-- ==== Sys2Proof/WellFormed.lean ====
section
/-! DEFINITION. When a configuration is well-formed (00_scope R6, with the types of R5's table), when a registry entry
is (R55, R56, R69), and when an instruction is, each as a Bool. -/

namespace Sys2Proof

/-- The canonical form of a memory: keys strictly rising, no listed byte equal to the unlisted value 0. -/
def Memory.wf : Memory → Bool
  | [] => true
  | [(_, v)] => v != 0
  | (a, v) :: (b, w) :: m => v != 0 && decide (a < b) && Memory.wf ((b, w) :: m)

/-- Every listed key is below `n`. -/
def Memory.below (n : Nat) (m : Memory) : Bool := m.all fun c => decide (c.1 < n)

/-- R6: an id parameter lies in 1 to N_IRQ-1. -/
def Config.idOk (c : Config) (id : Nat) : Bool := decide (1 ≤ id) && decide (id < c.nIrq)

/-- R73: the `EXT` parameter defines the handler. -/
def Config.extDefined (c : Config) : ExtHandler → Bool
  | .echo => true
  | .const => true
  | .shim n => decide (n < c.nShims)

/-- R56: the legal `param` of each kind; for EXT, a handler that is defined (R6). -/
def Config.paramLegal (c : Config) : Handler → Bool
  | .intc p => p == 0
  | .ct k => decide (k < c.nCt)
  | .clk _ => true
  | .oc d k => decide (k < c.nOc d)
  | .sdma ch => decide (ch < c.nSdma)
  | .pdma ch => decide (ch < c.nPdma)
  | .ext h _ => c.extDefined h

/-- R69: an entry `register` accepts. -/
def Config.entryOk (c : Config) (e : Entry) : Bool :=
  decide (e.start ≤ e.last) && decide (e.start.toNat % 4 = 0) && c.paramLegal e.handler

/-- R6: the step of a domain is a power of two no larger than 2^width, and the width is 1 to 32 (R5). -/
def Config.domainOk (c : Config) (d : Domain) : Bool :=
  decide (1 ≤ c.width.get d) && decide (c.width.get d ≤ 32) &&
    (List.range (c.width.get d + 1)).any fun j => decide ((c.clkStep.get d).toNat = 2 ^ j)

/-- R57: the offsets of one kind are distinct multiples of 4. -/
def offsetsOk (l : List U32) : Bool := decide l.Nodup && l.all fun o => decide (o.toNat % 4 = 0)

/-- R57: every kind's offsets. -/
def Offsets.wellFormed (o : Offsets) : Bool :=
  offsetsOk [o.intcReason, o.intcEnable] &&
  offsetsOk [o.ctCtrl, o.ctReload, o.ctValue] &&
  offsetsOk [o.clkValue] &&
  offsetsOk [o.ocCompare, o.ocStatus] &&
  offsetsOk [o.sdmaSrc, o.sdmaDst, o.sdmaCount, o.sdmaStart] &&
  offsetsOk [o.pdmaSrc, o.pdmaDst, o.pdmaCount, o.pdmaStart, o.pdmaXfer, o.pdmaStatus]

/-- The half-open ranges `[a, b)` and `[c, d)` share no address. -/
def disjointRanges (a b c d : Nat) : Bool :=
  decide (b ≤ a) || decide (d ≤ c) || decide (b ≤ c) || decide (d ≤ a)

/-- R6: RAM, ROM with its mirrors, and the aperture are pairwise disjoint. -/
def Config.regionsOk (c : Config) : Bool :=
  disjointRanges c.ramBase.toNat (c.ramBase.toNat + c.ramSize.toNat) c.romBase.toNat (c.romLimit.toNat + 1) &&
  disjointRanges c.ramBase.toNat (c.ramBase.toNat + c.ramSize.toNat)
    c.mmioBase.toNat (c.mmioBase.toNat + c.mmioSize.toNat) &&
  disjointRanges c.romBase.toNat (c.romLimit.toNat + 1) c.mmioBase.toNat (c.mmioBase.toNat + c.mmioSize.toNat)

/-- R6: an image is present and has the size of its region, listed in canonical form. -/
def imageOk (size : U32) : Option Image → Bool
  | none => false
  | some i => decide (i.size = size.toNat) && Memory.wf i.bytes && Memory.below i.size i.bytes

/-- R6: every id parameter is in range. -/
def Config.idsOk (c : Config) : Bool :=
  c.idOk c.periodicIrq && (c.ocIrq.narrow.all fun i => c.idOk i) && (c.ocIrq.wide.all fun i => c.idOk i) &&
  (c.sdmaIrq.all fun i => c.idOk i) && (c.pdmaIrq.all fun p => c.idOk p.dma && decide (p.drv < c.nIrq))

/-- R5's types and R6's bounds of the scalar parameters. -/
def Config.scalarsOk (c : Config) : Bool :=
  decide (2 ≤ c.nIrq) && decide (c.reasonShift ≤ 31) && decide (1 ≤ c.nCt) && decide (c.sysTimerSlot < c.nCt) &&
  decide (1 ≤ c.sdmaChunk) && decide (1 ≤ c.dmaLatencyDiv) &&
  decide (1 ≤ c.pdmaChunk) && decide (c.pdmaChunk % 4 = 0) &&
  decide (c.mmioBase.toNat % 4 = 0) && decide (c.mmioSize.toNat % 4 = 0)

/-- R6: the configuration is well-formed. -/
def Config.wellFormed (c : Config) : Bool :=
  c.scalarsOk && c.idsOk && c.domainOk .narrow && c.domainOk .wide && c.regionsOk &&
  (c.registry.all fun e => c.entryOk e) && c.offs.wellFormed &&
  imageOk c.ramSize c.initRam && imageOk c.romSize c.initRom

/-- R39: an access size the interface names. -/
def sizeOk (size : Nat) : Bool := size == 1 || size == 2 || size == 4

/-- Registry entry `e` is of kind EXT. -/
def Config.isExt (c : Config) (e : Nat) : Bool :=
  match c.registry[e]? with
  | some ⟨_, _, _, .ext _ _⟩ => true
  | _ => false

/-- Registry entry `e` exists and is of a core kind. -/
def Config.isCore (c : Config) (e : Nat) : Bool :=
  match c.registry[e]? with
  | some ⟨_, _, _, .ext _ _⟩ => false
  | some _ => true
  | none => false

/-- An instruction's operands name what the configuration has: a slot, a channel, an id, an entry of the right kind, an
aperture address; and ILLEGAL holds a word that is none of the seven commands (R54). -/
def Instr.wellFormed (c : Config) : Instr → Bool
  | .readB _ => true
  | .readH _ => true
  | .readW _ => true
  | .writeB _ _ => true
  | .writeH _ _ => true
  | .writeW _ _ => true
  | .tick => true
  | .illegal w => (illegalReason w).isSome
  | .intcAck => true
  | .intcEnable _ => true
  | .ctCtrlR k => decide (k < c.nCt)
  | .ctCtrlW k _ => decide (k < c.nCt)
  | .ctReloadR k => decide (k < c.nCt)
  | .ctReloadW k _ => decide (k < c.nCt)
  | .ctValueR k => decide (k < c.nCt)
  | .clkValueR _ => true
  | .ocCompareR d k => decide (k < c.nOc d)
  | .ocArm d k _ => decide (k < c.nOc d)
  | .ocStatusR d k => decide (k < c.nOc d)
  | .ocClear d k _ => decide (k < c.nOc d)
  | .sdmaRreg ch _ => decide (ch < c.nSdma)
  | .sdmaWreg ch _ _ => decide (ch < c.nSdma)
  | .sdmaStart ch _ => decide (ch < c.nSdma)
  | .pdmaRreg ch _ => decide (ch < c.nPdma)
  | .pdmaWreg ch _ _ => decide (ch < c.nPdma)
  | .pdmaStart ch _ => decide (ch < c.nPdma)
  | .extRead e _ => c.isExt e
  | .extWrite e _ _ => c.isExt e
  | .defaultRead size addr => sizeOk size && c.inAperture addr.toNat
  | .defaultWrite size addr _ => sizeOk size && c.inAperture addr.toNat
  | .mismatchRead e _ => c.isCore e
  | .mismatchWrite e _ _ => c.isCore e
  | .register _ => true
  | .activate id => c.idOk id
  | .trigger _ _ => true
  | .period => true
  | .serviceTick => true
  | .clockStep => true
  | .start k => decide (k < c.nCt)
  | .stop k => decide (k < c.nCt)
  | .countdownStep => true
  | .setCompare d k _ => decide (k < c.nOc d)
  | .ocCheck => true
  | .ocRaise => true
  | .sdmaCopy _ _ _ => true
  | .pdmaStep => true
  | .rearm => true

end Sys2Proof
end

