-- ==== Sys2Proof/Decode.lean ====
section
/-! DEFINITION. Decoding. First level (R53, R54): every 72-bit word to a command, a word that is none decoding to
ILLEGAL, which is refused by its own name. Second level (R55 to R59): a READ or WRITE to the one operation its address
selects. After them the encoders. -/

namespace Sys2Proof

/-- R54: the command of a word. -/
def decode (w : BusWord) : Instr :=
  match illegalReason w with
  | some _ => .illegal w
  | none =>
    if bcwK w = 2 then .tick
    else if bcwK w = 0 then
      if bcwSz w = 0 then .readB (bcwAddr w)
      else if bcwSz w = 1 then .readH (bcwAddr w)
      else .readW (bcwAddr w)
    else
      if bcwSz w = 0 then .writeB (bcwAddr w) (bcwValue w)
      else if bcwSz w = 1 then .writeH (bcwAddr w) (bcwValue w)
      else .writeW (bcwAddr w) (bcwValue w)

/-- The host's reading of a table row: the word's bits, numbered as the table numbers them; the block reads exactly
72 bits, so a wider number is no command word. -/
def decodeTableWord (_nbits w : Nat) : Option Instr :=
  if w < 2 ^ 72 then some (decode (BitVec.ofNat 72 w)) else none

/-- R53: the word of a command; the REGISTER and INTERNAL rows have no word of their own (R60). -/
def encode : Instr → Option BusWord
  | .readB a => some (bcw 0x00 a 0)
  | .readH a => some (bcw 0x04 a 0)
  | .readW a => some (bcw 0x08 a 0)
  | .writeB a v => some (bcw 0x01 a v)
  | .writeH a v => some (bcw 0x05 a v)
  | .writeW a v => some (bcw 0x09 a v)
  | .tick => some (bcw 0x02 0 0)
  | .illegal w => some w
  | .intcAck => none
  | .intcEnable _ => none
  | .ctCtrlR _ => none
  | .ctCtrlW _ _ => none
  | .ctReloadR _ => none
  | .ctReloadW _ _ => none
  | .ctValueR _ => none
  | .clkValueR _ => none
  | .ocCompareR _ _ => none
  | .ocArm _ _ _ => none
  | .ocStatusR _ _ => none
  | .ocClear _ _ _ => none
  | .sdmaRreg _ _ => none
  | .sdmaWreg _ _ _ => none
  | .sdmaStart _ _ => none
  | .pdmaRreg _ _ => none
  | .pdmaWreg _ _ _ => none
  | .pdmaStart _ _ => none
  | .extRead _ _ => none
  | .extWrite _ _ _ => none
  | .defaultRead _ _ => none
  | .defaultWrite _ _ _ => none
  | .mismatchRead _ _ => none
  | .mismatchWrite _ _ _ => none
  | .register _ => none
  | .activate _ => none
  | .trigger _ _ => none
  | .period => none
  | .serviceTick => none
  | .clockStep => none
  | .start _ => none
  | .stop _ => none
  | .countdownStep => none
  | .setCompare _ _ _ => none
  | .ocCheck => none
  | .ocRaise => none
  | .sdmaCopy _ _ _ => none
  | .pdmaStep => none
  | .rearm => none

/-! ### Second level: the operation a READ or WRITE selects -/

/-- R57, R59: the READ operation at offset `off` of entry `e`, the `i`-th of the registry. -/
def readOp (o : Offsets) (i : Nat) (e : Entry) (off : U32) : Instr :=
  match e.handler with
  | .intc _ =>
    match intcRole o off with
    | some .reason => .intcAck
    | some .enable => .mismatchRead i off
    | none => .mismatchRead i off
  | .ct k =>
    match ctRole o off with
    | some .ctrl => .ctCtrlR k
    | some .reload => .ctReloadR k
    | some .value => .ctValueR k
    | none => .mismatchRead i off
  | .clk d =>
    match clkRole o off with
    | some .value => .clkValueR d
    | none => .mismatchRead i off
  | .oc d k =>
    match ocRole o off with
    | some .compare => .ocCompareR d k
    | some .status => .ocStatusR d k
    | none => .mismatchRead i off
  | .sdma c =>
    match sdmaRole o off with
    | some (.field f) => .sdmaRreg c f
    | some .start => .mismatchRead i off
    | none => .mismatchRead i off
  | .pdma c =>
    match pdmaRole o off with
    | some (.field f) => .pdmaRreg c f.reg
    | some .start => .mismatchRead i off
    | some .xfer => .pdmaRreg c .xfer
    | some .status => .pdmaRreg c .status
    | none => .mismatchRead i off
  | .ext _ _ => .extRead i off

/-- R57, R59: the WRITE operation at offset `off` of entry `e`, the `i`-th of the registry. -/
def writeOp (o : Offsets) (i : Nat) (e : Entry) (off wv : U32) : Instr :=
  match e.handler with
  | .intc _ =>
    match intcRole o off with
    | some .reason => .mismatchWrite i off wv
    | some .enable => .intcEnable wv
    | none => .mismatchWrite i off wv
  | .ct k =>
    match ctRole o off with
    | some .ctrl => .ctCtrlW k wv
    | some .reload => .ctReloadW k wv
    | some .value => .mismatchWrite i off wv
    | none => .mismatchWrite i off wv
  | .clk _ => .mismatchWrite i off wv
  | .oc d k =>
    match ocRole o off with
    | some .compare => .ocArm d k wv
    | some .status => .ocClear d k wv
    | none => .mismatchWrite i off wv
  | .sdma c =>
    match sdmaRole o off with
    | some (.field f) => .sdmaWreg c f wv
    | some .start => .sdmaStart c wv
    | none => .mismatchWrite i off wv
  | .pdma c =>
    match pdmaRole o off with
    | some (.field f) => .pdmaWreg c f wv
    | some .start => .pdmaStart c wv
    | some .xfer => .mismatchWrite i off wv
    | some .status => .mismatchWrite i off wv
    | none => .mismatchWrite i off wv
  | .ext _ _ => .extWrite i off wv

/-- R55, R66, R67: the one operation an access in the aperture selects. The default handler gets the original address,
size and value; an entry's handler gets the offset of the normalised address and the normalised value. -/
def resolve (c : Config) (mode : Mode) (size : Nat) (addr value : U32) : Instr :=
  match c.lookup (normAddr addr) with
  | none =>
    match mode with
    | .read => .defaultRead size addr
    | .write => .defaultWrite size addr value
  | some (i, e) =>
    match mode with
    | .read => readOp c.offs i e (normAddr addr - e.start)
    | .write => writeOp c.offs i e (normAddr addr - e.start) (truncBytes size value)

/-- The offset, direction and write value with which a bus command selects a core register operation (R57's table). -/
def busForm (o : Offsets) : Instr → Option (Mode × U32 × U32)
  | .intcAck => some (.read, o.intcReason, 0)
  | .intcEnable wv => some (.write, o.intcEnable, wv)
  | .ctCtrlR _ => some (.read, o.ctCtrl, 0)
  | .ctCtrlW _ wv => some (.write, o.ctCtrl, wv)
  | .ctReloadR _ => some (.read, o.ctReload, 0)
  | .ctReloadW _ wv => some (.write, o.ctReload, wv)
  | .ctValueR _ => some (.read, o.ctValue, 0)
  | .clkValueR _ => some (.read, o.clkValue, 0)
  | .ocCompareR _ _ => some (.read, o.ocCompare, 0)
  | .ocArm _ _ wv => some (.write, o.ocCompare, wv)
  | .ocStatusR _ _ => some (.read, o.ocStatus, 0)
  | .ocClear _ _ wv => some (.write, o.ocStatus, wv)
  | .sdmaRreg _ .src => some (.read, o.sdmaSrc, 0)
  | .sdmaRreg _ .dst => some (.read, o.sdmaDst, 0)
  | .sdmaRreg _ .count => some (.read, o.sdmaCount, 0)
  | .sdmaWreg _ .src wv => some (.write, o.sdmaSrc, wv)
  | .sdmaWreg _ .dst wv => some (.write, o.sdmaDst, wv)
  | .sdmaWreg _ .count wv => some (.write, o.sdmaCount, wv)
  | .sdmaStart _ wv => some (.write, o.sdmaStart, wv)
  | .pdmaRreg _ .src => some (.read, o.pdmaSrc, 0)
  | .pdmaRreg _ .dst => some (.read, o.pdmaDst, 0)
  | .pdmaRreg _ .count => some (.read, o.pdmaCount, 0)
  | .pdmaRreg _ .xfer => some (.read, o.pdmaXfer, 0)
  | .pdmaRreg _ .status => some (.read, o.pdmaStatus, 0)
  | .pdmaWreg _ .src wv => some (.write, o.pdmaSrc, wv)
  | .pdmaWreg _ .dst wv => some (.write, o.pdmaDst, wv)
  | .pdmaWreg _ .count wv => some (.write, o.pdmaCount, wv)
  | .pdmaStart _ wv => some (.write, o.pdmaStart, wv)
  | .extRead _ off => some (.read, off, 0)
  | .extWrite _ off wv => some (.write, off, wv)
  | .mismatchRead _ off => some (.read, off, 0)
  | .mismatchWrite _ off wv => some (.write, off, wv)
  | .readB _ => none
  | .readH _ => none
  | .readW _ => none
  | .writeB _ _ => none
  | .writeH _ _ => none
  | .writeW _ _ => none
  | .tick => none
  | .illegal _ => none
  | .defaultRead _ _ => none
  | .defaultWrite _ _ _ => none
  | .register _ => none
  | .activate _ => none
  | .trigger _ _ => none
  | .period => none
  | .serviceTick => none
  | .clockStep => none
  | .start _ => none
  | .stop _ => none
  | .countdownStep => none
  | .setCompare _ _ _ => none
  | .ocCheck => none
  | .ocRaise => none
  | .sdmaCopy _ _ _ => none
  | .pdmaStep => none
  | .rearm => none

/-- R57: a 4-byte bus command, through the first entry that serves it, whose access selects the operation `i`; `none`
where no entry of the registry reaches it. -/
def encodeAccess (c : Config) (i : Instr) : Option Instr :=
  match busForm c.offs i with
  | none => none
  | some (mode, off, wv) =>
    c.registry.findSome? fun e =>
      if resolve c mode 4 (e.start + off) wv = i then
        match mode with
        | .read => some (.readW (e.start + off))
        | .write => some (.writeW (e.start + off) wv)
      else none

end Sys2Proof
end

