-- ==== Sys2Proof/Machine/State.lean ====
section
/-! DEFINITION. The state of the block (10_state), the reasons a step can stop, and the reset state (70_reset R171). -/

namespace Sys2Proof.Machine

/-- R15: a countdown timer; `current` and `reload` are the rule's current_value and reload_value. -/
structure Countdown where
  enabled : Bool
  current : U32
  reload : U32
  deriving DecidableEq, Repr

/-- R17: an output-compare slot; `compare` is the rule's output_compare. -/
structure OutputCompare where
  active : Bool
  compare : U32
  triggered : Bool
  deriving DecidableEq, Repr

/-- R18: a synchronous DMA channel. -/
structure SyncDma where
  src : U32
  dst : U32
  count : U32
  deriving DecidableEq, Repr

/-- R19: IN moves from the device to memory, OUT from memory to the device. -/
inductive Dir where
  | inward
  | outward
  deriving DecidableEq, Repr

/-- R19: a polled DMA channel; `wait` is the rule's wait_countdown, an int32 held as its 32 bits. -/
structure PolledDma where
  src : U32
  dst : U32
  count : U32
  dir : Dir
  busy : Bool
  transferred : U32
  wait : BitVec 32
  deriving DecidableEq, Repr

/-- The state of the block. The fields up to `ticks` are the spec's (10_state); those after it are the model's own. -/
structure State where
  /-- R11, index 0 unused -/
  enabled : List Bool
  /-- R12, index 0 unused -/
  scheduled : List U32
  /-- R13 -/
  activeId : Nat
  /-- R14 -/
  irqLine : Bool
  /-- R15 -/
  ct : List Countdown
  /-- R16 -/
  clk : PerDomain U32
  /-- R17 -/
  oc : PerDomain (List OutputCompare)
  /-- R18 -/
  sdma : List SyncDma
  /-- R19 -/
  pdma : List PolledDma
  /-- R20, listed by offset from RAM_BASE; no step stores what the CPU collaborator does (assumption 22) -/
  ram : Memory
  /-- R20, listed by offset from ROM_BASE -/
  rom : Memory
  /-- R20 mmio_backing, listed by offset from MMIO_BASE -/
  backing : Memory
  /-- R21, one element for each registry entry; `[]` for a core entry -/
  ext : List ExtState
  /-- R22 -/
  fault : Option (FaultKind × FaultCode)
  /-- R23, ghost -/
  ticks : Nat
  /-- the configuration, constant in a run (assumption 1) -/
  cfg : Config
  /-- a `step` has been taken; an operation run on its own is none (assumption 13) -/
  started : Bool
  /-- the command words presented and not yet served, oldest first (assumption 2) -/
  inbox : List BusWord
  /-- the storage backend's next answers (assumption 5) -/
  draws : List Draw
  /-- how many draws were taken (assumption 5) -/
  drawsTaken : Nat
  /-- what the last step returned to the CPU collaborator (assumption 3) -/
  reply : Option U32
  /-- the DevWrite calls of the last step, with their channels (assumption 3) -/
  devOut : List (Nat × List Byte)
  deriving DecidableEq, Repr

/-- Why the machine stops without a next state. -/
inductive Fault where
  /-- Raised by exec and step in a state whose `fault` is (FATAL, code): such a state has no further step (R22, R152).
  Safe. -/
  | stopped (code : FaultCode)
  /-- Raised by step when no command word is waiting: a step is a bus command or a tick (R9), so there is none
  (assumption 2). Safe. -/
  | noCommand
  deriving DecidableEq, Repr

/-- Why the model gives no meaning. -/
inductive Refusal where
  /-- Raised by exec for an instruction without a meaning yet. Safe. -/
  | notModelled (mnemonic : String)
  /-- Raised by exec and step in a state whose `fault` is (REFUSED, code): such a state has no further step (R22, R152).
  Safe. -/
  | stopped (code : FaultCode)
  /-- Raised by an operation whose operand names a slot, channel, id or entry the configuration does not have; no bus
  command of a well-formed configuration reaches it (assumption 12). Safe. -/
  | noSuchUnit
  /-- Raised by `register` once the machine has taken a step: R69 makes it available only before (assumption 13).
  Safe. -/
  | registryFixed
  deriving DecidableEq, Repr

/-- R73, D42: the initial private state of an entry's handler; a core entry has none. -/
def initialExt : Handler → ExtState
  | .intc _ => []
  | .ct _ => []
  | .clk _ => []
  | .oc _ _ => []
  | .sdma _ => []
  | .pdma _ => []
  | .ext .echo _ => [0]
  | .ext .const _ => []
  | .ext (.shim n) p => Config.shimInit n p

/-- The bytes an image supplies; a missing one supplies none (setup then stops, R172). -/
def imageBytes : Option Image → Memory
  | none => []
  | some i => i.bytes

/-- R171: the reset state of a configuration. -/
def State.resetOf (c : Config) : State where
  enabled := List.replicate c.nIrq false
  scheduled := List.replicate c.nIrq 0
  activeId := 0
  irqLine := false
  ct := List.replicate c.nCt ⟨false, 0, 0⟩
  clk := ⟨0, 0⟩
  oc := ⟨List.replicate (c.nOc .narrow) ⟨false, 0, false⟩, List.replicate (c.nOc .wide) ⟨false, 0, false⟩⟩
  sdma := List.replicate c.nSdma ⟨0, 0, 0⟩
  pdma := List.replicate c.nPdma ⟨0, 0, 0, .inward, false, 0, 0⟩
  ram := imageBytes c.initRam
  rom := imageBytes c.initRom
  backing := []
  ext := c.registry.map fun e => initialExt e.handler
  fault := none
  ticks := 0
  cfg := c
  started := false
  inbox := []
  draws := []
  drawsTaken := 0
  reply := none
  devOut := []

/-- R171: the machine right after reset, in the reference configuration (assumption 1). -/
def State.reset : State := State.resetOf Config.reference

end Sys2Proof.Machine
end

