-- ==== Sys2Proof/Machine/Flags.lean ====
section
/-! DEFINITION. The status words a program reads (10_state R26, R28, R29; the bits R30 lists). -/

namespace Sys2Proof.Machine

/-- R7: a boolean reads 1 or 0. -/
def boolBit (b : Bool) : U32 := if b then 1 else 0

/-- R106: CTRL of a countdown timer; bits [31:1] read 0. -/
def ctrlWord (t : Countdown) : U32 := boolBit t.enabled

/-- R115: STATUS of an output-compare slot: bit 0 triggered, bit 1 active. -/
def ocStatusWord (o : OutputCompare) : U32 := boolBit o.triggered ||| (boolBit o.active <<< 1)

/-- R133: STATUS of a polled channel: bit 0 busy, bit 1 dir = OUT. -/
def pdmaStatusWord (p : PolledDma) : U32 := boolBit p.busy ||| (boolBit (decide (p.dir = .outward)) <<< 1)

end Sys2Proof.Machine
end

