-- ==== Sys2Proof/Machine/Ops.lean ====
section
/-! DEFINITION. The named operations every meaning is built from: one update for each field, memory (20_memory), taking a
fault (60_exceptions R152), and the Interrupt Controller's activation, trigger and acknowledge (41), which are the
block's side of entering and leaving an interrupt. -/

namespace Sys2Proof.Machine

/-- Why an operation does not complete: a fault the rules raise (R152), or a model-level refusal. -/
inductive Stop where
  | raised (code : FaultCode)
  | outside (r : Refusal)
  deriving DecidableEq, Repr

/-- An operation's outcome. -/
abbrev Res := Except Stop State

/-! ### Field updates and reads -/

/-- R11: `s.enabled[id]`. -/
def State.isEnabled (s : State) (id : Nat) : Bool := s.enabled.getD id false

/-- R12: `s.scheduled[id]`. -/
def State.scheduledAt (s : State) (id : Nat) : U32 := s.scheduled.getD id 0

def State.setEnabled (s : State) (id : Nat) (b : Bool) : State := { s with enabled := s.enabled.set id b }

def State.setScheduled (s : State) (id : Nat) (v : U32) : State := { s with scheduled := s.scheduled.set id v }

def State.setActiveId (s : State) (id : Nat) : State := { s with activeId := id }

/-- R85: `assert_line()`. -/
def State.assertLine (s : State) : State := { s with irqLine := true }

/-- R85: `deassert_line()`. -/
def State.deassertLine (s : State) : State := { s with irqLine := false }

def State.setCt (s : State) (k : Nat) (t : Countdown) : State := { s with ct := s.ct.set k t }

def State.setCts (s : State) (l : List Countdown) : State := { s with ct := l }

def State.setClk (s : State) (d : Domain) (v : U32) : State := { s with clk := s.clk.set d v }

def State.setOc (s : State) (d : Domain) (k : Nat) (o : OutputCompare) : State :=
  { s with oc := s.oc.set d ((s.oc.get d).set k o) }

def State.setOcs (s : State) (d : Domain) (l : List OutputCompare) : State := { s with oc := s.oc.set d l }

def State.setSdma (s : State) (c : Nat) (x : SyncDma) : State := { s with sdma := s.sdma.set c x }

def State.setPdma (s : State) (c : Nat) (x : PolledDma) : State := { s with pdma := s.pdma.set c x }

def State.setRam (s : State) (m : Memory) : State := { s with ram := m }

def State.setBacking (s : State) (m : Memory) : State := { s with backing := m }

def State.setExt (s : State) (e : Nat) (x : ExtState) : State := { s with ext := s.ext.set e x }

def State.setFault (s : State) (f : FaultKind × FaultCode) : State := { s with fault := some f }

def State.setReply (s : State) (v : U32) : State := { s with reply := some v }

/-- R23: one more tick taken. -/
def State.countTick (s : State) : State := { s with ticks := s.ticks + 1 }

/-- The start of a step: nothing returned and nothing sent to the backend yet (assumption 3). -/
def State.begun (s : State) : State := { s with reply := none, devOut := [] }

/-- R69: the registry with one more entry, and that entry's private state. -/
def State.addEntry (s : State) (e : Entry) : State :=
  { s with
    cfg := { s.cfg with registry := s.cfg.registry ++ [e] }
    ext := s.ext ++ [initialExt e.handler] }

/-! ### Memory (R34, R36, R37) -/

/-- The byte at a key; an unlisted one reads 0 (assumption 7). -/
def Memory.get : Memory → Nat → Byte
  | [], _ => 0#8
  | (k, v) :: m, a => if k = a then v else Memory.get m a

/-- Store a byte at a key, keeping the canonical form: a zero byte is not listed. -/
def Memory.put : Memory → Nat → Byte → Memory
  | [], a, b => if b = 0#8 then [] else [(a, b)]
  | (k, v) :: m, a, b =>
    if a < k then (if b = 0#8 then (k, v) :: m else (a, b) :: (k, v) :: m)
    else if a = k then (if b = 0#8 then m else (a, b) :: m)
    else (k, v) :: Memory.put m a b

/-- Store bytes at rising keys from `a`. -/
def Memory.putList (m : Memory) (a : Nat) : List Byte → Memory
  | [] => m
  | b :: bs => Memory.putList (Memory.put m a b) (a + 1) bs

/-- R34, R36: the byte at a physical address, RAM first, then ROM with its mirrors; `none` in neither. -/
def State.byteAt (s : State) (a : Nat) : Option Byte :=
  if s.cfg.inRam a then some (Memory.get s.ram (a - s.cfg.ramBase.toNat))
  else if s.cfg.inRom a then some (Memory.get s.rom ((a - s.cfg.romBase.toNat) % s.cfg.romSize.toNat))
  else none

/-- `p` holds of the `n` addresses from `a`. -/
def rangeAll (p : Nat → Bool) (a : Nat) : Nat → Bool
  | 0 => true
  | n + 1 => p a && rangeAll p (a + 1) n

/-- R36: MemRead would not refuse: no byte past 2^32 - 1, each in RAM or ROM. -/
def readable (c : Config) (addr : U32) (n : Nat) : Bool :=
  n == 0 || (decide (addr.toNat + n ≤ 2 ^ 32) && rangeAll (fun a => c.inRam a || c.inRom a) addr.toNat n)

/-- R37: MemWrite would not refuse: no byte past 2^32 - 1, each in RAM. -/
def writable (c : Config) (addr : U32) (n : Nat) : Bool :=
  n == 0 || (decide (addr.toNat + n ≤ 2 ^ 32) && rangeAll c.inRam addr.toNat n)

/-- The bytes at `n` rising physical addresses. -/
def State.bytesAt (s : State) (a : Nat) : Nat → List Byte
  | 0 => []
  | n + 1 => (s.byteAt a).getD 0 :: s.bytesAt (a + 1) n

/-- R36: MemRead; the addresses do not wrap, and the read has no side effect. -/
def memRead (s : State) (addr : U32) (n : Nat) : Except Stop (List Byte) :=
  if readable s.cfg addr n then .ok (s.bytesAt addr.toNat n) else .error (.raised .dmaRegion)

/-- R37: MemWrite; every address is checked before a byte is written. -/
def memWrite (s : State) (addr : U32) (b : List Byte) : Res :=
  if writable s.cfg addr b.length then
    .ok (s.setRam (Memory.putList s.ram (addr.toNat - s.cfg.ramBase.toNat) b))
  else .error (.raised .dmaRegion)

/-- R77: the raw store of the default handler: `size` bytes, little-endian, those past the aperture's end dropped. -/
def State.storeBacking (s : State) (addr value : U32) (size : Nat) : Nat → Memory → Memory
  | 0, m => m
  | n + 1, m =>
    s.storeBacking addr value size n
      (if s.cfg.inAperture (addr.toNat + (size - (n + 1))) then
        Memory.put m (addr.toNat + (size - (n + 1)) - s.cfg.mmioBase.toNat) (byteOf value (size - (n + 1)))
      else m)

/-! ### Taking a fault (R152) -/

/-- R152: the faulting step leaves the state before it, with `fault` set to the code and its kind. -/
def takeFault (code : FaultCode) (s : State) : State := s.setFault (code.kind, code)

/-- R22, R152: a state with `fault` set has no further step. -/
def halted : FaultKind → FaultCode → Host.Outcome State Fault Refusal
  | .fatal, code => .fault (.stopped code)
  | .refused, code => .refused (.stopped code)

/-- R8, R152: run an operation as one atomic step. A raised fault discards every change but the fault itself. An operation
run on its own is not counted as a step for R5 and R69: only `step` sets `started` (assumption 13). -/
def perform (op : State → Res) (s : State) : Host.Outcome State Fault Refusal :=
  match s.fault with
  | some (kind, code) => halted kind code
  | none =>
    match op s.begun with
    | .ok t => .next t
    | .error (.raised code) => .next (takeFault code s.begun)
    | .error (.outside r) => .refused r

/-! ### The Interrupt Controller's operations (41) -/

/-- R91: the periodic interrupt's current period. -/
def periodOf (s : State) : U32 :=
  match s.ct[s.cfg.sysTimerSlot]? with
  | some t => t.reload >>> s.cfg.periodShift
  | none => 0

/-- R88: make `id` the active interrupt: it masks itself, and its count goes to 0, or for the periodic id to the
period; the line rises. -/
def activate (id : Nat) (s : State) : State :=
  (((s.setActiveId id).setEnabled id false).setScheduled id
    (if id = s.cfg.periodicIrq then periodOf s else 0)).assertLine

/-- R87: the id check of every trigger. -/
def checkId (c : Config) (id : Nat) : Option FaultCode :=
  if id = 0 then some .triggerIdZero
  else if c.nIrq ≤ id then some .triggerIdRange
  else none

/-- R89: request `id` after `delay` ticks; a masked id is forced to 1. -/
def trigger (id : Nat) (delay : U32) (s : State) : Res :=
  match checkId s.cfg id with
  | some code => .error (.raised code)
  | none =>
    if delay = 0#32 ∧ s.isEnabled id = true ∧ s.activeId = 0 then .ok (activate id s)
    else if s.isEnabled id then .ok (s.setScheduled id (if delay = 0#32 then 1#32 else delay))
    else .ok (s.setScheduled id 1#32)

/-- R86: set `enabled[id]`; an id outside 1 to N_IRQ-1 is ignored. -/
def enableId (id : Nat) (s : State) : State :=
  if s.cfg.idOk id then s.setEnabled id true else s

/-- R90: the value a read of REASON returns. -/
def reasonValue (s : State) : U32 := BitVec.ofNat 32 s.activeId <<< s.cfg.reasonShift

/-- R90: the acknowledge: the active id is reset and the line falls; with none active nothing changes. -/
def acknowledge (s : State) : State :=
  if s.activeId = 0 then s else (s.setActiveId 0).deassertLine

/-! ### The storage backend (R135) -/

/-- R135: the next draw, and the state that has taken it (assumption 5). -/
def takeDraw (s : State) : Draw × State :=
  match s.draws with
  | d :: ds => (d, { s with draws := ds, drawsTaken := s.drawsTaken + 1 })
  | [] => (Config.backendDraw s.drawsTaken, { s with drawsTaken := s.drawsTaken + 1 })

/-- Exactly `n` bytes of a list, a short one filled with zeros (assumption 5). -/
def exactBytes : Nat → List Byte → List Byte
  | 0, _ => []
  | n + 1, [] => 0 :: exactBytes n []
  | n + 1, b :: bs => b :: exactBytes n bs

/-- R135: `DevReady(c)`. -/
def devReady (s : State) : Except Stop (Bool × State) :=
  if (takeDraw s).1.impossible then .error (.raised .extHandler) else .ok ((takeDraw s).1.ready, (takeDraw s).2)

/-- R135: `DevRead(c, n)`: the device's next `n` bytes. -/
def devRead (n : Nat) (s : State) : Except Stop (List Byte × State) :=
  if (takeDraw s).1.impossible then .error (.raised .extHandler)
  else .ok (exactBytes n (takeDraw s).1.data, (takeDraw s).2)

/-- R135: `DevWrite(c, b)`: the device accepts the bytes; they leave the block on `devOut` (assumption 3). -/
def devWrite (c : Nat) (b : List Byte) (s : State) : Res :=
  if (takeDraw s).1.impossible then .error (.raised .extHandler)
  else .ok { (takeDraw s).2 with devOut := (takeDraw s).2.devOut ++ [(c, b)] }

end Sys2Proof.Machine
end

