-- ==== Sys2Proof/Machine/Dma.lean ====
section
/-! DEFINITION. The synchronous and the polled DMA engines (43_dma). -/

namespace Sys2Proof.Machine

/-! ### Synchronous DMA -/

/-- Run on synchronous channel `c`; a channel the configuration does not have is refused (assumption 12). -/
def withSdma (c : Nat) (f : SyncDma → State → Res) (s : State) : Res :=
  match s.sdma[c]? with
  | some x => f x s
  | none => .error (.outside .noSuchUnit)

/-- R122: a channel with one field replaced. -/
def SyncDma.put (x : SyncDma) (f : DmaField) (v : U32) : SyncDma :=
  match f with
  | .src => { x with src := v }
  | .dst => { x with dst := v }
  | .count => { x with count := v }

/-- R126: one field of a channel. -/
def SyncDma.read (x : SyncDma) : DmaField → U32
  | .src => x.src
  | .dst => x.dst
  | .count => x.count

/-- R122: `SDMA.WREG`. -/
def sdmaWreg (c : Nat) (f : DmaField) (wv : U32) : State → Res :=
  withSdma c fun x s => .ok (s.setSdma c (x.put f wv))

/-- R126: `SDMA.RREG`. -/
def sdmaRreg (c : Nat) (f : DmaField) : State → Res := withSdma c fun x s => .ok (s.setReply (x.read f))

/-- R124: the chunk loop from offset `off`; each chunk is read whole before it is written. `fuel` bounds the number of
chunks, of which there are at most `n`. Overlapping ranges replicate as R128 says, where R123's example states a true
move (assumption 21). -/
def copyLoop (src dst : U32) (n chunk : Nat) : Nat → Nat → State → Res
  | 0, _, s => .ok s
  | fuel + 1, off, s =>
    if off < n then do
      let b ← memRead s (src + BitVec.ofNat 32 off) (min chunk (n - off))
      let t ← memWrite s (dst + BitVec.ofNat 32 off) b
      copyLoop src dst n chunk fuel (off + min chunk (n - off)) t
    else .ok s

/-- R124: `sdma_copy(src, dst, n)`, forward in ascending chunks. -/
def sdmaCopy (src dst n : U32) (s : State) : Res :=
  copyLoop src dst n.toNat s.cfg.sdmaChunk n.toNat 0 s

/-- R125: the completion delay of a transfer of `n` bytes. -/
def sdmaDelay (c : Config) (n : U32) : U32 := BitVec.ofNat 32 (n.toNat / c.dmaLatencyDiv)

/-- R123: `SDMA.START`: the whole range is checked, then copied, then the completion id is triggered. -/
def sdmaStart (c : Nat) (_wv : U32) : State → Res :=
  withSdma c fun x s =>
    if readable s.cfg x.src x.count.toNat && writable s.cfg x.dst x.count.toNat then
      match s.cfg.sdmaIrq[c]? with
      | some id => do
        let t ← sdmaCopy x.src x.dst x.count s
        trigger id (sdmaDelay s.cfg x.count) t
      | none => .error (.outside .noSuchUnit)
    else .error (.raised .dmaRegion)

/-! ### Polled DMA -/

/-- Run on polled channel `c`; a channel the configuration does not have is refused (assumption 12). -/
def withPdma (c : Nat) (f : PolledDma → State → Res) (s : State) : Res :=
  match s.pdma[c]? with
  | some p => f p s
  | none => .error (.outside .noSuchUnit)

/-- R131: a channel with one transfer register replaced. -/
def PolledDma.put (p : PolledDma) (f : DmaField) (v : U32) : PolledDma :=
  match f with
  | .src => { p with src := v }
  | .dst => { p with dst := v }
  | .count => { p with count := v }

/-- R133: one register of a channel. -/
def PolledDma.read (p : PolledDma) : PdmaReg → U32
  | .src => p.src
  | .dst => p.dst
  | .count => p.count
  | .xfer => p.transferred
  | .status => pdmaStatusWord p

/-- R131: `PDMA.WREG`: a write while busy is ignored. A COUNT below `transferred` is taken, against R31 item 4
(assumption 11). -/
def pdmaWreg (c : Nat) (f : DmaField) (wv : U32) : State → Res :=
  withPdma c fun p s => if p.busy then .ok s else .ok (s.setPdma c (p.put f wv))

/-- R133: `PDMA.RREG`. -/
def pdmaRreg (c : Nat) (r : PdmaReg) : State → Res := withPdma c fun p s => .ok (s.setReply (p.read r))

/-- R132: the direction of a START value. -/
def startDir (wv : U32) : Dir := if wv.getLsbD 0 then .outward else .inward

/-- R132: the memory range of a transfer is one the engine can use in its direction. -/
def PolledDma.regionOk (c : Config) (p : PolledDma) (dir : Dir) : Bool :=
  match dir with
  | .inward => writable c p.dst p.count.toNat
  | .outward => readable c p.src p.count.toNat

/-- R132: a channel as START leaves it. -/
def PolledDma.started (c : Config) (p : PolledDma) (dir : Dir) : PolledDma :=
  { p with dir := dir, busy := true, transferred := 0, wait := c.pdmaWaitInit }

/-- R132: `PDMA.START`: busy, then alignment, then region. -/
def pdmaStart (c : Nat) (wv : U32) : State → Res :=
  withPdma c fun p s =>
    if p.busy then .error (.raised .pdmaBusy)
    else if p.count.toNat % 4 ≠ 0 then .error (.raised .pdmaAlign)
    else if p.regionOk s.cfg (startDir wv) then .ok (s.setPdma c (p.started s.cfg (startDir wv)))
    else .error (.raised .dmaRegion)

/-- R134: the size of the next chunk. -/
def chunkSize (c : Config) (p : PolledDma) : Nat := min c.pdmaChunk (p.count.toNat - p.transferred.toNat)

/-- R134: move one chunk between the device and memory. -/
def moveChunk (c n : Nat) (p : PolledDma) (s : State) : Res :=
  match p.dir with
  | .inward => do
    let (b, t) ← devRead n s
    memWrite t (p.dst + p.transferred) b
  | .outward => do
    let b ← memRead s (p.src + p.transferred) n
    devWrite c b s

/-- R134 part 1: at most one chunk, while data is left and the device is ready. -/
def pdmaMove (c : Nat) (p : PolledDma) (s : State) : Except Stop (PolledDma × State) :=
  if p.transferred < p.count then do
    let (ready, t) ← devReady s
    if ready then do
      let u ← moveChunk c (chunkSize s.cfg p) p t
      return ({ p with transferred := p.transferred + BitVec.ofNat 32 (chunkSize s.cfg p) }, u)
    else return (p, t)
  else return (p, s)

/-- R134 part 2: the wait counts down once a tick and stops at -2^31. -/
def waitNext (w : BitVec 32) : BitVec 32 := if w.toInt > -2 ^ 31 then w - 1 else w

/-- R134 part 3: the transfer is complete. -/
def PolledDma.complete (p : PolledDma) : Bool := p.transferred == p.count && decide (p.wait.toInt ≤ 0)

/-- R134 part 3: the completion triggers, the DMA id first, the driver id when there is one. -/
def raiseCompletion (irq : PdmaIrq) (s : State) : Res := do
  let t ← trigger irq.dma 0 s
  if irq.drv ≠ 0 then trigger irq.drv 0 t else return t

/-- R134 parts 2 and 3, after the move left the channel as `p`. -/
def pdmaFinish (c : Nat) (p : PolledDma) (s : State) : Res :=
  if (PolledDma.complete { p with wait := waitNext p.wait }) = true then
    match s.cfg.pdmaIrq[c]? with
    | some irq => raiseCompletion irq (s.setPdma c { p with wait := waitNext p.wait, busy := false })
    | none => .error (.outside .noSuchUnit)
  else .ok (s.setPdma c { p with wait := waitNext p.wait })

/-- R134: the step of one channel. -/
def pdmaChannel (c : Nat) : State → Res :=
  withPdma c fun p s =>
    if p.busy then do
      let (q, t) ← pdmaMove c p s
      pdmaFinish c q t
    else .ok s

/-- R134: channels in the order listed. -/
def pdmaChannels : List Nat → State → Res
  | [], s => .ok s
  | c :: cs, s => do
    let t ← pdmaChannel c s
    pdmaChannels cs t

/-- R134: `pdma_step()`, channels 0 to N_PDMA-1. -/
def pdmaStep (s : State) : Res := pdmaChannels (List.range s.cfg.nPdma) s

/-! ### Meanings -/

/-- R126. -/
def execSdmaRreg (c : Nat) (f : DmaField) (s : State) : Host.Outcome State Fault Refusal := perform (sdmaRreg c f) s

/-- R122. -/
def execSdmaWreg (c : Nat) (f : DmaField) (wv : U32) (s : State) : Host.Outcome State Fault Refusal :=
  perform (sdmaWreg c f wv) s

/-- R123. -/
def execSdmaStart (c : Nat) (wv : U32) (s : State) : Host.Outcome State Fault Refusal := perform (sdmaStart c wv) s

/-- R133. -/
def execPdmaRreg (c : Nat) (r : PdmaReg) (s : State) : Host.Outcome State Fault Refusal := perform (pdmaRreg c r) s

/-- R131. -/
def execPdmaWreg (c : Nat) (f : DmaField) (wv : U32) (s : State) : Host.Outcome State Fault Refusal :=
  perform (pdmaWreg c f wv) s

/-- R132. -/
def execPdmaStart (c : Nat) (wv : U32) (s : State) : Host.Outcome State Fault Refusal := perform (pdmaStart c wv) s

/-- R124, at the op level. -/
def execSdmaCopy (src dst n : U32) (s : State) : Host.Outcome State Fault Refusal := perform (sdmaCopy src dst n) s

/-- R134, at the op level. -/
def execPdmaStep (s : State) : Host.Outcome State Fault Refusal := perform pdmaStep s

end Sys2Proof.Machine
end

