-- ==== Sys2Proof/Machine/Intc.lean ====
section
/-! DEFINITION. The Interrupt Controller's operations and meanings (41_interrupt_controller). -/

namespace Sys2Proof.Machine

/-- R90: `INTC.ACK`. -/
def intcAck (s : State) : Res := .ok ((acknowledge s).setReply (reasonValue s))

/-- R86: `INTC.ENABLE`. -/
def intcEnable (wv : U32) (s : State) : Res := .ok (enableId wv.toNat s)

/-- R92: the service of one id, classed by its count at the visit. -/
def serviceId (id : Nat) (s : State) : State :=
  if s.scheduledAt id = 1#32 then
    if s.isEnabled id = true ∧ s.activeId = 0 then activate id s else s
  else if s.scheduledAt id = 0#32 then s
  else s.setScheduled id (s.scheduledAt id - 1#32)

/-- R92, R93: ids `n` down to 1, each visited once. -/
def serviceDown : Nat → State → State
  | 0, s => s
  | n + 1, s => serviceDown n (serviceId (n + 1) s)

/-- R92: `service_tick()`. -/
def serviceTick (s : State) : State := serviceDown (s.cfg.nIrq - 1) s

/-- R90. -/
def execIntcAck (s : State) : Host.Outcome State Fault Refusal := perform intcAck s

/-- R86. -/
def execIntcEnable (wv : U32) (s : State) : Host.Outcome State Fault Refusal := perform (intcEnable wv) s

/-- R88, at the op level; an id with no state is refused (assumption 12). -/
def execActivate (id : Nat) (s : State) : Host.Outcome State Fault Refusal :=
  perform (fun s => if s.cfg.idOk id then .ok (activate id s) else .error (.outside .noSuchUnit)) s

/-- R89, at the op level. -/
def execTrigger (id : Nat) (delay : U32) (s : State) : Host.Outcome State Fault Refusal :=
  perform (trigger id delay) s

/-- R91, at the op level: the period is returned. -/
def execPeriod (s : State) : Host.Outcome State Fault Refusal :=
  perform (fun s => .ok (s.setReply (periodOf s))) s

/-- R92, at the op level. -/
def execServiceTick (s : State) : Host.Outcome State Fault Refusal := perform (fun s => .ok (serviceTick s)) s

end Sys2Proof.Machine
end

