-- ==== Sys2Proof/Machine/Timers.lean ====
section
/-! DEFINITION. The free-running clocks, the countdown timers and the output-compare timers (42_timers). -/

namespace Sys2Proof.Machine

/-! ### Clocks -/

/-- R100: the next value of a domain's clock. -/
def clockNext (c : Config) (d : Domain) (v : U32) : U32 :=
  BitVec.ofNat 32 ((v.toNat + (c.clkStep.get d).toNat) % 2 ^ c.width.get d)

/-- R100: the advance of one domain. -/
def advanceClock (d : Domain) (s : State) : State := s.setClk d (clockNext s.cfg d (s.clk.get d))

/-- R100: `clock_step()`, narrow then wide. -/
def clockStep (s : State) : State := advanceClock .wide (advanceClock .narrow s)

/-- R101: `CLK.VALUE.R`. -/
def clkValueR (d : Domain) (s : State) : Res := .ok (s.setReply (s.clk.get d))

/-! ### Countdown timers -/

/-- Run on countdown slot `k`; a slot the configuration does not have is refused (assumption 12). -/
def withCt (k : Nat) (f : Countdown → State → Res) (s : State) : Res :=
  match s.ct[k]? with
  | some t => f t s
  | none => .error (.outside .noSuchUnit)

/-- R104: `start(k)`; the system slot also triggers the periodic id. -/
def startCt (k : Nat) : State → Res :=
  withCt k fun t s =>
    if k = s.cfg.sysTimerSlot then
      trigger s.cfg.periodicIrq (t.reload >>> s.cfg.periodShift) (s.setCt k { t with enabled := true })
    else .ok (s.setCt k { t with enabled := true })

/-- R105: `stop(k)`. -/
def stopCt (k : Nat) : State → Res :=
  withCt k fun t s => .ok (s.setCt k { t with enabled := false, current := 0 })

/-- R103: `CT.CTRL.W`: bit 0 starts or stops. -/
def ctCtrlW (k : Nat) (wv : U32) (s : State) : Res := if wv.getLsbD 0 then startCt k s else stopCt k s

/-- R106: `CT.CTRL.R`. -/
def ctCtrlR (k : Nat) : State → Res := withCt k fun t s => .ok (s.setReply (ctrlWord t))

/-- R107: `CT.RELOAD.W`. -/
def ctReloadW (k : Nat) (wv : U32) : State → Res :=
  withCt k fun t s => .ok (s.setCt k { t with reload := wv })

/-- R108: `CT.RELOAD.R`. -/
def ctReloadR (k : Nat) : State → Res := withCt k fun t s => .ok (s.setReply t.reload)

/-- R109: `CT.VALUE.R`. -/
def ctValueR (k : Nat) : State → Res := withCt k fun t s => .ok (s.setReply t.current)

/-- R110: one slot's step; the comparison is unsigned and strict, after an addition that wraps. For a step that does not
divide 2^32 this is R111's sequence and not its last special case (assumption 24). -/
def countdownNext (step : U32) (t : Countdown) : Countdown :=
  if t.enabled then { t with current := if t.reload < t.current + step then 0 else t.current + step } else t

/-- R110: `countdown_step()`. -/
def countdownStep (s : State) : State := s.setCts (s.ct.map (countdownNext s.cfg.ctStep))

/-! ### Output-compare timers -/

/-- R113: round up to a multiple of the step in unbounded integers, then reduce modulo 2^width. -/
def roundUp (c : Config) (d : Domain) (v : U32) : Nat :=
  ((v.toNat + (c.clkStep.get d).toNat - 1) / (c.clkStep.get d).toNat * (c.clkStep.get d).toNat) % 2 ^ c.width.get d

/-- R113: the unsigned distance from the clock to a target, modulo 2^width. -/
def clockDistance (c : Config) (d : Domain) (clk : U32) (target : Nat) : Nat :=
  (target + 2 ^ c.width.get d - clk.toNat % 2 ^ c.width.get d) % 2 ^ c.width.get d

/-- R7, R113: the distance read as signed is negative. -/
def isBehind (c : Config) (d : Domain) (clk : U32) (target : Nat) : Bool :=
  decide (2 ^ (c.width.get d - 1) ≤ clockDistance c d clk target)

/-- R113: the output_compare that arming with `v` leaves: the rounded target, or the next clock value when it is
behind. -/
def armedCompare (c : Config) (d : Domain) (clk v : U32) : U32 :=
  if isBehind c d clk (roundUp c d v) then clockNext c d clk else BitVec.ofNat 32 (roundUp c d v)

/-- Run on output-compare slot `(d, k)`; a slot the configuration does not have is refused (assumption 12). -/
def withOc (d : Domain) (k : Nat) (f : OutputCompare → State → Res) (s : State) : Res :=
  match (s.oc.get d)[k]? with
  | some o => f o s
  | none => .error (.outside .noSuchUnit)

/-- R113: `set_compare(d, k, v)`. -/
def setCompare (d : Domain) (k : Nat) (v : U32) : State → Res :=
  withOc d k fun o s =>
    .ok (s.setOc d k { o with compare := armedCompare s.cfg d (s.clk.get d) v, active := true })

/-- R113: `OC.ARM`. -/
def ocArm (d : Domain) (k : Nat) (wv : U32) (s : State) : Res := setCompare d k wv s

/-- R114: `OC.COMPARE.R`. -/
def ocCompareR (d : Domain) (k : Nat) : State → Res := withOc d k fun o s => .ok (s.setReply o.compare)

/-- R115: `OC.STATUS.R`. -/
def ocStatusR (d : Domain) (k : Nat) : State → Res := withOc d k fun o s => .ok (s.setReply (ocStatusWord o))

/-- R117: `OC.CLEAR`; the value is ignored. -/
def ocClear (d : Domain) (k : Nat) (_wv : U32) : State → Res :=
  withOc d k fun o s => .ok (s.setOc d k { o with triggered := false })

/-- R116: `s.fire[d][k]`, the match of a slot against its clock. -/
def fires (clk : U32) (o : OutputCompare) : Bool := o.active && o.compare == clk

/-- R116: the match of one family. -/
def checkFamily (d : Domain) (s : State) : State :=
  s.setOcs d ((s.oc.get d).map fun o => if fires (s.clk.get d) o then { o with triggered := true } else o)

/-- R116: `oc_check()`, narrow then wide. -/
def ocCheck (s : State) : State := checkFamily .wide (checkFamily .narrow s)

/-- R118: the raises of one family in ascending slot order: one trigger for each distinct id with a firing slot. -/
def raiseIds : List (Nat × Bool) → List Nat → State → Res
  | [], _, s => .ok s
  | (id, fire) :: l, done, s =>
    if fire = true ∧ id ∉ done then do
      let t ← trigger id 0 s
      raiseIds l (id :: done) t
    else raiseIds l done s

/-- R118: the ids of a family's slots with their matches; a match is not changed by oc_check (assumption 14). -/
def firingIds (d : Domain) (s : State) : List (Nat × Bool) :=
  (s.cfg.ocIrq.get d).zip ((s.oc.get d).map (fires (s.clk.get d)))

/-- R118: the raises of one family. -/
def raiseFamily (d : Domain) (s : State) : Res := raiseIds (firingIds d s) [] s

/-- R118: `oc_raise()`, narrow then wide. -/
def ocRaise (s : State) : Res := do
  let t ← raiseFamily .narrow s
  raiseFamily .wide t

/-! ### Meanings -/

/-- R101. -/
def execClkValueR (d : Domain) (s : State) : Host.Outcome State Fault Refusal := perform (clkValueR d) s

/-- R106. -/
def execCtCtrlR (k : Nat) (s : State) : Host.Outcome State Fault Refusal := perform (ctCtrlR k) s

/-- R103. -/
def execCtCtrlW (k : Nat) (wv : U32) (s : State) : Host.Outcome State Fault Refusal := perform (ctCtrlW k wv) s

/-- R108. -/
def execCtReloadR (k : Nat) (s : State) : Host.Outcome State Fault Refusal := perform (ctReloadR k) s

/-- R107. -/
def execCtReloadW (k : Nat) (wv : U32) (s : State) : Host.Outcome State Fault Refusal := perform (ctReloadW k wv) s

/-- R109. -/
def execCtValueR (k : Nat) (s : State) : Host.Outcome State Fault Refusal := perform (ctValueR k) s

/-- R114. -/
def execOcCompareR (d : Domain) (k : Nat) (s : State) : Host.Outcome State Fault Refusal := perform (ocCompareR d k) s

/-- R113. -/
def execOcArm (d : Domain) (k : Nat) (wv : U32) (s : State) : Host.Outcome State Fault Refusal :=
  perform (ocArm d k wv) s

/-- R115. -/
def execOcStatusR (d : Domain) (k : Nat) (s : State) : Host.Outcome State Fault Refusal := perform (ocStatusR d k) s

/-- R117. -/
def execOcClear (d : Domain) (k : Nat) (wv : U32) (s : State) : Host.Outcome State Fault Refusal :=
  perform (ocClear d k wv) s

/-- R100, at the op level. -/
def execClockStep (s : State) : Host.Outcome State Fault Refusal := perform (fun s => .ok (clockStep s)) s

/-- R104, at the op level. -/
def execStart (k : Nat) (s : State) : Host.Outcome State Fault Refusal := perform (startCt k) s

/-- R105, at the op level. -/
def execStop (k : Nat) (s : State) : Host.Outcome State Fault Refusal := perform (stopCt k) s

/-- R110, at the op level. -/
def execCountdownStep (s : State) : Host.Outcome State Fault Refusal := perform (fun s => .ok (countdownStep s)) s

/-- R113, at the op level. -/
def execSetCompare (d : Domain) (k : Nat) (v : U32) (s : State) : Host.Outcome State Fault Refusal :=
  perform (setCompare d k v) s

/-- R116, at the op level. -/
def execOcCheck (s : State) : Host.Outcome State Fault Refusal := perform (fun s => .ok (ocCheck s)) s

/-- R118, at the op level. -/
def execOcRaise (s : State) : Host.Outcome State Fault Refusal := perform ocRaise s

end Sys2Proof.Machine
end

