-- ==== Sys2Proof/Machine/Bus.lean ====
section
/-! DEFINITION. The bus access path (40_dispatch): the external, default and mismatch operations, the operation an access
resolves to, and the meanings of the bus commands. -/

namespace Sys2Proof.Machine

/-! ### External handlers (R73) -/

/-- R73: an external handler's read: its new state, the result and the calls it makes. -/
def extReadFn (h : ExtHandler) (x : ExtState) (p off : U32) : ExtState × U32 × List ExtCall :=
  match h with
  | .echo => (x, if off = 0 then x.headD 0 else 0, [])
  | .const => (x, p, [])
  | .shim n => Config.shimRead n x p off

/-- R73: an external handler's write: its new state and the calls it makes. -/
def extWriteFn (h : ExtHandler) (x : ExtState) (p off wv : U32) : ExtState × List ExtCall :=
  match h with
  | .echo => (if off = 0 then [wv] else x, [])
  | .const => (x, [])
  | .shim n => Config.shimWrite n x p off wv

/-- R73: the calls of an external handler, in order. -/
def extCalls : List ExtCall → State → Res
  | [], s => .ok s
  | .enable id :: l, s => extCalls l (enableId id s)
  | .trigger id delay :: l, s => do
    let t ← trigger id delay s
    extCalls l t
  | .fatalReport :: _, _ => .error (.raised .extHandler)

/-- Run on EXT entry `e`; an entry that is not one is refused (assumption 12). -/
def withExt (e : Nat) (f : ExtHandler → U32 → ExtState → State → Res) (s : State) : Res :=
  match s.cfg.registry[e]? with
  | some ⟨_, _, _, .ext h p⟩ =>
    match s.ext[e]? with
    | some x => f h p x s
    | none => .error (.outside .noSuchUnit)
  | _ => .error (.outside .noSuchUnit)

/-- R73: `EXT.READ`: the state is updated, then the calls are carried out, and the result is returned. -/
def extRead (e : Nat) (off : U32) : State → Res :=
  withExt e fun h p x s => do
    let t ← extCalls (extReadFn h x p off).2.2 (s.setExt e (extReadFn h x p off).1)
    return t.setReply (extReadFn h x p off).2.1

/-- R73: `EXT.WRITE`. -/
def extWrite (e : Nat) (off wv : U32) : State → Res :=
  withExt e fun h p x s => extCalls (extWriteFn h x p off wv).2 (s.setExt e (extWriteFn h x p off wv).1)

/-! ### The default handler (R77) and the mismatch (R59) -/

/-- R35, R39, R67: the checks of an access: the size, then the aperture. -/
def checkAccess (c : Config) (size : Nat) (addr : U32) : Option FaultCode :=
  if sizeOk size then
    if c.inAperture addr.toNat then none else some .outsideAperture
  else some .accessSize

/-- R77: `DEFAULT.READ` returns 0 whatever the backing store holds. Run on its own it makes no lookup, so it answers at an
address that an entry contains too, and it makes R67's checks itself (assumption 25). -/
def defaultRead (size : Nat) (addr : U32) (s : State) : Res :=
  match checkAccess s.cfg size addr with
  | some code => .error (.raised code)
  | none => .ok (s.setReply 0)

/-- R77: `DEFAULT.WRITE` stores the value's bytes in the backing store, at the original address and size. Run on its own
it makes no lookup, and R67's checks itself (assumption 25). -/
def defaultWrite (size : Nat) (addr value : U32) (s : State) : Res :=
  match checkAccess s.cfg size addr with
  | some code => .error (.raised code)
  | none => .ok (s.setBacking (s.storeBacking addr value size size s.backing))

/-- R59: a mismatched READ returns 0. Whether an access at this offset is a mismatch is `resolve`'s to say (R79), and is not
checked again (assumption 25). -/
def mismatchRead (e : Nat) (s : State) : Res :=
  if s.cfg.isCore e then .ok (s.setReply 0) else .error (.outside .noSuchUnit)

/-- R59: a mismatched WRITE changes nothing, at any offset (assumption 25). -/
def mismatchWrite (e : Nat) (s : State) : Res :=
  if s.cfg.isCore e then .ok s else .error (.outside .noSuchUnit)

/-! ### The access path (R67, R78, R79) -/

/-- R78, R79: run the operation an access selects. Only the REGISTER rows are selected; the commands and the internal
operations are not (R60, R66). -/
def runOp : Instr → State → Res
  | .intcAck => intcAck
  | .intcEnable wv => intcEnable wv
  | .ctCtrlR k => ctCtrlR k
  | .ctCtrlW k wv => ctCtrlW k wv
  | .ctReloadR k => ctReloadR k
  | .ctReloadW k wv => ctReloadW k wv
  | .ctValueR k => ctValueR k
  | .clkValueR d => clkValueR d
  | .ocCompareR d k => ocCompareR d k
  | .ocArm d k wv => ocArm d k wv
  | .ocStatusR d k => ocStatusR d k
  | .ocClear d k wv => ocClear d k wv
  | .sdmaRreg c f => sdmaRreg c f
  | .sdmaWreg c f wv => sdmaWreg c f wv
  | .sdmaStart c wv => sdmaStart c wv
  | .pdmaRreg c r => pdmaRreg c r
  | .pdmaWreg c f wv => pdmaWreg c f wv
  | .pdmaStart c wv => pdmaStart c wv
  | .extRead e off => extRead e off
  | .extWrite e off wv => extWrite e off wv
  | .defaultRead size addr => defaultRead size addr
  | .defaultWrite size addr value => defaultWrite size addr value
  | .mismatchRead e _ => mismatchRead e
  | .mismatchWrite e _ _ => mismatchWrite e
  | .readB _ | .readH _ | .readW _ | .writeB _ _ | .writeH _ _ | .writeW _ _ | .tick | .illegal _
  | .register _ | .activate _ | .trigger _ _ | .period | .serviceTick | .clockStep | .start _ | .stop _
  | .countdownStep | .setCompare _ _ _ | .ocCheck | .ocRaise | .sdmaCopy _ _ _ | .pdmaStep | .rearm =>
    fun _ => .error (.outside .noSuchUnit)

/-- R40, R67: a READ returns the low `size` bytes of the handler's result. -/
def State.truncReply (s : State) (size : Nat) : State := { s with reply := s.reply.map (truncBytes size) }

/-- R67: the access path of a READ or WRITE of `size` bytes. -/
def access (mode : Mode) (size : Nat) (addr value : U32) (s : State) : Res :=
  match checkAccess s.cfg size addr with
  | some code => .error (.raised code)
  | none => do
    let t ← runOp (resolve s.cfg mode size addr value) s
    return t.truncReply size

/-! ### Meanings -/

/-- R70. -/
def execReadB (addr : U32) (s : State) : Host.Outcome State Fault Refusal := perform (access .read 1 addr 0) s

/-- R71. -/
def execReadH (addr : U32) (s : State) : Host.Outcome State Fault Refusal := perform (access .read 2 addr 0) s

/-- R72. -/
def execReadW (addr : U32) (s : State) : Host.Outcome State Fault Refusal := perform (access .read 4 addr 0) s

/-- R74. -/
def execWriteB (addr value : U32) (s : State) : Host.Outcome State Fault Refusal :=
  perform (access .write 1 addr value) s

/-- R75. -/
def execWriteH (addr value : U32) (s : State) : Host.Outcome State Fault Refusal :=
  perform (access .write 2 addr value) s

/-- R76. -/
def execWriteW (addr value : U32) (s : State) : Host.Outcome State Fault Refusal :=
  perform (access .write 4 addr value) s

/-- R54: a word that is no command stops the block with the code of the first check that applies. -/
def execIllegal (w : BusWord) (s : State) : Host.Outcome State Fault Refusal :=
  perform (fun _ =>
    match illegalReason w with
    | some code => .error (.raised code)
    | none => .error (.outside .noSuchUnit)) s

/-- R73. -/
def execExtRead (e : Nat) (off : U32) (s : State) : Host.Outcome State Fault Refusal := perform (extRead e off) s

/-- R73. -/
def execExtWrite (e : Nat) (off wv : U32) (s : State) : Host.Outcome State Fault Refusal :=
  perform (extWrite e off wv) s

/-- R77. -/
def execDefaultRead (size : Nat) (addr : U32) (s : State) : Host.Outcome State Fault Refusal :=
  perform (defaultRead size addr) s

/-- R77. -/
def execDefaultWrite (size : Nat) (addr value : U32) (s : State) : Host.Outcome State Fault Refusal :=
  perform (defaultWrite size addr value) s

/-- R59; the offset is not looked at (assumption 25). -/
def execMismatchRead (e : Nat) (_off : U32) (s : State) : Host.Outcome State Fault Refusal :=
  perform (mismatchRead e) s

/-- R59; the offset is not looked at (assumption 25). -/
def execMismatchWrite (e : Nat) (_off _wv : U32) (s : State) : Host.Outcome State Fault Refusal :=
  perform (mismatchWrite e) s

end Sys2Proof.Machine
end

