-- ==== Sys2Proof/Machine/Setup.lean ====
section
/-! DEFINITION. Setup (70_reset R172): the registry's `register` operation (40_dispatch R69) and the state a
configuration starts a run in. -/

namespace Sys2Proof.Machine

/-- R69: `register(range, handler, parameter)` appends an entry; a bad one stops setup, and the machine's registry is
fixed once a step has been taken (assumption 13). -/
def register (e : Entry) (s : State) : Res :=
  if s.started then .error (.outside .registryFixed)
  else if s.cfg.entryOk e then .ok (s.addEntry e)
  else .error (.raised .setup)

/-- R69, at the op level. -/
def execRegister (e : Entry) (s : State) : Host.Outcome State Fault Refusal := perform (register e) s

/-- R172: the state a run begins in: the reset state, with Fatal(SETUP) where the configuration is not well-formed. -/
def setup (c : Config) : State :=
  if c.wellFormed then State.resetOf c else takeFault .setup (State.resetOf c)

/-- R172 step 2: a registry built by `register` calls in order. -/
def registerAll : List Entry → State → Res
  | [], s => .ok s
  | e :: es, s => do
    let t ← register e s
    registerAll es t

end Sys2Proof.Machine
end

