-- ==== Sys2Proof/Machine/Tick.lean ====
section
/-! DEFINITION. The Tick Driver (44_tick_driver). -/

namespace Sys2Proof.Machine

/-- R142: `rearm()` changes no state of the block; it is the host's promise of further ticks. -/
def rearm (s : State) : State := s

/-- R141: the tick's steps that cannot fault, in their order: service, clocks, countdown, output-compare match. -/
def tickEngines (s : State) : State := ocCheck (countdownStep (clockStep (serviceTick s)))

/-- R141: `on_tick()`. -/
def onTick (s : State) : Res := do
  let t ← ocRaise (tickEngines s)
  let u ← pdmaStep t
  return rearm u.countTick

/-- R141. -/
def execTick (s : State) : Host.Outcome State Fault Refusal := perform onTick s

/-- R142, at the op level. -/
def execRearm (s : State) : Host.Outcome State Fault Refusal := perform (fun s => .ok (rearm s)) s

end Sys2Proof.Machine
end

