-- ==== Sys2Proof/Machine/Dispatch.lean ====
section
/-! DEFINITION. The meaning of each instruction: one arm for each constructor. -/

namespace Sys2Proof.Machine

def exec (i : Instr) (s : State) : Host.Outcome State Fault Refusal :=
  match i with
  | .readB addr => Sys2Proof.Machine.execReadB addr s
  | .readH addr => Sys2Proof.Machine.execReadH addr s
  | .readW addr => Sys2Proof.Machine.execReadW addr s
  | .writeB addr value => Sys2Proof.Machine.execWriteB addr value s
  | .writeH addr value => Sys2Proof.Machine.execWriteH addr value s
  | .writeW addr value => Sys2Proof.Machine.execWriteW addr value s
  | .tick => Sys2Proof.Machine.execTick s
  | .illegal w => Sys2Proof.Machine.execIllegal w s
  | .intcAck => Sys2Proof.Machine.execIntcAck s
  | .intcEnable wv => Sys2Proof.Machine.execIntcEnable wv s
  | .ctCtrlR k => Sys2Proof.Machine.execCtCtrlR k s
  | .ctCtrlW k wv => Sys2Proof.Machine.execCtCtrlW k wv s
  | .ctReloadR k => Sys2Proof.Machine.execCtReloadR k s
  | .ctReloadW k wv => Sys2Proof.Machine.execCtReloadW k wv s
  | .ctValueR k => Sys2Proof.Machine.execCtValueR k s
  | .clkValueR d => Sys2Proof.Machine.execClkValueR d s
  | .ocCompareR d k => Sys2Proof.Machine.execOcCompareR d k s
  | .ocArm d k wv => Sys2Proof.Machine.execOcArm d k wv s
  | .ocStatusR d k => Sys2Proof.Machine.execOcStatusR d k s
  | .ocClear d k wv => Sys2Proof.Machine.execOcClear d k wv s
  | .sdmaRreg c f => Sys2Proof.Machine.execSdmaRreg c f s
  | .sdmaWreg c f wv => Sys2Proof.Machine.execSdmaWreg c f wv s
  | .sdmaStart c wv => Sys2Proof.Machine.execSdmaStart c wv s
  | .pdmaRreg c r => Sys2Proof.Machine.execPdmaRreg c r s
  | .pdmaWreg c f wv => Sys2Proof.Machine.execPdmaWreg c f wv s
  | .pdmaStart c wv => Sys2Proof.Machine.execPdmaStart c wv s
  | .extRead e off => Sys2Proof.Machine.execExtRead e off s
  | .extWrite e off wv => Sys2Proof.Machine.execExtWrite e off wv s
  | .defaultRead size addr => Sys2Proof.Machine.execDefaultRead size addr s
  | .defaultWrite size addr value => Sys2Proof.Machine.execDefaultWrite size addr value s
  | .mismatchRead e off => Sys2Proof.Machine.execMismatchRead e off s
  | .mismatchWrite e off wv => Sys2Proof.Machine.execMismatchWrite e off wv s
  | .register entry => Sys2Proof.Machine.execRegister entry s
  | .activate id => Sys2Proof.Machine.execActivate id s
  | .trigger id delay => Sys2Proof.Machine.execTrigger id delay s
  | .period => Sys2Proof.Machine.execPeriod s
  | .serviceTick => Sys2Proof.Machine.execServiceTick s
  | .clockStep => Sys2Proof.Machine.execClockStep s
  | .start k => Sys2Proof.Machine.execStart k s
  | .stop k => Sys2Proof.Machine.execStop k s
  | .countdownStep => Sys2Proof.Machine.execCountdownStep s
  | .setCompare d k v => Sys2Proof.Machine.execSetCompare d k v s
  | .ocCheck => Sys2Proof.Machine.execOcCheck s
  | .ocRaise => Sys2Proof.Machine.execOcRaise s
  | .sdmaCopy src dst n => Sys2Proof.Machine.execSdmaCopy src dst n s
  | .pdmaStep => Sys2Proof.Machine.execPdmaStep s
  | .rearm => Sys2Proof.Machine.execRearm s

end Sys2Proof.Machine
end

