-- ==== Sys2Proof/Machine/Step.lean ====
section
/-! DEFINITION. One step: the next command word presented is decoded and run (30_encoding R54, 44_tick_driver R143). -/

namespace Sys2Proof.Machine

/-- The state with its first command word taken (assumption 2) and the machine marked as started (assumption 13). -/
def State.fetched (s : State) (rest : List BusWord) : State := { s with inbox := rest, started := true }

/-- R9, R22, R143: one step. A state with `fault` set has none, and neither has one to which nothing is presented. The CPU
collaborator's own stores to RAM are no steps, and no run of `step` holds one (assumption 22). -/
def step (s : State) : Host.Outcome State Fault Refusal :=
  match s.fault with
  | some (kind, code) => halted kind code
  | none =>
    match s.inbox with
    | [] => .fault .noCommand
    | w :: rest => exec (decode w) (s.fetched rest)

/-- The state with a word presented next. -/
def State.withFetchWord (s : State) (_nbits w : Nat) : State := { s with inbox := BitVec.ofNat 72 w :: s.inbox }

end Sys2Proof.Machine
end

