-- ==== Sys2Proof/Safety.lean ====
section
/-! DEFINITION. The terms the claims use: the invariant of every run (10_state R31 with the shapes of R11 to R20, the
canonical form of the memories, and what START checked of a busy polled channel, 43_dma R132, R137). -/

namespace Sys2Proof.Machine

/-- R16, R31 item 3: a clock is below 2^width and a multiple of its step. -/
structure ClockOk (c : Config) (d : Domain) (v : U32) : Prop where
  below : v.toNat < 2 ^ c.width.get d
  aligned : v.toNat % (c.clkStep.get d).toNat = 0

/-- R31 item 4 for a busy channel (assumption 11), R132, R137. -/
structure PolledOk (c : Config) (p : PolledDma) : Prop where
  aligned : p.transferred.toNat % 4 = 0
  bounded : p.busy = true → p.transferred.toNat ≤ p.count.toNat
  wordCount : p.busy = true → p.count.toNat % 4 = 0
  region : p.busy = true → p.regionOk c p.dir = true

/-- The invariant of every run. -/
structure State.Inv (s : State) : Prop where
  cfgOk : s.cfg.wellFormed = true
  enabledLength : s.enabled.length = s.cfg.nIrq
  scheduledLength : s.scheduled.length = s.cfg.nIrq
  activeRange : s.activeId < s.cfg.nIrq
  line : s.irqLine = decide (s.activeId ≠ 0)
  ctLength : s.ct.length = s.cfg.nCt
  clockOk : ∀ d, ClockOk s.cfg d (s.clk.get d)
  ocLength : ∀ d, (s.oc.get d).length = s.cfg.nOc d
  compareOk : ∀ d, ∀ o ∈ s.oc.get d, o.compare.toNat < 2 ^ s.cfg.width.get d
  sdmaLength : s.sdma.length = s.cfg.nSdma
  pdmaLength : s.pdma.length = s.cfg.nPdma
  polledOk : ∀ p ∈ s.pdma, PolledOk s.cfg p
  extLength : s.ext.length = s.cfg.registry.length
  ramWf : Memory.wf s.ram = true
  ramBelow : Memory.below s.cfg.ramSize.toNat s.ram = true
  romWf : Memory.wf s.rom = true
  romBelow : Memory.below s.cfg.romSize.toNat s.rom = true
  backingWf : Memory.wf s.backing = true
  backingBelow : Memory.below s.cfg.mmioSize.toNat s.backing = true

end Sys2Proof.Machine
end

