-- ==== Sys2Proof/Certificates/Slice0/Obligations.lean ====
section
/-! DEFINITION. The statements. The helper terms of `Sys2Proof.Claims` say a rule's value in the rule's own words, apart
from the definitions the machine runs. -/

namespace Sys2Proof.Claims

open Sys2Proof.Machine

/-- R152: the state before the step, with the fault recorded and nothing returned. That `devOut` is emptied too is the
model's choice (assumption 3). -/
def faulted (kind : FaultKind) (code : FaultCode) (s : State) : State :=
  { s with fault := some (kind, code), reply := none, devOut := [] }

/-- The ten codes with the kinds R152's table gives them. -/
def kindOf : FaultCode → FaultKind
  | .setup | .triggerIdZero | .triggerIdRange | .pdmaBusy | .extHandler => .fatal
  | .accessSize | .dmaRegion | .pdmaAlign | .outsideAperture | .badCommand => .refused

/-- A step that returns nothing and sends nothing to the backend. -/
def silent (s : State) : State := { s with reply := none, devOut := [] }

/-- A step that returns `v`. -/
def answering (v : U32) (s : State) : State := { s with reply := some v, devOut := [] }

/-- R91: the period, from the system slot's reload value. -/
def period (s : State) : U32 :=
  BitVec.ofNat 32 (((s.ct[s.cfg.sysTimerSlot]?.map fun t => t.reload.toNat).getD 0) / 2 ^ s.cfg.periodShift)

/-- R88: what activating `id` leaves. -/
def afterActivate (id : Nat) (s : State) : State :=
  { s with
    activeId := id
    enabled := s.enabled.set id false
    scheduled := s.scheduled.set id (if id = s.cfg.periodicIrq then period s else 0)
    irqLine := true }

/-- R89: what `trigger(id, delay)` leaves, for a legal id. -/
def afterTrigger (id : Nat) (delay : U32) (s : State) : State :=
  if delay = 0 ∧ s.enabled.getD id false = true ∧ s.activeId = 0 then afterActivate id s
  else if s.enabled.getD id false = true then
    { s with scheduled := s.scheduled.set id (BitVec.ofNat 32 (max delay.toNat 1)) }
  else { s with scheduled := s.scheduled.set id 1 }

/-- R73: what the calls an external handler returns leave, or the fault of the first that fails. -/
def afterCalls : List ExtCall → State → Except FaultCode State
  | [], s => .ok s
  | .enable id :: l, s =>
    afterCalls l (if 1 ≤ id ∧ id < s.cfg.nIrq then { s with enabled := s.enabled.set id true } else s)
  | .trigger id delay :: l, s =>
    if id = 0 then .error .triggerIdZero
    else if s.cfg.nIrq ≤ id then .error .triggerIdRange
    else afterCalls l (afterTrigger id delay s)
  | .fatalReport :: _, _ => .error .extHandler

/-- R89: what triggering the ids of a list with delay 0, one after another, leaves. -/
def raisedAll (ids : List Nat) (s : State) : State := ids.foldl (fun u id => afterTrigger id 0 u) s

/-- R92: the count of an id that is not activated, after one service. -/
def counted (v : U32) : U32 := if v.toNat ≤ 1 then v else BitVec.ofNat 32 (v.toNat - 1)

/-- R92: the id is pending, enabled and has state. -/
def Ready (s : State) (id : Nat) : Prop :=
  1 ≤ id ∧ id < s.cfg.nIrq ∧ s.scheduled.getD id 0 = 1 ∧ s.enabled.getD id false = true

/-- R36: every byte of `[a, a+n)` is RAM or ROM, and none is past 2^32 - 1. -/
def CanRead (c : Config) (a n : Nat) : Prop :=
  n = 0 ∨ (a + n ≤ 2 ^ 32 ∧ ∀ x, a ≤ x → x < a + n →
    (c.ramBase.toNat ≤ x ∧ x < c.ramBase.toNat + c.ramSize.toNat) ∨
    (c.romBase.toNat ≤ x ∧ x ≤ c.romLimit.toNat ∧ c.romSize.toNat ≠ 0))

/-- R37: every byte of `[a, a+n)` is RAM, and none is past 2^32 - 1. -/
def CanWrite (c : Config) (a n : Nat) : Prop :=
  n = 0 ∨ (a + n ≤ 2 ^ 32 ∧ ∀ x, a ≤ x → x < a + n →
    c.ramBase.toNat ≤ x ∧ x < c.ramBase.toNat + c.ramSize.toNat)

/-- R35: the address lies in the aperture. -/
def InAperture (c : Config) (addr : U32) : Prop :=
  c.mmioBase.toNat ≤ addr.toNat ∧ addr.toNat < c.mmioBase.toNat + c.mmioSize.toNat

/-- R116: some slot of family `d` that raises `id` matches its clock. -/
def Fires (s : State) (d : Domain) (id : Nat) : Prop :=
  ∃ (k : Nat) (o : OutputCompare), (s.cfg.ocIrq.get d)[k]? = some id ∧ (s.oc.get d)[k]? = some o ∧
    o.active = true ∧ o.compare = s.clk.get d

/-- R118: the ids of the matching slots of family `d`, each once, in the order of its first such slot. -/
def firingOnce (s : State) (d : Domain) : List Nat :=
  (((s.cfg.ocIrq.get d).zip (s.oc.get d)).filterMap fun x =>
    if x.2.active = true ∧ x.2.compare = s.clk.get d then some x.1 else none).eraseDups

/-- R113: the requested compare value rounded up to a multiple of the step, in unbounded integers, then reduced. -/
def rounded (s : State) (d : Domain) (v : U32) : Int :=
  ((v.toNat + (s.cfg.clkStep.get d).toNat - 1 : Int) / (s.cfg.clkStep.get d).toNat * (s.cfg.clkStep.get d).toNat) %
    (2 ^ s.cfg.width.get d : Int)

/-- R113: the signed distance from the clock to the rounded target. -/
def armDelta (s : State) (d : Domain) (v : U32) : Int :=
  let u := (rounded s d v - (s.clk.get d).toNat) % (2 ^ s.cfg.width.get d : Int)
  if u < (2 ^ (s.cfg.width.get d - 1) : Int) then u else u - (2 ^ s.cfg.width.get d : Int)

/-- R100: a domain's clock after one tick. -/
def advanced (s : State) (d : Domain) : U32 :=
  BitVec.ofNat 32 (((s.clk.get d).toNat + (s.cfg.clkStep.get d).toNat) % 2 ^ s.cfg.width.get d)

/-- R110: a countdown slot after one tick. -/
def ticked (step : U32) (t : Countdown) : Countdown :=
  if t.enabled = true then
    { t with
      current :=
        if (t.current.toNat + step.toNat) % 2 ^ 32 > t.reload.toNat then 0
        else BitVec.ofNat 32 ((t.current.toNat + step.toNat) % 2 ^ 32) }
  else t

/-- R52: the direction, size, address and value of a READ or WRITE command. -/
def busAccess : Instr → Option (Mode × Nat × U32 × U32)
  | .readB a => some (.read, 1, a, 0)
  | .readH a => some (.read, 2, a, 0)
  | .readW a => some (.read, 4, a, 0)
  | .writeB a v => some (.write, 1, a, v)
  | .writeH a v => some (.write, 2, a, v)
  | .writeW a v => some (.write, 4, a, v)
  | _ => none

/-- R40, R67: a READ of `n` bytes returns the low bytes of the handler's result. -/
def truncated (n : Nat) : Host.Outcome State Fault Refusal → Host.Outcome State Fault Refusal
  | .next t => .next { t with reply := t.reply.map fun r => BitVec.ofNat 32 (r.toNat % 2 ^ (8 * n)) }
  | .fault r => .fault r
  | .refused r => .refused r

/-- The command is a bus access that the registry resolves to the operation `op`. -/
def Selects (c : Config) (i op : Instr) : Prop :=
  ∃ mode size addr value, busAccess i = some (mode, size, addr, value) ∧ resolve c mode size addr value = op

/-- The operation is no EXT access through a shim, whose behaviour is a parameter (R73). -/
def NoShim (c : Config) (op : Instr) : Prop :=
  ∀ e ent n p, c.registry[e]? = some ent → ent.handler = .ext (.shim n) p →
    ∀ off wv, op ≠ .extRead e off ∧ op ≠ .extWrite e off wv

/-- The reads of a core register (R25 to R29). -/
def isCoreRead : Instr → Bool
  | .intcAck | .ctCtrlR _ | .ctReloadR _ | .ctValueR _ | .clkValueR _ | .ocCompareR _ _ | .ocStatusR _ _
  | .sdmaRreg _ _ | .pdmaRreg _ _ => true
  | _ => false

/-- `n` executions of `i`, each from the state the one before it left. -/
def times (i : Instr) : Nat → State → Host.Outcome State Fault Refusal
  | 0, s => .next s
  | n + 1, s =>
    match times i n s with
    | .next t => exec i t
    | .fault r => .fault r
    | .refused r => .refused r

/-- R31 item 4, for every channel. -/
def WithinCount (s : State) : Prop := ∀ p ∈ s.pdma, p.transferred.toNat ≤ p.count.toNat

/-- R134: how many bytes the channel's next chunk holds. -/
def nextChunk (c : Config) (p : PolledDma) : Nat := min c.pdmaChunk (p.count.toNat - p.transferred.toNat)

/-- R134: the address lies where a busy IN channel's next chunk would land. -/
def InNextChunk (c : Config) (p : PolledDma) (x : Nat) : Prop :=
  p.busy = true ∧ p.dir = .inward ∧ p.dst.toNat + p.transferred.toNat ≤ x ∧
    x < p.dst.toNat + p.transferred.toNat + nextChunk c p

/-- R134 part 2: the wait after one step. -/
def waitAfter (p : PolledDma) : BitVec 32 := BitVec.ofInt 32 (max (p.wait.toInt - 1) (-2 ^ 31))

/-- R134, R137: what one polled step may make of a channel `p`. An idle one is unchanged. A busy one keeps its
registers, moves nothing or one chunk, counts its wait down to no less than -2^31, and stays busy until all has moved
and the wait has run out. -/
def ServedTo (c : Config) (p q : PolledDma) : Prop :=
  (p.busy = false → q = p) ∧
  (p.busy = true →
    (q.transferred = p.transferred ∨ q.transferred.toNat = p.transferred.toNat + nextChunk c p) ∧
    q = { p with
      transferred := q.transferred
      wait := waitAfter p
      busy := !(decide (q.transferred = p.count) && decide ((waitAfter p).toInt ≤ 0)) })

/-- R134 part 3: the ids a completion raises, the DMA id first, the driver id when there is one. -/
def completionIds (irq : PdmaIrq) : List Nat := if irq.drv = 0 then [irq.dma] else [irq.dma, irq.drv]

/-- R134: the ids of the channels that are busy in `s` and idle in `t`, in ascending channel order. -/
def completedIds (s t : State) : List Nat :=
  ((s.pdma.zip t.pdma).zip s.cfg.pdmaIrq).flatMap fun x =>
    if x.1.1.busy = true ∧ x.1.2.busy = false then completionIds x.2 else []

/-- R135: the answer the backend gives to the call `n` calls after the next (assumption 5). -/
def drawAt (s : State) (n : Nat) : Draw := (s.draws[n]?).getD (Config.backendDraw (s.drawsTaken + n))

/-- Channel `c` is `p` and busy, and no other polled channel is. -/
def LoneBusy (s : State) (c : Nat) (p : PolledDma) : Prop :=
  s.pdma[c]? = some p ∧ p.busy = true ∧ ∀ j q, j ≠ c → s.pdma[j]? = some q → q.busy = false

/-- No polled channel is busy. -/
def Idle (s : State) : Prop := ∀ p ∈ s.pdma, p.busy = false

/-- The state's draws are enough for one tick of every channel, and none reports an impossible backend. -/
def DrawsServe (s : State) : Prop := 2 * s.cfg.nPdma ≤ s.draws.length ∧ ∀ d ∈ s.draws, d.impossible = false

end Sys2Proof.Claims

open Sys2Proof Sys2Proof.Machine Sys2Proof.Claims

/-! ### Encoding -/

/-- Decoding the word of a well-formed command gives the command back (30_encoding R53). -/
def Obligations.CommandWordRoundTrip : Prop :=
  ∀ (c : Config) (i : Instr) (w : BusWord), i.wellFormed c = true → encode i = some w → decode w = i

/-- Every 72-bit word decodes to one well-formed command or to ILLEGAL, whose word it is (30_encoding R54, R66). -/
def Obligations.EveryWordIsOneCommand : Prop :=
  ∀ (c : Config) (w : BusWord), (decode w).wellFormed c = true ∧ encode (decode w) = some w

/-- The header bytes of R53 name the seven commands, with the address in bits [63:32] and the value in [31:0]; then a
few words of 95_test_vectors 2.1. -/
def Obligations.HeaderTable : Prop :=
  (∀ a v : U32,
    decode (BitVec.ofNat 72 (0x00 * 2 ^ 64 + a.toNat * 2 ^ 32)) = .readB a ∧
    decode (BitVec.ofNat 72 (0x04 * 2 ^ 64 + a.toNat * 2 ^ 32)) = .readH a ∧
    decode (BitVec.ofNat 72 (0x08 * 2 ^ 64 + a.toNat * 2 ^ 32)) = .readW a ∧
    decode (BitVec.ofNat 72 (0x01 * 2 ^ 64 + a.toNat * 2 ^ 32 + v.toNat)) = .writeB a v ∧
    decode (BitVec.ofNat 72 (0x05 * 2 ^ 64 + a.toNat * 2 ^ 32 + v.toNat)) = .writeH a v ∧
    decode (BitVec.ofNat 72 (0x09 * 2 ^ 64 + a.toNat * 2 ^ 32 + v.toNat)) = .writeW a v) ∧
  decode 0x020000000000000000 = .tick ∧
  decode 0x08C020100000000000 = .readW 0xC0201000 ∧
  decode 0x09C021000400000A00 = .writeW 0xC0210004 0xA00 ∧
  decode 0x00C080000200000000 = .readB 0xC0800002 ∧
  decode 0x05C08000020000CAFE = .writeH 0xC0800002 0xCAFE

/-- R54: the checks of a word in their order; the first that applies decides the refusal, and a word to which none
applies is a command. -/
def Obligations.IllegalWordStopsWithItsCode : Prop :=
  ∀ (s : State) (w : BusWord), s.fault = none →
    let rsv := w.toNat / 2 ^ 68
    let sz := w.toNat / 2 ^ 66 % 4
    let k := w.toNat / 2 ^ 64 % 4
    let addr := w.toNat / 2 ^ 32 % 2 ^ 32
    let value := w.toNat % 2 ^ 32
    if rsv ≠ 0 ∨ k = 3 then
      decode w = .illegal w ∧ exec (.illegal w) s = .next (faulted .refused .badCommand s)
    else if k = 2 ∧ (sz ≠ 0 ∨ addr ≠ 0 ∨ value ≠ 0) then
      decode w = .illegal w ∧ exec (.illegal w) s = .next (faulted .refused .badCommand s)
    else if (k = 0 ∨ k = 1) ∧ sz = 3 then
      decode w = .illegal w ∧ exec (.illegal w) s = .next (faulted .refused .accessSize s)
    else if k = 0 ∧ value ≠ 0 then
      decode w = .illegal w ∧ exec (.illegal w) s = .next (faulted .refused .badCommand s)
    else ∀ u, decode w ≠ .illegal u

/-! ### The step, its faults and the run -/

/-- A step runs the command at the head of the inbox on the state with that word taken and the machine marked as
started. The inbox and the mark are the model's choice (assumptions 2 and 13). -/
def Obligations.StepRunsTheDecodedCommand : Prop :=
  ∀ (s : State) (c : Config) (i : Instr) (w : BusWord) (rest : List BusWord),
    s.fault = none → s.inbox = w :: rest → i.wellFormed c = true → encode i = some w →
      step s = exec i { s with inbox := rest, started := true }

/-- R22: a state whose fault is set has no further step, and no operation runs in it; nor is there a step where no
command is presented (R9). The stop outcomes are the model's choice (assumptions 2 and 6). -/
def Obligations.FaultedStateHasNoStep : Prop :=
  (∀ (s : State) (kind : FaultKind) (code : FaultCode), s.fault = some (kind, code) →
    ∀ i : Instr,
      (kind = .fatal → step s = .fault (.stopped code) ∧ exec i s = .fault (.stopped code)) ∧
      (kind = .refused → step s = .refused (.stopped code) ∧ exec i s = .refused (.stopped code))) ∧
  ∀ s : State, s.fault = none → s.inbox = [] → step s = .fault .noCommand

/-- R152: whatever the instruction, a step that faults leaves the state before it with the fault recorded under the
kind of its code, and returns nothing. That `devOut` is empty after the fault, whatever had been sent, is the model's
choice (assumption 3). -/
def Obligations.FaultDiscardsTheStep : Prop :=
  ∀ (i : Instr) (s t : State), s.fault = none → exec i s = .next t → t.fault ≠ none →
    ∃ code, t = faulted (kindOf code) code s

/-- R171's table, for every configuration, with the private state D42 gives ECHO and CONST; the reference configuration
is the model's choice for reset (assumption 1), and so is a private state's coding as a list of words (assumption 4). -/
def Obligations.ResetLeavesTheTable : Prop :=
  State.reset = State.resetOf Config.reference ∧
  ∀ c : Config,
    (∀ id, (State.resetOf c).enabled.getD id false = false) ∧
    (∀ id, (State.resetOf c).scheduled.getD id 0 = 0) ∧
    (State.resetOf c).activeId = 0 ∧ (State.resetOf c).irqLine = false ∧
    (State.resetOf c).ct.length = c.nCt ∧ (∀ t ∈ (State.resetOf c).ct, t = ⟨false, 0, 0⟩) ∧
    (∀ d, (State.resetOf c).clk.get d = 0) ∧
    (∀ d, ((State.resetOf c).oc.get d).length = c.nOc d) ∧
    (∀ d, ∀ o ∈ (State.resetOf c).oc.get d, o = ⟨false, 0, false⟩) ∧
    (State.resetOf c).sdma.length = c.nSdma ∧ (∀ x ∈ (State.resetOf c).sdma, x = ⟨0, 0, 0⟩) ∧
    (State.resetOf c).pdma.length = c.nPdma ∧
    (∀ p ∈ (State.resetOf c).pdma, p = ⟨0, 0, 0, .inward, false, 0, 0⟩) ∧
    (∀ im, c.initRam = some im → (State.resetOf c).ram = im.bytes) ∧
    (∀ im, c.initRom = some im → (State.resetOf c).rom = im.bytes) ∧
    (∀ a, Memory.get (State.resetOf c).backing a = 0) ∧
    (State.resetOf c).ext = c.registry.map (fun e => initialExt e.handler) ∧
    (∀ (e : Nat) (ent : Entry) (p : U32), c.registry[e]? = some ent →
      (ent.handler = .ext .echo p → (State.resetOf c).ext[e]? = some [0]) ∧
      (ent.handler = .ext .const p → (State.resetOf c).ext[e]? = some [])) ∧
    (State.resetOf c).fault = none ∧ (State.resetOf c).ticks = 0 ∧ (State.resetOf c).cfg = c

/-- R172: a well-formed configuration starts in its reset state, which registering its entries in order builds; any
other starts with Fatal(SETUP). -/
def Obligations.SetupOutcome : Prop :=
  ∀ c : Config,
    (c.wellFormed = true → setup c = State.resetOf c ∧
      registerAll c.registry (State.resetOf { c with registry := [] }) = .ok (State.resetOf c)) ∧
    (c.wellFormed = false → setup c = { State.resetOf c with fault := some (.fatal, .setup) })

/-- R69: `register` appends the entry, stops setup on a bad one, and is unavailable once a step was taken (the last
outcome, and that only `step` counts as one, is the model's choice, assumption 13). -/
def Obligations.RegisterAppendsAnEntry : Prop :=
  ∀ (s : State) (e : Entry), s.fault = none →
    (s.started = true → exec (.register e) s = .refused .registryFixed) ∧
    (s.started = false → e.start ≤ e.last → e.start.toNat % 4 = 0 → s.cfg.paramLegal e.handler = true →
      exec (.register e) s = .next (silent { s with
        cfg := { s.cfg with registry := s.cfg.registry ++ [e] }
        ext := s.ext ++ [initialExt e.handler] })) ∧
    (s.started = false →
      (e.last < e.start ∨ e.start.toNat % 4 ≠ 0 ∨ s.cfg.paramLegal e.handler = false) →
      exec (.register e) s = .next (faulted .fatal .setup s))

/-! ### Invariants of every step -/

/-- The reset state of every well-formed configuration meets the invariant of R31, item 4 included. -/
def Obligations.ResetMeetsTheRunInvariant : Prop :=
  (State.reset.Inv ∧ WithinCount State.reset) ∧
  ∀ c : Config, c.wellFormed = true → (State.resetOf c).Inv ∧ WithinCount (State.resetOf c)

/-- Every step keeps the invariant of 10_state R31: the shapes, the line, the clocks, the polled channels and the
canonical memories, with item 4 for busy channels. Item 4 for every channel is kept as well, but for the one step that
43_dma R131 lets break it: a write of COUNT to an idle channel with a value below its `transferred` (assumption 11). -/
def Obligations.StepKeepsTheRunInvariant : Prop :=
  ∀ s t : State, s.Inv → step s = .next t →
    t.Inv ∧
    (WithinCount s → WithinCount t ∨
      ∃ w rest c wv p, s.inbox = w :: rest ∧ Selects s.cfg (decode w) (.pdmaWreg c .count wv) ∧
        s.pdma[c]? = some p ∧ p.busy = false ∧ wv.toNat < p.transferred.toNat)

/-- R5, R82: no step changes the configuration, the registry in it included. -/
def Obligations.StepKeepsTheConfiguration : Prop :=
  ∀ s t : State, step s = .next t → t.cfg = s.cfg

/-- R95, R163: while an interrupt is active, only a read of REASON changes the active id, and it resets it. -/
def Obligations.OnlyAReasonReadEndsAnInterrupt : Prop :=
  ∀ (s t : State) (w : BusWord) (rest : List BusWord), s.inbox = w :: rest → step s = .next t →
    s.activeId ≠ 0 → t.activeId ≠ s.activeId → t.activeId = 0 ∧ Selects s.cfg (decode w) .intcAck

/-- R11: an enable bit is cleared only by the activation of its id, which needs that nothing was active. -/
def Obligations.OnlyActivationClearsAnEnable : Prop :=
  ∀ (s t : State) (id : Nat), step s = .next t → s.isEnabled id = true → t.isEnabled id = false →
    s.activeId = 0 ∧ t.activeId = id

/-- R117, R121: a set `triggered` flag is cleared only by a STATUS write to its slot. -/
def Obligations.OnlyAStatusWriteClearsTriggered : Prop :=
  ∀ (s t : State) (w : BusWord) (rest : List BusWord), s.inbox = w :: rest → step s = .next t →
    ∀ (d : Domain) (k : Nat) (o : OutputCompare), (s.oc.get d)[k]? = some o → o.triggered = true →
      ∃ o', (t.oc.get d)[k]? = some o' ∧
        (o'.triggered = true ∨ ∃ wv, Selects s.cfg (decode w) (.ocClear d k wv))

/-- R16, R23: only a TICK advances the clocks and the tick count, and a TICK without a fault advances both. -/
def Obligations.OnlyATickMovesTheClocks : Prop :=
  ∀ (s t : State) (w : BusWord) (rest : List BusWord), s.inbox = w :: rest → step s = .next t →
    (decode w ≠ .tick → t.clk = s.clk ∧ t.ticks = s.ticks) ∧
    (decode w = .tick → t.fault = none →
      (∀ d, t.clk.get d = advanced s d) ∧ t.ticks = s.ticks + 1)

/-- R20, R37, R77: no step writes ROM; a step changes RAM only in a TICK or a synchronous START, and the backing store
only through the default handler. That no step is the CPU collaborator's own store is R9's; that a run of the model
holds none between its steps is the model's choice (assumption 22). -/
def Obligations.OnlyDmaWritesMemory : Prop :=
  ∀ (s t : State) (w : BusWord) (rest : List BusWord), s.inbox = w :: rest → step s = .next t →
    t.rom = s.rom ∧
    (t.ram = s.ram ∨ decode w = .tick ∨ ∃ c wv, Selects s.cfg (decode w) (.sdmaStart c wv)) ∧
    (t.backing = s.backing ∨ ∃ n a v, Selects s.cfg (decode w) (.defaultWrite n a v))

/-! ### Dispatch and the bus commands -/

/-- R68: lookup answers the first declared entry that contains the address, both bounds inclusive. -/
def Obligations.LookupIsFirstMatch : Prop :=
  ∀ (c : Config) (a : U32),
    (∀ i e, c.lookup a = some (i, e) ↔
      (c.registry[i]? = some e ∧ e.start ≤ a ∧ a ≤ e.last ∧
        ∀ j e', j < i → c.registry[j]? = some e' → ¬ (e'.start ≤ a ∧ a ≤ e'.last))) ∧
    (c.lookup a = none ↔ ∀ e ∈ c.registry, ¬ (e.start ≤ a ∧ a ≤ e.last))

/-- R57, R59: the operation each role and direction of a core entry selects, with the entry's parameter; a role with no
operation in a direction, and an unassigned offset, select the mismatch. -/
def Obligations.RolesSelectTheirOperations : Prop :=
  ∀ (c : Config) (i : Nat) (e : Entry) (n : Nat) (a v : U32),
    c.offs.wellFormed = true → c.lookup (normAddr a) = some (i, e) →
    let off := normAddr a - e.start
    let wv := BitVec.ofNat 32 (v.toNat % 2 ^ (8 * n))
    let o := c.offs
    let R := resolve c .read n a v
    let W := resolve c .write n a v
    (∀ p, e.handler = .intc p →
      (R = if off = o.intcReason then .intcAck else .mismatchRead i off) ∧
      (W = if off = o.intcEnable then .intcEnable wv else .mismatchWrite i off wv)) ∧
    (∀ k, e.handler = .ct k →
      (off = o.ctCtrl → R = .ctCtrlR k ∧ W = .ctCtrlW k wv) ∧
      (off = o.ctReload → R = .ctReloadR k ∧ W = .ctReloadW k wv) ∧
      (off = o.ctValue → R = .ctValueR k ∧ W = .mismatchWrite i off wv) ∧
      (off ∉ [o.ctCtrl, o.ctReload, o.ctValue] → R = .mismatchRead i off ∧ W = .mismatchWrite i off wv)) ∧
    (∀ d, e.handler = .clk d →
      (R = if off = o.clkValue then .clkValueR d else .mismatchRead i off) ∧ W = .mismatchWrite i off wv) ∧
    (∀ d k, e.handler = .oc d k →
      (off = o.ocCompare → R = .ocCompareR d k ∧ W = .ocArm d k wv) ∧
      (off = o.ocStatus → R = .ocStatusR d k ∧ W = .ocClear d k wv) ∧
      (off ∉ [o.ocCompare, o.ocStatus] → R = .mismatchRead i off ∧ W = .mismatchWrite i off wv)) ∧
    (∀ ch, e.handler = .sdma ch →
      (off = o.sdmaSrc → R = .sdmaRreg ch .src ∧ W = .sdmaWreg ch .src wv) ∧
      (off = o.sdmaDst → R = .sdmaRreg ch .dst ∧ W = .sdmaWreg ch .dst wv) ∧
      (off = o.sdmaCount → R = .sdmaRreg ch .count ∧ W = .sdmaWreg ch .count wv) ∧
      (off = o.sdmaStart → R = .mismatchRead i off ∧ W = .sdmaStart ch wv) ∧
      (off ∉ [o.sdmaSrc, o.sdmaDst, o.sdmaCount, o.sdmaStart] →
        R = .mismatchRead i off ∧ W = .mismatchWrite i off wv)) ∧
    (∀ ch, e.handler = .pdma ch →
      (off = o.pdmaSrc → R = .pdmaRreg ch .src ∧ W = .pdmaWreg ch .src wv) ∧
      (off = o.pdmaDst → R = .pdmaRreg ch .dst ∧ W = .pdmaWreg ch .dst wv) ∧
      (off = o.pdmaCount → R = .pdmaRreg ch .count ∧ W = .pdmaWreg ch .count wv) ∧
      (off = o.pdmaStart → R = .mismatchRead i off ∧ W = .pdmaStart ch wv) ∧
      (off = o.pdmaXfer → R = .pdmaRreg ch .xfer ∧ W = .mismatchWrite i off wv) ∧
      (off = o.pdmaStatus → R = .pdmaRreg ch .status ∧ W = .mismatchWrite i off wv) ∧
      (off ∉ [o.pdmaSrc, o.pdmaDst, o.pdmaCount, o.pdmaStart, o.pdmaXfer, o.pdmaStatus] →
        R = .mismatchRead i off ∧ W = .mismatchWrite i off wv)) ∧
    (∀ h p, e.handler = .ext h p → R = .extRead i off ∧ W = .extWrite i off wv)

/-- R57: the 4-byte command the second-level encoder writes for an operation selects that operation, and an operation
some 4-byte access of the registry selects has such a command. -/
def Obligations.OperationEncodingSelectsIt : Prop :=
  ∀ (c : Config) (op : Instr),
    (∀ b, encodeAccess c op = some b → Selects c b op) ∧
    (c.wellFormed = true → ∀ mode addr value i e, c.lookup (normAddr addr) = some (i, e) →
      resolve c mode 4 addr value = op → (mode = .read → value = 0) → ∃ b, encodeAccess c op = some b)

/-- R66, R67, R77, R78: a bus command in the aperture does exactly what the operation it resolves to does, and a READ
returns the low bytes of its result. An access that no entry contains resolves to the default handler, with the original
address, size and value. -/
def Obligations.AccessRunsItsOperation : Prop :=
  (∀ (s : State) (i : Instr) (mode : Mode) (n : Nat) (a v : U32), busAccess i = some (mode, n, a, v) →
    InAperture s.cfg a →
      (mode = .read → exec i s = truncated n (exec (resolve s.cfg .read n a v) s)) ∧
      (mode = .write → exec i s = exec (resolve s.cfg .write n a v) s)) ∧
  (∀ (s : State) (a v : U32), InAperture s.cfg a →
    exec (.readW a) s = exec (resolve s.cfg .read 4 a 0) s ∧
    exec (.writeW a v) s = exec (resolve s.cfg .write 4 a v) s) ∧
  ∀ (c : Config) (n : Nat) (a v : U32), c.lookup (normAddr a) = none →
    resolve c .read n a v = .defaultRead n a ∧ resolve c .write n a v = .defaultWrite n a v

/-- R35, R39: a bus command outside the aperture stops the block with OUTSIDE_APERTURE. That DEFAULT.READ and
DEFAULT.WRITE run on their own check the size and then the aperture as R67 does, and stop with ACCESS_SIZE or
OUTSIDE_APERTURE, is the model's choice (assumption 25): R77's `default_access` has no check. -/
def Obligations.AccessChecksRefuse : Prop :=
  ∀ (s : State) (i : Instr) (mode : Mode) (n : Nat) (a v : U32), s.fault = none →
    (busAccess i = some (mode, n, a, v) ∨ i = .defaultRead n a ∨ i = .defaultWrite n a v) →
      (n ≠ 1 ∧ n ≠ 2 ∧ n ≠ 4 → exec i s = .next (faulted .refused .accessSize s)) ∧
      (n = 1 ∨ n = 2 ∨ n = 4 → ¬ InAperture s.cfg a → exec i s = .next (faulted .refused .outsideAperture s))

/-- R59, R77, R153: every READ in the aperture completes and returns a value of its size, where no shim answers. -/
def Obligations.ReadsInTheApertureComplete : Prop :=
  ∀ (s : State) (i : Instr) (n : Nat) (a v : U32), s.Inv → s.fault = none →
    busAccess i = some (.read, n, a, v) → InAperture s.cfg a → NoShim s.cfg (resolve s.cfg .read n a v) →
      ∃ t r, exec i s = .next t ∧ t.fault = none ∧ t.reply = some r ∧ r.toNat < 2 ^ (8 * n)

/-- R59, R77, R153: every WRITE in the aperture that starts no DMA transfer completes and returns nothing, where no shim
answers. -/
def Obligations.WritesInTheApertureComplete : Prop :=
  ∀ (s : State) (i : Instr) (n : Nat) (a v : U32), s.Inv → s.fault = none →
    busAccess i = some (.write, n, a, v) → InAperture s.cfg a → NoShim s.cfg (resolve s.cfg .write n a v) →
    (∀ c wv, resolve s.cfg .write n a v ≠ .sdmaStart c wv ∧ resolve s.cfg .write n a v ≠ .pdmaStart c wv) →
      ∃ t, exec i s = .next t ∧ t.fault = none ∧ t.reply = none

/-- R40, R70, R71, R74, R75, R190: a byte or halfword read does what the word read of its register does and returns the
low bytes of its result; a byte or halfword write to an entry is the word write of its low bytes, zero-extended: no lane
is selected and nothing is merged. R77: where no entry contains the address, the default handler stores the write's one
or two bytes at the original address. -/
def Obligations.SubWordAccessUsesNoLane : Prop :=
  ∀ (s t : State) (a v : U32), s.cfg.wellFormed = true → InAperture s.cfg a →
    (exec (.readW (normAddr a)) s = .next t →
      exec (.readB a) s = .next { t with reply := t.reply.map fun r => BitVec.ofNat 32 (r.toNat % 2 ^ 8) } ∧
      exec (.readH a) s = .next { t with reply := t.reply.map fun r => BitVec.ofNat 32 (r.toNat % 2 ^ 16) }) ∧
    (s.cfg.lookup (normAddr a) ≠ none →
      exec (.writeB a v) s = exec (.writeW (normAddr a) (BitVec.ofNat 32 (v.toNat % 2 ^ 8))) s ∧
      exec (.writeH a v) s = exec (.writeW (normAddr a) (BitVec.ofNat 32 (v.toNat % 2 ^ 16))) s) ∧
    (s.cfg.lookup (normAddr a) = none →
      exec (.writeB a v) s = exec (.defaultWrite 1 a v) s ∧ exec (.writeH a v) s = exec (.defaultWrite 2 a v) s)

/-- R77: the default handler returns 0 for a read and stores a write's bytes, little-endian, at the original address,
dropping those past the aperture. R59: a mismatched READ returns 0 and a mismatched WRITE changes nothing. That each has
this effect on its own too where no access would select it (an address that an entry contains, an offset whose role has
an operation) is the model's choice (assumption 25). -/
def Obligations.DefaultAndMismatchEffect : Prop :=
  (∀ (s : State) (n : Nat) (a v : U32), s.fault = none → (n = 1 ∨ n = 2 ∨ n = 4) → InAperture s.cfg a →
    exec (.defaultRead n a) s = .next (answering 0 s) ∧
    (Memory.wf s.backing = true → ∃ m, exec (.defaultWrite n a v) s = .next (silent { s with backing := m }) ∧
      (∀ j, j < n → a.toNat + j < s.cfg.mmioBase.toNat + s.cfg.mmioSize.toNat →
        Memory.get m (a.toNat + j - s.cfg.mmioBase.toNat) = BitVec.ofNat 8 (v.toNat / 2 ^ (8 * j))) ∧
      (∀ x, (∀ j, j < n → a.toNat + j < s.cfg.mmioBase.toNat + s.cfg.mmioSize.toNat →
          x ≠ a.toNat + j - s.cfg.mmioBase.toNat) →
        Memory.get m x = Memory.get s.backing x))) ∧
  ∀ (s : State) (e : Nat) (ent : Entry) (off wv : U32), s.fault = none → s.cfg.registry[e]? = some ent →
    (∀ h p, ent.handler ≠ .ext h p) →
      exec (.mismatchRead e off) s = .next (answering 0 s) ∧
      exec (.mismatchWrite e off wv) s = .next (silent s)

/-- R73, D42: what the test handlers ECHO and CONST do on a read and on a write at each offset. That a handler's state
is a list of words is the model's coding (assumption 4). -/
def Obligations.EchoAndConstHandlers : Prop :=
  ∀ (s : State) (e : Nat) (ent : Entry) (p v off wv : U32), s.fault = none → s.cfg.registry[e]? = some ent →
    (ent.handler = .ext .echo p → s.ext[e]? = some [v] →
      exec (.extRead e off) s = .next (answering (if off = 0 then v else 0) s) ∧
      exec (.extWrite e off wv) s = .next (silent { s with ext := s.ext.set e [if off = 0 then wv else v] })) ∧
    (ent.handler = .ext .const p → s.ext[e]? = some [] →
      exec (.extRead e off) s = .next (answering p s) ∧ exec (.extWrite e off wv) s = .next (silent s))

/-- R73: a shim's access, whatever function the shim is: its state is updated first, then its calls run in order, each as
the operation it names, the first that faults or reports stops the block, and only then is a read's result returned. The
coding of a shim's state is the model's (assumption 4). -/
def Obligations.ShimCallsRunInOrder : Prop :=
  ∀ (s : State) (e : Nat) (ent : Entry) (n : Nat) (p off wv : U32) (x : ExtState), s.fault = none →
    s.cfg.registry[e]? = some ent → ent.handler = .ext (.shim n) p → s.ext[e]? = some x →
    (∀ r, r = Config.shimRead n x p off →
      exec (.extRead e off) s =
        match afterCalls r.2.2 { s with ext := s.ext.set e r.1 } with
        | .ok t => .next (answering r.2.1 t)
        | .error code => .next (faulted (kindOf code) code s)) ∧
    (∀ r, r = Config.shimWrite n x p off wv →
      exec (.extWrite e off wv) s =
        match afterCalls r.2 { s with ext := s.ext.set e r.1 } with
        | .ok t => .next (silent t)
        | .error code => .next (faulted (kindOf code) code s))

/-- At the op level an operand that names a slot, channel, id or entry the configuration does not have is refused: the
model's choice (assumption 12). The spec says which units there are and gives no outcome for naming another. -/
def Obligations.OperandNamingNoUnitIsRefused : Prop :=
  ∀ s : State, s.fault = none →
    (∀ k, s.ct[k]? = none → ∀ wv, ∀ i ∈ [Instr.ctCtrlR k, .ctCtrlW k wv, .ctReloadR k, .ctReloadW k wv, .ctValueR k,
        .start k, .stop k], exec i s = .refused .noSuchUnit) ∧
    (∀ d k, (s.oc.get d)[k]? = none → ∀ wv, ∀ i ∈ [Instr.ocCompareR d k, .ocArm d k wv, .ocStatusR d k,
        .ocClear d k wv, .setCompare d k wv], exec i s = .refused .noSuchUnit) ∧
    (∀ c, s.sdma[c]? = none → ∀ f wv, ∀ i ∈ [Instr.sdmaRreg c f, .sdmaWreg c f wv, .sdmaStart c wv],
        exec i s = .refused .noSuchUnit) ∧
    (∀ c, s.pdma[c]? = none → ∀ f r wv, ∀ i ∈ [Instr.pdmaRreg c r, .pdmaWreg c f wv, .pdmaStart c wv],
        exec i s = .refused .noSuchUnit) ∧
    (∀ e, (∀ ent, s.cfg.registry[e]? = some ent → ∀ h p, ent.handler ≠ .ext h p) → ∀ off wv,
        ∀ i ∈ [Instr.extRead e off, .extWrite e off wv], exec i s = .refused .noSuchUnit) ∧
    (∀ e, (∀ ent, s.cfg.registry[e]? = some ent → ∃ h p, ent.handler = .ext h p) → ∀ off wv,
        ∀ i ∈ [Instr.mismatchRead e off, .mismatchWrite e off wv], exec i s = .refused .noSuchUnit) ∧
    ∀ id : Nat, id = 0 ∨ s.cfg.nIrq ≤ id → exec (.activate id) s = .refused .noSuchUnit

/-! ### The Interrupt Controller -/

/-- R86: a write to ENABLE sets one enable bit; an id outside 1 to N_IRQ-1 is ignored. -/
def Obligations.EnableWriteSetsOneBit : Prop :=
  ∀ (s : State) (wv : U32), s.fault = none →
    exec (.intcEnable wv) s =
      if 1 ≤ wv.toNat ∧ wv.toNat < s.cfg.nIrq then
        .next (silent { s with enabled := s.enabled.set wv.toNat true })
      else .next (silent s)

/-- R90, R96: a read of REASON returns the active id shifted, resets it and lowers the line; the next read returns 0
and changes nothing. -/
def Obligations.ReasonReadAcknowledges : Prop :=
  ∀ s : State, s.fault = none → ∃ t,
    exec .intcAck s = .next t ∧
    t = answering (BitVec.ofNat 32 (s.activeId * 2 ^ s.cfg.reasonShift))
      { s with activeId := 0, irqLine := if s.activeId = 0 then s.irqLine else false } ∧
    exec .intcAck t = .next (answering 0 t)

/-- R88, R91: activation makes the id active, masks it, resets its count (the periodic id's to the period) and raises
the line; the period is the system slot's reload value shifted right. R88's callers activate only an enabled id while
nothing is active; that `activate` has the same effect outside that condition is the model's choice (assumption 12). -/
def Obligations.ActivateAndPeriod : Prop :=
  ∀ (s : State) (id : Nat), s.fault = none →
    (1 ≤ id → id < s.cfg.nIrq →
      exec (.activate id) s = .next (silent (afterActivate id s))) ∧
    ∀ t : Countdown, s.ct[s.cfg.sysTimerSlot]? = some t →
      period s = BitVec.ofNat 32 (t.reload.toNat / 2 ^ s.cfg.periodShift) ∧
      exec .period s = .next (answering (period s) s)

/-- R87, R89: `trigger` activates at once when it may, else schedules `max(delay, 1)`, or 1 for a masked id; a bad id is
fatal. -/
def Obligations.TriggerEffect : Prop :=
  ∀ (s : State) (id : Nat) (delay : U32), s.fault = none →
    exec (.trigger id delay) s =
      if id = 0 then .next (faulted .fatal .triggerIdZero s)
      else if s.cfg.nIrq ≤ id then .next (faulted .fatal .triggerIdRange s)
      else .next (silent (afterTrigger id delay s))

/-- R92, R93, R158: the service activates the highest id that is pending and enabled when nothing is active, counts
every other id down by one above 1, and touches nothing else. -/
def Obligations.ServiceActivatesTheHighestReadyId : Prop :=
  ∀ s : State, s.fault = none → s.enabled.length = s.cfg.nIrq → s.scheduled.length = s.cfg.nIrq →
    ∃ t, exec .serviceTick s = .next t ∧
      t = silent { s with
        enabled := t.enabled, scheduled := t.scheduled, activeId := t.activeId, irqLine := t.irqLine } ∧
      t.scheduled.length = s.scheduled.length ∧ t.scheduled.getD 0 0 = s.scheduled.getD 0 0 ∧
      ((s.activeId ≠ 0 ∨ ∀ id, ¬ Ready s id) →
        t.enabled = s.enabled ∧ t.activeId = s.activeId ∧ t.irqLine = s.irqLine ∧
        ∀ id, 1 ≤ id → id < s.cfg.nIrq → t.scheduled.getD id 0 = counted (s.scheduled.getD id 0)) ∧
      ∀ id, s.activeId = 0 → Ready s id → (∀ j, id < j → ¬ Ready s j) →
        t.enabled = s.enabled.set id false ∧ t.activeId = id ∧ t.irqLine = true ∧
        t.scheduled.getD id 0 = (if id = s.cfg.periodicIrq then period s else 0) ∧
        ∀ j, 1 ≤ j → j < s.cfg.nIrq → j ≠ id → t.scheduled.getD j 0 = counted (s.scheduled.getD j 0)

/-- R94: a masked pending id is still masked and pending after a TICK that does not fault. -/
def Obligations.MaskedPendingIdSurvivesATick : Prop :=
  ∀ (s t : State) (id : Nat), s.Inv → s.fault = none → 1 ≤ id → id < s.cfg.nIrq →
    s.isEnabled id = false → s.scheduledAt id = 1 → exec .tick s = .next t →
      t.isEnabled id = false ∧ t.scheduledAt id = 1

/-- R97: with the id enabled, nothing else requested and nothing active, a count of d is delivered by the d-th TICK and
by none before it. -/
def Obligations.DelayedTriggerTakesItsTicks : Prop :=
  ∀ (s : State) (id : Nat) (d : U32), s.Inv → s.fault = none → 1 ≤ id → id < s.cfg.nIrq →
    s.isEnabled id = true → s.scheduledAt id = d → 1 ≤ d.toNat → s.activeId = 0 →
    (∀ j, j ≠ id → s.scheduledAt j = 0) → (∀ f, ∀ o ∈ s.oc.get f, o.active = false) → Idle s →
      (∀ n, n < d.toNat → ∃ t, times .tick n s = .next t ∧ t.activeId = 0 ∧ t.irqLine = false ∧
        t.scheduledAt id = BitVec.ofNat 32 (d.toNat - n)) ∧
      ∃ t, times .tick d.toNat s = .next t ∧ t.activeId = id ∧ t.irqLine = true

/-! ### Clocks and countdown timers -/

/-- R100, R110, R142: both clocks advance by their step, modulo 2^width; every enabled countdown slot steps, wraps
modulo 2^32 and resets to 0 strictly above its reload value; the re-arm changes nothing. -/
def Obligations.ClocksAndCountdownsStep : Prop :=
  ∀ s : State, s.fault = none →
    exec .clockStep s = .next (silent { s with clk := ⟨advanced s .narrow, advanced s .wide⟩ }) ∧
    exec .countdownStep s = .next (silent { s with ct := s.ct.map (ticked s.cfg.ctStep) }) ∧
    exec .rearm s = .next (silent s)

/-- R101, R106, R108, R109, R114, R115: each timer register's read returns its field and changes nothing. -/
def Obligations.TimerReadsReturnTheirFields : Prop :=
  ∀ s : State, s.fault = none →
    (∀ d, exec (.clkValueR d) s = .next (answering (s.clk.get d) s)) ∧
    (∀ k t, s.ct[k]? = some t →
      exec (.ctCtrlR k) s = .next (answering (if t.enabled = true then 1 else 0) s) ∧
      exec (.ctReloadR k) s = .next (answering t.reload s) ∧
      exec (.ctValueR k) s = .next (answering t.current s)) ∧
    (∀ d k o, (s.oc.get d)[k]? = some o →
      exec (.ocCompareR d k) s = .next (answering o.compare s) ∧
      exec (.ocStatusR d k) s = .next (answering
        (BitVec.ofNat 32 ((if o.triggered = true then 1 else 0) + (if o.active = true then 2 else 0))) s))

/-- R103, R104: start enables the slot and keeps its value; the system slot also triggers the periodic id with its
reload value shifted. -/
def Obligations.StartEnablesTheSlot : Prop :=
  ∀ (s : State) (k : Nat) (t : Countdown) (i : Instr), s.fault = none → s.ct[k]? = some t →
    (i = .start k ∨ ∃ wv : U32, wv.toNat % 2 = 1 ∧ i = .ctCtrlW k wv) →
    (k ≠ s.cfg.sysTimerSlot → exec i s = .next (silent { s with ct := s.ct.set k { t with enabled := true } })) ∧
    (k = s.cfg.sysTimerSlot → 1 ≤ s.cfg.periodicIrq → s.cfg.periodicIrq < s.cfg.nIrq →
      exec i s = .next (silent (afterTrigger s.cfg.periodicIrq
        (BitVec.ofNat 32 (t.reload.toNat / 2 ^ s.cfg.periodShift))
        { s with ct := s.ct.set k { t with enabled := true } })))

/-- R103, R105: stop disables the slot and zeroes its value; the reload value and the Interrupt Controller are left. -/
def Obligations.StopZeroesTheSlot : Prop :=
  ∀ (s : State) (k : Nat) (t : Countdown) (i : Instr), s.fault = none → s.ct[k]? = some t →
    (i = .stop k ∨ ∃ wv : U32, wv.toNat % 2 = 0 ∧ i = .ctCtrlW k wv) →
      exec i s = .next (silent { s with ct := s.ct.set k { t with enabled := false, current := 0 } })

/-- R107, R117: a write of RELOAD sets the reload value alone; a write of an output-compare STATUS, of any value, clears
`triggered` alone. -/
def Obligations.ReloadAndStatusWrites : Prop :=
  ∀ (s : State) (wv : U32), s.fault = none →
    (∀ k t, s.ct[k]? = some t →
      exec (.ctReloadW k wv) s = .next (silent { s with ct := s.ct.set k { t with reload := wv } })) ∧
    ∀ d k o, (s.oc.get d)[k]? = some o →
      exec (.ocClear d k wv) s =
        .next (silent { s with oc := s.oc.set d ((s.oc.get d).set k { o with triggered := false }) })

/-- R111: from 0, the value after n steps is (n mod (m+1))·S with m = R div S. R111's last special case speaks of
`R >= 2^32 - S`; where the premise holds there too, the statement goes with R110 (assumption 24). -/
def Obligations.CountdownSequence : Prop :=
  ∀ (s : State) (k n : Nat) (t : Countdown), s.fault = none → s.ct[k]? = some t → t.enabled = true →
    t.current = 0 → 1 ≤ s.cfg.ctStep.toNat →
    let S := s.cfg.ctStep.toNat
    let m := t.reload.toNat / S
    (m + 1) * S < 2 ^ 32 →
      ∃ u, times .countdownStep n s = .next u ∧
        u.ct[k]? = some { t with current := BitVec.ofNat 32 (n % (m + 1) * S) }

/-! ### Output-compare timers -/

/-- R113: arming rounds up, reduces, snaps forward when the signed distance is negative, and sets `active` alone
besides. -/
def Obligations.ArmingSetsTheCompare : Prop :=
  ∀ (s : State) (d : Domain) (k : Nat) (o : OutputCompare) (v : U32) (i : Instr), s.fault = none →
    s.cfg.domainOk d = true → ClockOk s.cfg d (s.clk.get d) → (s.oc.get d)[k]? = some o →
    (i = .setCompare d k v ∨ i = .ocArm d k v) →
      exec i s = .next (silent { s with oc := s.oc.set d ((s.oc.get d).set k
        { active := true, triggered := o.triggered,
          compare := if armDelta s d v < 0 then advanced s d else BitVec.ofNat 32 (rounded s d v).toNat }) })

/-- R119: a slot armed behind the clock fires in the very next TICK. -/
def Obligations.SnappedSlotFiresNextTick : Prop :=
  ∀ (s t u : State) (d : Domain) (k : Nat) (o : OutputCompare) (v : U32), s.Inv → s.fault = none →
    (s.oc.get d)[k]? = some o → armDelta s d v < 0 → exec (.ocArm d k v) s = .next t → exec .tick t = .next u →
    u.fault = none →
      ∃ o', (u.oc.get d)[k]? = some o' ∧ o'.triggered = true ∧ o'.compare = u.clk.get d ∧ o'.compare = advanced s d

/-- R120: a slot armed at or ahead of the clock first fires in TICK delta/S after the arm, or after a full wrap of M/S
ticks when delta is 0. -/
def Obligations.ArmedSlotFiresAfterItsDelta : Prop :=
  ∀ (s t : State) (d : Domain) (k : Nat) (o : OutputCompare) (v : U32), s.Inv → s.fault = none → Idle s →
    (s.oc.get d)[k]? = some o → o.triggered = false → 0 ≤ armDelta s d v → exec (.ocArm d k v) s = .next t →
    let S := (s.cfg.clkStep.get d).toNat
    let n := if armDelta s d v = 0 then 2 ^ s.cfg.width.get d / S else (armDelta s d v).toNat / S
    (∀ j, j < n → ∃ u o', times .tick j t = .next u ∧ (u.oc.get d)[k]? = some o' ∧ o'.triggered = false) ∧
    ∃ u o', times .tick n t = .next u ∧ (u.oc.get d)[k]? = some o' ∧ o'.triggered = true

/-- R116: the check sets `triggered` of exactly the armed slots whose compare equals their clock. -/
def Obligations.CheckMarksTheMatchingSlots : Prop :=
  ∀ s : State, s.fault = none → ∃ oc : PerDomain (List OutputCompare),
    exec .ocCheck s = .next (silent { s with oc := oc }) ∧
    ∀ d, oc.get d = (s.oc.get d).map fun o =>
      if o.active = true ∧ o.compare = s.clk.get d then { o with triggered := true } else o

/-- R118: the raise is one trigger with delay 0 for each id of a matching slot, the narrow family's before the wide
one's, each family's in the order of its first matching slots, each id once in a family; so it activates at once when it
may. Every such id ends active or scheduled 1, no other id is touched, and an id of one family is not requested again
after its activation. A slot matches as R116 says, by its compare value and clock at the raise, whether or not
`oc_check` ran before it (assumption 14). -/
def Obligations.RaiseReachesEachFiringIdOnce : Prop :=
  ∀ s : State, s.Inv → s.fault = none → ∃ t, exec .ocRaise s = .next t ∧
    t = silent (raisedAll (firingOnce s .wide) (raisedAll (firingOnce s .narrow) s)) ∧
    t = silent { s with
      enabled := t.enabled, scheduled := t.scheduled, activeId := t.activeId, irqLine := t.irqLine } ∧
    (s.activeId ≠ 0 → t.activeId = s.activeId ∧ t.enabled = s.enabled) ∧
    ∀ id, 1 ≤ id → id < s.cfg.nIrq →
      ((∃ d, Fires s d id) → t.activeId = id ∨ t.scheduledAt id = 1) ∧
      ((∀ d, ¬ Fires s d id) → t.scheduledAt id = s.scheduledAt id ∧ t.isEnabled id = s.isEnabled id) ∧
      (s.activeId = 0 → t.activeId = id → (¬ Fires s .narrow id ∨ ¬ Fires s .wide id) →
        t.scheduledAt id = (if id = s.cfg.periodicIrq then period s else 0) ∧ t.isEnabled id = false)

/-! ### DMA -/

/-- R126, R133: each DMA register's read returns its field and changes nothing. -/
def Obligations.DmaReadsReturnTheirFields : Prop :=
  ∀ s : State, s.fault = none →
    (∀ c x, s.sdma[c]? = some x →
      exec (.sdmaRreg c .src) s = .next (answering x.src s) ∧
      exec (.sdmaRreg c .dst) s = .next (answering x.dst s) ∧
      exec (.sdmaRreg c .count) s = .next (answering x.count s)) ∧
    (∀ c p, s.pdma[c]? = some p →
      exec (.pdmaRreg c .src) s = .next (answering p.src s) ∧
      exec (.pdmaRreg c .dst) s = .next (answering p.dst s) ∧
      exec (.pdmaRreg c .count) s = .next (answering p.count s) ∧
      exec (.pdmaRreg c .xfer) s = .next (answering p.transferred s) ∧
      exec (.pdmaRreg c .status) s = .next (answering
        (BitVec.ofNat 32 ((if p.busy = true then 1 else 0) + (if p.dir = .outward then 2 else 0))) s))

/-- R122, R131: a register write sets one field of its channel; a busy polled channel ignores it. That COUNT of an idle
channel may be set below `transferred`, as R131 says and R31 item 4 does not, is the model's choice between them
(assumption 11). -/
def Obligations.DmaWritesSetOneField : Prop :=
  ∀ (s : State) (wv : U32), s.fault = none →
    (∀ c x, s.sdma[c]? = some x →
      exec (.sdmaWreg c .src wv) s = .next (silent { s with sdma := s.sdma.set c { x with src := wv } }) ∧
      exec (.sdmaWreg c .dst wv) s = .next (silent { s with sdma := s.sdma.set c { x with dst := wv } }) ∧
      exec (.sdmaWreg c .count wv) s = .next (silent { s with sdma := s.sdma.set c { x with count := wv } })) ∧
    (∀ c p, s.pdma[c]? = some p → p.busy = false →
      exec (.pdmaWreg c .src wv) s = .next (silent { s with pdma := s.pdma.set c { p with src := wv } }) ∧
      exec (.pdmaWreg c .dst wv) s = .next (silent { s with pdma := s.pdma.set c { p with dst := wv } }) ∧
      exec (.pdmaWreg c .count wv) s = .next (silent { s with pdma := s.pdma.set c { p with count := wv } })) ∧
    (∀ c p f, s.pdma[c]? = some p → p.busy = true → exec (.pdmaWreg c f wv) s = .next (silent s))

/-- R124, R127, R128, R129: between usable ranges the copy completes and writes `[dst, dst + n)` alone. A byte whose
source an earlier chunk overwrote gets that chunk's byte, every other the old source byte; so where the ranges are
disjoint, or dst is at or below src, or one chunk moves all, the copy is a true move. The overlapping example of R123
follows from it only for one chunk; that R128 holds of it otherwise is the model's reading (assumption 21). -/
def Obligations.CopyMovesTheBytes : Prop :=
  ∀ (s : State) (src dst n : U32), s.Inv → s.fault = none → CanRead s.cfg src.toNat n.toNat →
    CanWrite s.cfg dst.toNat n.toNat →
      ∃ t, exec (.sdmaCopy src dst n) s = .next t ∧ t = silent { s with ram := t.ram } ∧
        (∀ j, j < n.toNat → t.byteAt (dst.toNat + j) =
          if dst.toNat ≤ src.toNat + j ∧ src.toNat + j < dst.toNat + j / s.cfg.sdmaChunk * s.cfg.sdmaChunk then
            t.byteAt (src.toNat + j)
          else s.byteAt (src.toNat + j)) ∧
        (src.toNat + n.toNat ≤ dst.toNat ∨ dst.toNat ≤ src.toNat ∨ n.toNat ≤ s.cfg.sdmaChunk →
          ∀ j, j < n.toNat → t.byteAt (dst.toNat + j) = s.byteAt (src.toNat + j)) ∧
        ∀ x, ¬ (dst.toNat ≤ x ∧ x < dst.toNat + n.toNat) → t.byteAt x = s.byteAt x

/-- R123, R125, R129: START copies at once, with the channel's registers unchanged, and triggers the completion id with
count div DMA_LATENCY_DIV; with a range it cannot use it is refused, nothing moves and nothing is triggered. That a
source in the ROM range is refused when ROM_SIZE is 0 is the model's choice (assumption 8). -/
def Obligations.SyncStartCopiesAndTriggers : Prop :=
  ∀ (s : State) (c id : Nat) (x : SyncDma) (wv : U32), s.Inv → s.fault = none → s.sdma[c]? = some x →
    s.cfg.sdmaIrq[c]? = some id →
    (CanRead s.cfg x.src.toNat x.count.toNat ∧ CanWrite s.cfg x.dst.toNat x.count.toNat →
      ∃ m t, exec (.sdmaStart c wv) s = .next t ∧
        t = silent (afterTrigger id (BitVec.ofNat 32 (x.count.toNat / s.cfg.dmaLatencyDiv)) { s with ram := m }) ∧
        exec (.sdmaCopy x.src x.dst x.count) s = .next (silent { s with ram := m }) ∧
        ∀ y, ¬ (x.dst.toNat ≤ y ∧ y < x.dst.toNat + x.count.toNat) → t.byteAt y = s.byteAt y) ∧
    (¬ CanRead s.cfg x.src.toNat x.count.toNat ∨ ¬ CanWrite s.cfg x.dst.toNat x.count.toNat →
      exec (.sdmaStart c wv) s = .next (faulted .refused .dmaRegion s))

/-- R132: a polled START while busy is fatal, a count that is no whole number of words or a range it cannot use is
refused, and otherwise the channel starts in the direction of bit 0. That an OUT range in the ROM range is refused when
ROM_SIZE is 0 is the model's choice (assumption 8). -/
def Obligations.PolledStartOutcome : Prop :=
  ∀ (s : State) (c : Nat) (p : PolledDma) (wv : U32), s.fault = none → s.pdma[c]? = some p →
    let dir : Dir := if wv.toNat % 2 = 1 then .outward else .inward
    let usable := (dir = .inward ∧ CanWrite s.cfg p.dst.toNat p.count.toNat) ∨
      (dir = .outward ∧ CanRead s.cfg p.src.toNat p.count.toNat)
    (p.busy = true → exec (.pdmaStart c wv) s = .next (faulted .fatal .pdmaBusy s)) ∧
    (p.busy = false → p.count.toNat % 4 ≠ 0 → exec (.pdmaStart c wv) s = .next (faulted .refused .pdmaAlign s)) ∧
    (p.busy = false → p.count.toNat % 4 = 0 → ¬ usable →
      exec (.pdmaStart c wv) s = .next (faulted .refused .dmaRegion s)) ∧
    (p.busy = false → p.count.toNat % 4 = 0 → usable →
      exec (.pdmaStart c wv) s = .next (silent { s with pdma := s.pdma.set c { p with
        dir := dir, busy := true, transferred := 0, wait := s.cfg.pdmaWaitInit } }))

/-- R134, R137, R31 item 6, the draws as in assumption 5: with draws that report no impossible backend, the polled step
completes, and leaves each channel as its rule may. A byte outside every busy IN channel's next chunk is unchanged, and
with no channel busy nothing changes at all. -/
def Obligations.PolledStepServesEveryChannel : Prop :=
  ∀ s : State, s.Inv → s.fault = none → DrawsServe s → ∃ t, exec .pdmaStep s = .next t ∧
    t = { s with
      enabled := t.enabled, scheduled := t.scheduled, activeId := t.activeId, irqLine := t.irqLine
      pdma := t.pdma, ram := t.ram, draws := t.draws, drawsTaken := t.drawsTaken, reply := none
      devOut := t.devOut } ∧
    (∀ (c : Nat) (p : PolledDma), s.pdma[c]? = some p →
      ∃ q : PolledDma, t.pdma[c]? = some q ∧ ServedTo s.cfg p q) ∧
    (∀ x, (∀ p ∈ s.pdma, ¬ InNextChunk s.cfg p x) → t.byteAt x = s.byteAt x) ∧
    (Idle s → t = silent s)

/-- R134, the draws as in assumption 5: the bytes an IN chunk moves: with one busy channel and a ready device, the drawn
bytes land at dst + transferred and no other byte changes; with a device that is not ready, none does. -/
def Obligations.PolledInChunkLandsInMemory : Prop :=
  ∀ (s : State) (c : Nat) (p : PolledDma) (d e : Draw) (rest : List Draw), s.Inv → s.fault = none →
    LoneBusy s c p → p.dir = .inward → p.transferred.toNat < p.count.toNat → s.draws = d :: e :: rest →
    d.impossible = false → e.impossible = false →
      ∃ t q, exec .pdmaStep s = .next t ∧ t.fault = none ∧ t.pdma = s.pdma.set c q ∧ t.devOut = [] ∧
        (d.ready = false → t.draws = e :: rest ∧ q.transferred = p.transferred ∧ ∀ x, t.byteAt x = s.byteAt x) ∧
        (d.ready = true → t.draws = rest ∧
          q.transferred.toNat = p.transferred.toNat + min s.cfg.pdmaChunk (p.count.toNat - p.transferred.toNat) ∧
          (∀ j, j < min s.cfg.pdmaChunk (p.count.toNat - p.transferred.toNat) →
            t.byteAt (p.dst.toNat + p.transferred.toNat + j) = some (e.data.getD j 0)) ∧
          ∀ x, ¬ (p.dst.toNat + p.transferred.toNat ≤ x ∧
            x < p.dst.toNat + p.transferred.toNat + min s.cfg.pdmaChunk (p.count.toNat - p.transferred.toNat)) →
              t.byteAt x = s.byteAt x)

/-- R134, the draws as in assumption 5: the bytes an OUT chunk sends: with one busy channel and a ready device, the
bytes at src + transferred go to that channel's device in address order and `transferred` grows by their number; with a
device that is not ready, nothing is sent and `transferred` stays. Memory is unchanged. -/
def Obligations.PolledOutChunkReachesTheDevice : Prop :=
  ∀ (s : State) (c : Nat) (p : PolledDma) (d e : Draw) (rest : List Draw), s.Inv → s.fault = none →
    LoneBusy s c p → p.dir = .outward → p.transferred.toNat < p.count.toNat → s.draws = d :: e :: rest →
    d.impossible = false → e.impossible = false →
      ∃ t q, exec .pdmaStep s = .next t ∧ t.fault = none ∧ t.pdma = s.pdma.set c q ∧ t.ram = s.ram ∧
        (d.ready = false → t.draws = e :: rest ∧ q.transferred = p.transferred ∧ t.devOut = []) ∧
        (d.ready = true → t.draws = rest ∧
          q.transferred.toNat = p.transferred.toNat + nextChunk s.cfg p ∧
          ∃ b, t.devOut = [(c, b)] ∧ b.length = nextChunk s.cfg p ∧
            ∀ j, j < b.length → s.byteAt (p.src.toNat + p.transferred.toNat + j) = b[j]?)

/-- R134 part 3, the draws as in assumption 5: the polled step raises exactly the ids of the channels that complete in
it, in ascending channel order, the DMA id before the driver id, each with delay 0. A lone busy channel completes when
its data has all moved, with this step's chunk or before it, and its wait runs out; until then it raises nothing. -/
def Obligations.PolledCompletionRaisesItsIds : Prop :=
  (∀ s : State, s.Inv → s.fault = none → DrawsServe s → ∃ t, exec .pdmaStep s = .next t ∧
    t = { raisedAll (completedIds s t) s with
      pdma := t.pdma, ram := t.ram, draws := t.draws, drawsTaken := t.drawsTaken, reply := none
      devOut := t.devOut }) ∧
  ∀ (s : State) (c : Nat) (p : PolledDma) (irq : PdmaIrq), s.Inv → s.fault = none → LoneBusy s c p →
    s.cfg.pdmaIrq[c]? = some irq →
      (p.transferred = p.count → (waitAfter p).toInt ≤ 0 →
        exec .pdmaStep s = .next (silent (raisedAll (completionIds irq)
          { s with pdma := s.pdma.set c { p with wait := waitAfter p, busy := false } }))) ∧
      (p.transferred = p.count → 0 < (waitAfter p).toInt →
        exec .pdmaStep s = .next (silent { s with pdma := s.pdma.set c { p with wait := waitAfter p } })) ∧
      ∀ (d e : Draw) (rest : List Draw), p.transferred.toNat < p.count.toNat → s.draws = d :: e :: rest →
        d.impossible = false → e.impossible = false → d.ready = true →
          ∃ m out,
            (p.count.toNat - p.transferred.toNat ≤ s.cfg.pdmaChunk → (waitAfter p).toInt ≤ 0 →
              exec .pdmaStep s = .next { raisedAll (completionIds irq) s with
                pdma := s.pdma.set c { p with transferred := p.count, wait := waitAfter p, busy := false }
                ram := m, draws := rest, drawsTaken := s.drawsTaken + 2, reply := none, devOut := out }) ∧
            (s.cfg.pdmaChunk < p.count.toNat - p.transferred.toNat ∨ 0 < (waitAfter p).toInt →
              exec .pdmaStep s = .next { s with
                pdma := s.pdma.set c { p with
                  transferred := BitVec.ofNat 32 (p.transferred.toNat + nextChunk s.cfg p), wait := waitAfter p }
                ram := m, draws := rest, drawsTaken := s.drawsTaken + 2, reply := none, devOut := out })

/-- R135: a backend that reports an impossible state, in the answer to any call (assumption 5), stops the polled step,
and the TICK it belongs to, with EXT_HANDLER; where none of the answers of one step, at most two a channel, does, both
complete. The first channel with data left takes the first answer for DevReady and, when that says ready, the second for
DevRead or DevWrite. -/
def Obligations.ImpossibleBackendIsFatal : Prop :=
  ∀ (s : State) (i : Instr), s.Inv → s.fault = none → (i = .pdmaStep ∨ i = .tick) →
    (∃ t, exec i s = .next t ∧
      ((t = faulted .fatal .extHandler s ∧ ∃ n, n < 2 * s.cfg.nPdma ∧ (drawAt s n).impossible = true) ∨
        (t.fault = none ∧ ∀ n, s.drawsTaken + n < t.drawsTaken → (drawAt s n).impossible = false))) ∧
    ∀ (c : Nat) (p : PolledDma), s.pdma[c]? = some p → p.busy = true → p.transferred.toNat < p.count.toNat →
      (∀ j q, j < c → s.pdma[j]? = some q → q.busy = true → q.transferred = q.count) →
      ((drawAt s 0).impossible = true ∨ ((drawAt s 0).ready = true ∧ (drawAt s 1).impossible = true)) →
        exec i s = .next (faulted .fatal .extHandler s)

/-! ### The Tick Driver -/

/-- R141: a TICK is its steps in the rule's order, then the tick count, then the re-arm. -/
def Obligations.TickRunsItsStepsInOrder : Prop :=
  ∀ s a b c d e f g : State, s.fault = none → exec .serviceTick s = .next a → exec .clockStep a = .next b →
    exec .countdownStep b = .next c → exec .ocCheck c = .next d → exec .ocRaise d = .next e → e.fault = none →
    exec .pdmaStep e = .next f → f.fault = none → exec .rearm { f with ticks := f.ticks + 1 } = .next g →
      exec .tick s = .next { g with devOut := f.devOut }

/-- R141, the draws as in assumption 5: with draws that report no impossible backend, a TICK completes: the clocks,
the countdown slots and the tick count step, the output-compare slots that match the advanced clock are marked, each
polled channel is left as its rule may, and a byte outside every busy IN channel's next chunk is unchanged. -/
def Obligations.TickCompletes : Prop :=
  ∀ s : State, s.Inv → s.fault = none → DrawsServe s → ∃ t, exec .tick s = .next t ∧ t.fault = none ∧
    t.ticks = s.ticks + 1 ∧ (∀ d, t.clk.get d = advanced s d) ∧ t.ct = s.ct.map (ticked s.cfg.ctStep) ∧
    (∀ d, t.oc.get d = (s.oc.get d).map fun o =>
      if o.active = true ∧ o.compare = advanced s d then { o with triggered := true } else o) ∧
    (∀ (c : Nat) (p : PolledDma), s.pdma[c]? = some p →
      ∃ q : PolledDma, t.pdma[c]? = some q ∧ ServedTo s.cfg p q) ∧
    (∀ x, (∀ p ∈ s.pdma, ¬ InNextChunk s.cfg p x) → t.byteAt x = s.byteAt x) ∧
    (Idle s → t.ram = s.ram ∧ t.pdma = s.pdma ∧ t.devOut = [] ∧ t.draws = s.draws) ∧
    t.sdma = s.sdma ∧ t.rom = s.rom ∧ t.backing = s.backing ∧ t.ext = s.ext ∧ t.reply = none
end

