-- ==== Sys2Proof/Laws/Config.lean ====
section
/-! SUPPORT. What a well-formed configuration gives (00_scope R6), one lemma for each clause the proofs use. -/

namespace Sys2Proof

theorem Config.idOk_iff (c : Config) (id : Nat) : c.idOk id = true ↔ 1 ≤ id ∧ id < c.nIrq := by
  simp [Config.idOk]

/-- The clauses of a well-formed configuration. -/
theorem Config.wellFormed_parts {c : Config} (h : c.wellFormed = true) :
    c.scalarsOk = true ∧ c.idsOk = true ∧ c.domainOk .narrow = true ∧ c.domainOk .wide = true ∧ c.regionsOk = true ∧
      (∀ e ∈ c.registry, c.entryOk e = true) ∧ c.offs.wellFormed = true ∧
      imageOk c.ramSize c.initRam = true ∧ imageOk c.romSize c.initRom = true := by
  simpa [Config.wellFormed, and_assoc] using h

theorem Config.scalars_of_wellFormed {c : Config} (h : c.wellFormed = true) :
    2 ≤ c.nIrq ∧ c.reasonShift ≤ 31 ∧ 1 ≤ c.nCt ∧ c.sysTimerSlot < c.nCt ∧ 1 ≤ c.sdmaChunk ∧ 1 ≤ c.dmaLatencyDiv ∧
      1 ≤ c.pdmaChunk ∧ c.pdmaChunk % 4 = 0 ∧ c.mmioBase.toNat % 4 = 0 ∧ c.mmioSize.toNat % 4 = 0 := by
  simpa [Config.scalarsOk, and_assoc] using (Config.wellFormed_parts h).1

theorem Config.periodic_of_wellFormed {c : Config} (h : c.wellFormed = true) :
    1 ≤ c.periodicIrq ∧ c.periodicIrq < c.nIrq := by
  have h := (Config.wellFormed_parts h).2.1
  simp only [Config.idsOk, Bool.and_eq_true] at h
  exact (c.idOk_iff _).1 h.1.1.1.1

theorem Config.ocIds_of_wellFormed {c : Config} (h : c.wellFormed = true) (d : Domain) :
    ∀ id ∈ c.ocIrq.get d, 1 ≤ id ∧ id < c.nIrq := by
  have h := (Config.wellFormed_parts h).2.1
  simp only [Config.idsOk, Bool.and_eq_true, List.all_eq_true] at h
  intro id hid
  cases d with
  | narrow => exact (c.idOk_iff _).1 (h.1.1.1.2 id hid)
  | wide => exact (c.idOk_iff _).1 (h.1.1.2 id hid)

theorem Config.sdmaIds_of_wellFormed {c : Config} (h : c.wellFormed = true) :
    ∀ id ∈ c.sdmaIrq, 1 ≤ id ∧ id < c.nIrq := by
  have h := (Config.wellFormed_parts h).2.1
  simp only [Config.idsOk, Bool.and_eq_true, List.all_eq_true] at h
  exact fun id hid => (c.idOk_iff _).1 (h.1.2 id hid)

theorem Config.pdmaIds_of_wellFormed {c : Config} (h : c.wellFormed = true) :
    ∀ p ∈ c.pdmaIrq, (1 ≤ p.dma ∧ p.dma < c.nIrq) ∧ p.drv < c.nIrq := by
  have h := (Config.wellFormed_parts h).2.1
  simp only [Config.idsOk, Bool.and_eq_true, List.all_eq_true, decide_eq_true_eq] at h
  exact fun p hp => ⟨(c.idOk_iff _).1 (h.2 p hp).1, (h.2 p hp).2⟩

/-- R6: a domain's step is a power of two that divides 2^width. -/
theorem Config.domain_of_domainOk {c : Config} {d : Domain} (h : c.domainOk d = true) :
    1 ≤ c.width.get d ∧ c.width.get d ≤ 32 ∧
      ∃ j, j ≤ c.width.get d ∧ (c.clkStep.get d).toNat = 2 ^ j := by
  simp only [Config.domainOk, Bool.and_eq_true, decide_eq_true_eq, List.any_eq_true, List.mem_range] at h
  obtain ⟨⟨h1, h2⟩, j, h3, h4⟩ := h
  exact ⟨h1, h2, j, by omega, h4⟩

theorem Config.domainOk_of_wellFormed {c : Config} (h : c.wellFormed = true) (d : Domain) : c.domainOk d = true := by
  cases d with
  | narrow => exact (Config.wellFormed_parts h).2.2.1
  | wide => exact (Config.wellFormed_parts h).2.2.2.1

theorem Config.step_dvd {c : Config} {d : Domain} (h : c.domainOk d = true) :
    (c.clkStep.get d).toNat ∣ 2 ^ c.width.get d ∧ 0 < (c.clkStep.get d).toNat ∧ 2 ^ c.width.get d ≤ 2 ^ 32 := by
  obtain ⟨-, h2, j, h3, h4⟩ := Config.domain_of_domainOk h
  rw [h4]
  exact ⟨Nat.pow_dvd_pow 2 h3, Nat.pos_of_ne_zero (by simp), Nat.pow_le_pow_right (by omega) h2⟩

/-- R69: an entry of a well-formed registry. -/
theorem Config.entry_of_wellFormed {c : Config} (h : c.wellFormed = true) {e : Entry} (he : e ∈ c.registry) :
    e.start ≤ e.last ∧ e.start.toNat % 4 = 0 ∧ c.paramLegal e.handler = true := by
  have h := (Config.wellFormed_parts h).2.2.2.2.2.1 e he
  simpa [Config.entryOk, and_assoc] using h

/-- R40: the normalised address is the address aligned down to a word. -/
theorem normAddr_toNat (a : U32) : (normAddr a).toNat = a.toNat / 4 * 4 := by
  have h : ∀ i, i < 32 → (0xFFFFFFFC : U32).getLsbD i = decide (2 ≤ i) := by decide
  have h1 : normAddr a = (a >>> 2) <<< 2 := by
    apply BitVec.eq_of_getLsbD_eq
    intro i hi
    simp only [normAddr, BitVec.getLsbD_and, BitVec.getLsbD_shiftLeft, BitVec.getLsbD_ushiftRight, h i hi, hi,
      decide_true, Bool.true_and]
    by_cases h2 : i < 2
    · simp [h2, show ¬ 2 ≤ i by omega]
    · simp [h2, show 2 ≤ i by omega, show 2 + (i - 2) = i by omega]
  have h2 := a.isLt
  rw [h1, BitVec.toNat_shiftLeft, BitVec.toNat_ushiftRight, Nat.shiftRight_eq_div_pow, Nat.shiftLeft_eq]
  omega

theorem normAddr_normAddr (a : U32) : normAddr (normAddr a) = normAddr a := by
  unfold normAddr; rw [BitVec.and_assoc, BitVec.and_self]

/-- R68: what the lookup answers is an entry of the registry, at the index it gives, that contains the address. -/
theorem lookupFrom_some {a : U32} {n i : Nat} {l : List Entry} {e : Entry} (h : lookupFrom a n l = some (i, e)) :
    n ≤ i ∧ l[i - n]? = some e ∧ e.contains a = true := by
  induction l generalizing n with
  | nil => simp [lookupFrom] at h
  | cons x l ih =>
    unfold lookupFrom at h
    split at h
    · rename_i hx
      simp only [Option.some.injEq, Prod.mk.injEq] at h
      obtain ⟨rfl, rfl⟩ := h
      exact ⟨Nat.le_refl _, by simp, hx⟩
    · obtain ⟨h1, h2, h3⟩ := ih h
      refine ⟨by omega, ?_, h3⟩
      rw [show i - n = i - (n + 1) + 1 by omega, List.getElem?_cons_succ, h2]

theorem Config.lookup_some {c : Config} {a : U32} {i : Nat} {e : Entry} (h : c.lookup a = some (i, e)) :
    c.registry[i]? = some e ∧ e ∈ c.registry ∧ e.start ≤ a ∧ a ≤ e.last := by
  obtain ⟨-, h2, h3⟩ := lookupFrom_some h
  rw [Nat.sub_zero] at h2
  simp only [Entry.contains, Bool.and_eq_true, decide_eq_true_eq] at h3
  exact ⟨h2, List.mem_of_getElem? h2, h3⟩

end Sys2Proof
end

