-- ==== Sys2Proof/Laws/Decode.lean ====
section
/-! SUPPORT. The fields of a built command word (30_encoding R53), and what decodes to each command. -/

namespace Sys2Proof

theorem bcwAddr_bcw (h : BitVec 8) (a v : U32) : bcwAddr (bcw h a v) = a := by
  ext i hi
  simp only [bcwAddr, bcw, BitVec.getElem_extractLsb', BitVec.getLsbD_append]
  rw [if_neg (by omega), if_pos (by omega), show 32 + i - 32 = i by omega, BitVec.getLsbD_eq_getElem hi]

theorem bcwValue_bcw (h : BitVec 8) (a v : U32) : bcwValue (bcw h a v) = v := by
  ext i hi
  simp only [bcwValue, bcw, BitVec.getElem_extractLsb', BitVec.getLsbD_append]
  rw [if_pos (by omega), Nat.zero_add, BitVec.getLsbD_eq_getElem hi]

theorem bcwRsv_bcw (h : BitVec 8) (a v : U32) : bcwRsv (bcw h a v) = h.extractLsb' 4 4 := by
  ext i hi
  simp only [bcwRsv, bcw, BitVec.getElem_extractLsb', BitVec.getLsbD_append]
  rw [if_neg (by omega), if_neg (by omega), show 68 + i - 32 - 32 = 4 + i by omega]

theorem bcwSz_bcw (h : BitVec 8) (a v : U32) : bcwSz (bcw h a v) = h.extractLsb' 2 2 := by
  ext i hi
  simp only [bcwSz, bcw, BitVec.getElem_extractLsb', BitVec.getLsbD_append]
  rw [if_neg (by omega), if_neg (by omega), show 66 + i - 32 - 32 = 2 + i by omega]

theorem bcwK_bcw (h : BitVec 8) (a v : U32) : bcwK (bcw h a v) = h.extractLsb' 0 2 := by
  ext i hi
  simp only [bcwK, bcw, BitVec.getElem_extractLsb', BitVec.getLsbD_append]
  rw [if_neg (by omega), if_neg (by omega), show 64 + i - 32 - 32 = 0 + i by omega]

/-- R53: the number a built word is. -/
theorem bcw_toNat (h : BitVec 8) (a v : U32) :
    (bcw h a v).toNat = h.toNat * 2 ^ 64 + a.toNat * 2 ^ 32 + v.toNat := by
  have h1 := a.isLt
  have h2 := v.isLt
  simp only [bcw, BitVec.toNat_append]
  rw [← Nat.shiftLeft_add_eq_or_of_lt h1, ← Nat.shiftLeft_add_eq_or_of_lt h2]
  simp only [Nat.shiftLeft_eq]
  omega

/-- R53: the fields of a word, as numbers. -/
theorem bcw_fields_toNat (w : BusWord) :
    (bcwRsv w).toNat = w.toNat / 2 ^ 68 ∧ (bcwSz w).toNat = w.toNat / 2 ^ 66 % 4 ∧
      (bcwK w).toNat = w.toNat / 2 ^ 64 % 4 ∧ (bcwAddr w).toNat = w.toNat / 2 ^ 32 % 2 ^ 32 ∧
      (bcwValue w).toNat = w.toNat % 2 ^ 32 := by
  have h := w.isLt
  refine ⟨?_, ?_, ?_, ?_, ?_⟩ <;>
    simp only [bcwRsv, bcwSz, bcwK, bcwAddr, bcwValue, BitVec.extractLsb'_toNat, Nat.shiftRight_eq_div_pow] <;> omega

/-- A word whose checks all pass is a command. -/
theorem decode_of_none {w : BusWord} (h : illegalReason w = none) : decode w =
    if bcwK w = 2 then .tick
    else if bcwK w = 0 then
      if bcwSz w = 0 then .readB (bcwAddr w) else if bcwSz w = 1 then .readH (bcwAddr w) else .readW (bcwAddr w)
    else
      if bcwSz w = 0 then .writeB (bcwAddr w) (bcwValue w)
      else if bcwSz w = 1 then .writeH (bcwAddr w) (bcwValue w)
      else .writeW (bcwAddr w) (bcwValue w) := by
  unfold decode; rw [h]

theorem decode_of_some {w : BusWord} {code : FaultCode} (h : illegalReason w = some code) : decode w = .illegal w := by
  unfold decode; rw [h]

end Sys2Proof
end

