-- ==== Sys2Proof/Laws/Memory.lean ====
section
/-! SUPPORT. A memory in canonical form: what reads give after writes, and that every write keeps the form. -/

namespace Sys2Proof.Machine

theorem Memory_wf_cons (k : Nat) (v : Byte) (m : Memory) :
    Memory.wf ((k, v) :: m) = true ↔ v ≠ 0 ∧ Memory.wf m = true ∧ ∀ c ∈ m, k < c.1 := by
  induction m generalizing k v with
  | nil => simp [Memory.wf]
  | cons c m ih =>
    obtain ⟨j, w⟩ := c
    have hj := ih j w
    constructor
    · intro h
      simp only [Memory.wf, Bool.and_eq_true, bne_iff_ne, ne_eq, decide_eq_true_eq] at h
      obtain ⟨⟨hv, hk⟩, hm⟩ := h
      refine ⟨hv, hm, ?_⟩
      intro c hc
      rcases List.mem_cons.1 hc with rfl | hc
      · exact hk
      · exact Nat.lt_trans hk ((hj.1 hm).2.2 c hc)
    · rintro ⟨hv, hm, hk⟩
      simp only [Memory.wf, Bool.and_eq_true, bne_iff_ne, ne_eq, decide_eq_true_eq]
      exact ⟨⟨hv, hk (j, w) (List.mem_cons_self ..)⟩, hm⟩

theorem Memory_below_iff (n : Nat) (m : Memory) : Memory.below n m = true ↔ ∀ c ∈ m, c.1 < n := by
  simp [Memory.below]

/-- A key below every listed one reads 0. -/
theorem Memory_get_of_lt (m : Memory) (a : Nat) (h : ∀ c ∈ m, a < c.1) : Memory.get m a = 0 := by
  induction m with
  | nil => rfl
  | cons c m ih =>
    have hc := h c (List.mem_cons_self ..)
    simp only [Memory.get, if_neg (Nat.ne_of_gt hc)]
    exact ih fun d hd => h d (List.mem_cons_of_mem _ hd)

theorem Memory_get_put_other (m : Memory) (a a' : Nat) (b : Byte) (h : a' ≠ a) :
    Memory.get (Memory.put m a b) a' = Memory.get m a' := by
  induction m with
  | nil => by_cases hb : b = 0#8 <;> simp [Memory.put, Memory.get, hb, h.symm]
  | cons c m ih =>
    obtain ⟨k, v⟩ := c
    by_cases h1 : a < k
    · by_cases hb : b = 0#8 <;> simp [Memory.put, Memory.get, h1, hb, h.symm]
    · by_cases h2 : a = k
      · subst h2
        by_cases hb : b = 0#8 <;> simp [Memory.put, Memory.get, hb, h.symm]
      · simp only [Memory.put, Memory.get, h1, h2, if_false, ih]

theorem Memory_get_put_same (m : Memory) (a : Nat) (b : Byte) (h : Memory.wf m = true) :
    Memory.get (Memory.put m a b) a = b := by
  induction m with
  | nil => by_cases hb : b = 0#8 <;> simp [Memory.put, Memory.get, hb]
  | cons c m ih =>
    obtain ⟨k, v⟩ := c
    obtain ⟨_, hm, hk⟩ := (Memory_wf_cons k v m).1 h
    by_cases h1 : a < k
    · by_cases hb : b = 0#8
      · simp only [Memory.put, h1, hb, if_true, Memory.get, if_neg (Nat.ne_of_gt h1)]
        exact Memory_get_of_lt m a fun c hc => Nat.lt_trans h1 (hk c hc)
      · simp [Memory.put, Memory.get, h1, hb]
    · by_cases h2 : a = k
      · subst h2
        by_cases hb : b = 0#8
        · simp only [Memory.put, h1, hb, if_true, if_false]
          exact Memory_get_of_lt m a hk
        · simp [Memory.put, Memory.get, hb]
      · simp only [Memory.put, h1, h2, if_false, Memory.get, if_neg (Ne.symm h2)]
        exact ih hm

/-- The keys of a memory after a write are the old ones and the written one. -/
theorem Memory_mem_put (m : Memory) (a : Nat) (b : Byte) (c : Nat × Byte) (h : c ∈ Memory.put m a b) :
    c.1 = a ∨ c ∈ m := by
  induction m with
  | nil =>
    by_cases hb : b = 0#8 <;> simp [Memory.put, hb] at h
    exact Or.inl (by rw [h])
  | cons d m ih =>
    obtain ⟨k, v⟩ := d
    by_cases h1 : a < k
    · by_cases hb : b = 0#8 <;> simp only [Memory.put, h1, hb, if_true, if_false] at h
      · exact Or.inr h
      · rcases List.mem_cons.1 h with rfl | h
        · exact Or.inl rfl
        · exact Or.inr h
    · by_cases h2 : a = k
      · subst h2
        by_cases hb : b = 0#8 <;> simp only [Memory.put, h1, hb, if_true, if_false] at h
        · exact Or.inr (List.mem_cons_of_mem _ h)
        · rcases List.mem_cons.1 h with rfl | h
          · exact Or.inl rfl
          · exact Or.inr (List.mem_cons_of_mem _ h)
      · simp only [Memory.put, h1, h2, if_false] at h
        rcases List.mem_cons.1 h with rfl | h
        · exact Or.inr (List.mem_cons_self ..)
        · rcases ih h with h | h
          · exact Or.inl h
          · exact Or.inr (List.mem_cons_of_mem _ h)

theorem Memory_put_wf (m : Memory) (a : Nat) (b : Byte) (h : Memory.wf m = true) :
    Memory.wf (Memory.put m a b) = true := by
  induction m with
  | nil => by_cases hb : b = 0#8 <;> simp [Memory.put, Memory.wf, hb]
  | cons c m ih =>
    obtain ⟨k, v⟩ := c
    obtain ⟨hv, hm, hk⟩ := (Memory_wf_cons k v m).1 h
    by_cases h1 : a < k
    · by_cases hb : b = 0#8
      · simpa [Memory.put, h1, hb] using h
      · simp only [Memory.put, h1, hb, if_true, if_false]
        refine (Memory_wf_cons _ _ _).2 ⟨hb, h, ?_⟩
        intro c hc
        rcases List.mem_cons.1 hc with rfl | hc
        · exact h1
        · exact Nat.lt_trans h1 (hk c hc)
    · by_cases h2 : a = k
      · subst h2
        by_cases hb : b = 0#8
        · simpa [Memory.put, hb] using hm
        · simp only [Memory.put, h1, hb, if_true, if_false]
          exact (Memory_wf_cons _ _ _).2 ⟨hb, hm, hk⟩
      · simp only [Memory.put, h1, h2, if_false]
        refine (Memory_wf_cons _ _ _).2 ⟨hv, ih hm, ?_⟩
        intro c hc
        rcases Memory_mem_put m a b c hc with hc | hc
        · omega
        · exact hk c hc

theorem Memory_put_below (n : Nat) (m : Memory) (a : Nat) (b : Byte) (h : Memory.below n m = true) (ha : a < n) :
    Memory.below n (Memory.put m a b) = true := by
  rw [Memory_below_iff] at h ⊢
  intro c hc
  rcases Memory_mem_put m a b c hc with hc | hc
  · omega
  · exact h c hc

theorem Memory_putList_wf (l : List Byte) (m : Memory) (a : Nat) (h : Memory.wf m = true) :
    Memory.wf (Memory.putList m a l) = true := by
  induction l generalizing m a with
  | nil => exact h
  | cons b l ih => exact ih _ _ (Memory_put_wf m a b h)

theorem Memory_putList_below (n : Nat) (l : List Byte) (m : Memory) (a : Nat) (h : Memory.below n m = true)
    (ha : a + l.length ≤ n) : Memory.below n (Memory.putList m a l) = true := by
  induction l generalizing m a with
  | nil => exact h
  | cons b l ih =>
    simp only [List.length_cons] at ha
    exact ih _ _ (Memory_put_below n m a b h (by omega)) (by omega)

/-- What a run of written bytes leaves at each key. -/
theorem Memory_get_putList (l : List Byte) (m : Memory) (a x : Nat) (h : Memory.wf m = true) :
    Memory.get (Memory.putList m a l) x =
      if a ≤ x ∧ x < a + l.length then l.getD (x - a) 0 else Memory.get m x := by
  induction l generalizing m a with
  | nil => simp [Memory.putList, show ¬ (a ≤ x ∧ x < a) by omega]
  | cons b l ih =>
    rw [Memory.putList, ih _ _ (Memory_put_wf m a b h)]
    simp only [List.length_cons]
    by_cases hx : x = a
    · subst hx
      simp [Memory_get_put_same m x b h]
    · rw [Memory_get_put_other m a x b hx]
      by_cases h1 : a + 1 ≤ x ∧ x < a + 1 + l.length
      · obtain ⟨j, rfl⟩ : ∃ j, x = a + 1 + j := ⟨x - (a + 1), by omega⟩
        rw [if_pos h1, if_pos (by omega), show a + 1 + j - a = j + 1 by omega, show a + 1 + j - (a + 1) = j by omega]
        simp
      · rw [if_neg h1, if_neg (by omega)]

/-- A range check holds of every address of the range, and of no other. -/
theorem rangeAll_iff (p : Nat → Bool) (a n : Nat) :
    rangeAll p a n = true ↔ ∀ x, a ≤ x → x < a + n → p x = true := by
  induction n generalizing a with
  | zero => simp only [rangeAll, true_iff]; intro x h1 h2; omega
  | succ n ih =>
    simp only [rangeAll, Bool.and_eq_true, ih]
    constructor
    · rintro ⟨h0, h⟩ x h1 h2
      by_cases hx : x = a
      · exact hx ▸ h0
      · exact h x (by omega) (by omega)
    · intro h
      exact ⟨h a (Nat.le_refl _) (by omega), fun x h1 h2 => h x (by omega) (by omega)⟩

end Sys2Proof.Machine
end

