-- ==== Sys2Proof/Laws/State.lean ====
section
/-! SUPPORT. One lemma for each field of State and each named update, so that no proof unfolds a record update; then the
two-domain store. -/

namespace Sys2Proof.Machine

variable (s : State)

@[simp] theorem State.setEnabled_enabled (id : Nat) (b : Bool) : (s.setEnabled id b).enabled = s.enabled.set id b := rfl
@[simp] theorem State.setEnabled_scheduled (id : Nat) (b : Bool) : (s.setEnabled id b).scheduled = s.scheduled := rfl
@[simp] theorem State.setEnabled_activeId (id : Nat) (b : Bool) : (s.setEnabled id b).activeId = s.activeId := rfl
@[simp] theorem State.setEnabled_irqLine (id : Nat) (b : Bool) : (s.setEnabled id b).irqLine = s.irqLine := rfl
@[simp] theorem State.setEnabled_ct (id : Nat) (b : Bool) : (s.setEnabled id b).ct = s.ct := rfl
@[simp] theorem State.setEnabled_clk (id : Nat) (b : Bool) : (s.setEnabled id b).clk = s.clk := rfl
@[simp] theorem State.setEnabled_oc (id : Nat) (b : Bool) : (s.setEnabled id b).oc = s.oc := rfl
@[simp] theorem State.setEnabled_sdma (id : Nat) (b : Bool) : (s.setEnabled id b).sdma = s.sdma := rfl
@[simp] theorem State.setEnabled_pdma (id : Nat) (b : Bool) : (s.setEnabled id b).pdma = s.pdma := rfl
@[simp] theorem State.setEnabled_ram (id : Nat) (b : Bool) : (s.setEnabled id b).ram = s.ram := rfl
@[simp] theorem State.setEnabled_rom (id : Nat) (b : Bool) : (s.setEnabled id b).rom = s.rom := rfl
@[simp] theorem State.setEnabled_backing (id : Nat) (b : Bool) : (s.setEnabled id b).backing = s.backing := rfl
@[simp] theorem State.setEnabled_ext (id : Nat) (b : Bool) : (s.setEnabled id b).ext = s.ext := rfl
@[simp] theorem State.setEnabled_fault (id : Nat) (b : Bool) : (s.setEnabled id b).fault = s.fault := rfl
@[simp] theorem State.setEnabled_ticks (id : Nat) (b : Bool) : (s.setEnabled id b).ticks = s.ticks := rfl
@[simp] theorem State.setEnabled_cfg (id : Nat) (b : Bool) : (s.setEnabled id b).cfg = s.cfg := rfl
@[simp] theorem State.setEnabled_started (id : Nat) (b : Bool) : (s.setEnabled id b).started = s.started := rfl
@[simp] theorem State.setEnabled_inbox (id : Nat) (b : Bool) : (s.setEnabled id b).inbox = s.inbox := rfl
@[simp] theorem State.setEnabled_draws (id : Nat) (b : Bool) : (s.setEnabled id b).draws = s.draws := rfl
@[simp] theorem State.setEnabled_drawsTaken (id : Nat) (b : Bool) : (s.setEnabled id b).drawsTaken = s.drawsTaken := rfl
@[simp] theorem State.setEnabled_reply (id : Nat) (b : Bool) : (s.setEnabled id b).reply = s.reply := rfl
@[simp] theorem State.setEnabled_devOut (id : Nat) (b : Bool) : (s.setEnabled id b).devOut = s.devOut := rfl

@[simp] theorem State.setScheduled_enabled (id : Nat) (v : U32) : (s.setScheduled id v).enabled = s.enabled := rfl
@[simp] theorem State.setScheduled_scheduled (id : Nat) (v : U32) : (s.setScheduled id v).scheduled = s.scheduled.set id v := rfl
@[simp] theorem State.setScheduled_activeId (id : Nat) (v : U32) : (s.setScheduled id v).activeId = s.activeId := rfl
@[simp] theorem State.setScheduled_irqLine (id : Nat) (v : U32) : (s.setScheduled id v).irqLine = s.irqLine := rfl
@[simp] theorem State.setScheduled_ct (id : Nat) (v : U32) : (s.setScheduled id v).ct = s.ct := rfl
@[simp] theorem State.setScheduled_clk (id : Nat) (v : U32) : (s.setScheduled id v).clk = s.clk := rfl
@[simp] theorem State.setScheduled_oc (id : Nat) (v : U32) : (s.setScheduled id v).oc = s.oc := rfl
@[simp] theorem State.setScheduled_sdma (id : Nat) (v : U32) : (s.setScheduled id v).sdma = s.sdma := rfl
@[simp] theorem State.setScheduled_pdma (id : Nat) (v : U32) : (s.setScheduled id v).pdma = s.pdma := rfl
@[simp] theorem State.setScheduled_ram (id : Nat) (v : U32) : (s.setScheduled id v).ram = s.ram := rfl
@[simp] theorem State.setScheduled_rom (id : Nat) (v : U32) : (s.setScheduled id v).rom = s.rom := rfl
@[simp] theorem State.setScheduled_backing (id : Nat) (v : U32) : (s.setScheduled id v).backing = s.backing := rfl
@[simp] theorem State.setScheduled_ext (id : Nat) (v : U32) : (s.setScheduled id v).ext = s.ext := rfl
@[simp] theorem State.setScheduled_fault (id : Nat) (v : U32) : (s.setScheduled id v).fault = s.fault := rfl
@[simp] theorem State.setScheduled_ticks (id : Nat) (v : U32) : (s.setScheduled id v).ticks = s.ticks := rfl
@[simp] theorem State.setScheduled_cfg (id : Nat) (v : U32) : (s.setScheduled id v).cfg = s.cfg := rfl
@[simp] theorem State.setScheduled_started (id : Nat) (v : U32) : (s.setScheduled id v).started = s.started := rfl
@[simp] theorem State.setScheduled_inbox (id : Nat) (v : U32) : (s.setScheduled id v).inbox = s.inbox := rfl
@[simp] theorem State.setScheduled_draws (id : Nat) (v : U32) : (s.setScheduled id v).draws = s.draws := rfl
@[simp] theorem State.setScheduled_drawsTaken (id : Nat) (v : U32) : (s.setScheduled id v).drawsTaken = s.drawsTaken := rfl
@[simp] theorem State.setScheduled_reply (id : Nat) (v : U32) : (s.setScheduled id v).reply = s.reply := rfl
@[simp] theorem State.setScheduled_devOut (id : Nat) (v : U32) : (s.setScheduled id v).devOut = s.devOut := rfl

@[simp] theorem State.setActiveId_enabled (id : Nat) : (s.setActiveId id).enabled = s.enabled := rfl
@[simp] theorem State.setActiveId_scheduled (id : Nat) : (s.setActiveId id).scheduled = s.scheduled := rfl
@[simp] theorem State.setActiveId_activeId (id : Nat) : (s.setActiveId id).activeId = id := rfl
@[simp] theorem State.setActiveId_irqLine (id : Nat) : (s.setActiveId id).irqLine = s.irqLine := rfl
@[simp] theorem State.setActiveId_ct (id : Nat) : (s.setActiveId id).ct = s.ct := rfl
@[simp] theorem State.setActiveId_clk (id : Nat) : (s.setActiveId id).clk = s.clk := rfl
@[simp] theorem State.setActiveId_oc (id : Nat) : (s.setActiveId id).oc = s.oc := rfl
@[simp] theorem State.setActiveId_sdma (id : Nat) : (s.setActiveId id).sdma = s.sdma := rfl
@[simp] theorem State.setActiveId_pdma (id : Nat) : (s.setActiveId id).pdma = s.pdma := rfl
@[simp] theorem State.setActiveId_ram (id : Nat) : (s.setActiveId id).ram = s.ram := rfl
@[simp] theorem State.setActiveId_rom (id : Nat) : (s.setActiveId id).rom = s.rom := rfl
@[simp] theorem State.setActiveId_backing (id : Nat) : (s.setActiveId id).backing = s.backing := rfl
@[simp] theorem State.setActiveId_ext (id : Nat) : (s.setActiveId id).ext = s.ext := rfl
@[simp] theorem State.setActiveId_fault (id : Nat) : (s.setActiveId id).fault = s.fault := rfl
@[simp] theorem State.setActiveId_ticks (id : Nat) : (s.setActiveId id).ticks = s.ticks := rfl
@[simp] theorem State.setActiveId_cfg (id : Nat) : (s.setActiveId id).cfg = s.cfg := rfl
@[simp] theorem State.setActiveId_started (id : Nat) : (s.setActiveId id).started = s.started := rfl
@[simp] theorem State.setActiveId_inbox (id : Nat) : (s.setActiveId id).inbox = s.inbox := rfl
@[simp] theorem State.setActiveId_draws (id : Nat) : (s.setActiveId id).draws = s.draws := rfl
@[simp] theorem State.setActiveId_drawsTaken (id : Nat) : (s.setActiveId id).drawsTaken = s.drawsTaken := rfl
@[simp] theorem State.setActiveId_reply (id : Nat) : (s.setActiveId id).reply = s.reply := rfl
@[simp] theorem State.setActiveId_devOut (id : Nat) : (s.setActiveId id).devOut = s.devOut := rfl

@[simp] theorem State.assertLine_enabled : (s.assertLine).enabled = s.enabled := rfl
@[simp] theorem State.assertLine_scheduled : (s.assertLine).scheduled = s.scheduled := rfl
@[simp] theorem State.assertLine_activeId : (s.assertLine).activeId = s.activeId := rfl
@[simp] theorem State.assertLine_irqLine : (s.assertLine).irqLine = true := rfl
@[simp] theorem State.assertLine_ct : (s.assertLine).ct = s.ct := rfl
@[simp] theorem State.assertLine_clk : (s.assertLine).clk = s.clk := rfl
@[simp] theorem State.assertLine_oc : (s.assertLine).oc = s.oc := rfl
@[simp] theorem State.assertLine_sdma : (s.assertLine).sdma = s.sdma := rfl
@[simp] theorem State.assertLine_pdma : (s.assertLine).pdma = s.pdma := rfl
@[simp] theorem State.assertLine_ram : (s.assertLine).ram = s.ram := rfl
@[simp] theorem State.assertLine_rom : (s.assertLine).rom = s.rom := rfl
@[simp] theorem State.assertLine_backing : (s.assertLine).backing = s.backing := rfl
@[simp] theorem State.assertLine_ext : (s.assertLine).ext = s.ext := rfl
@[simp] theorem State.assertLine_fault : (s.assertLine).fault = s.fault := rfl
@[simp] theorem State.assertLine_ticks : (s.assertLine).ticks = s.ticks := rfl
@[simp] theorem State.assertLine_cfg : (s.assertLine).cfg = s.cfg := rfl
@[simp] theorem State.assertLine_started : (s.assertLine).started = s.started := rfl
@[simp] theorem State.assertLine_inbox : (s.assertLine).inbox = s.inbox := rfl
@[simp] theorem State.assertLine_draws : (s.assertLine).draws = s.draws := rfl
@[simp] theorem State.assertLine_drawsTaken : (s.assertLine).drawsTaken = s.drawsTaken := rfl
@[simp] theorem State.assertLine_reply : (s.assertLine).reply = s.reply := rfl
@[simp] theorem State.assertLine_devOut : (s.assertLine).devOut = s.devOut := rfl

@[simp] theorem State.deassertLine_enabled : (s.deassertLine).enabled = s.enabled := rfl
@[simp] theorem State.deassertLine_scheduled : (s.deassertLine).scheduled = s.scheduled := rfl
@[simp] theorem State.deassertLine_activeId : (s.deassertLine).activeId = s.activeId := rfl
@[simp] theorem State.deassertLine_irqLine : (s.deassertLine).irqLine = false := rfl
@[simp] theorem State.deassertLine_ct : (s.deassertLine).ct = s.ct := rfl
@[simp] theorem State.deassertLine_clk : (s.deassertLine).clk = s.clk := rfl
@[simp] theorem State.deassertLine_oc : (s.deassertLine).oc = s.oc := rfl
@[simp] theorem State.deassertLine_sdma : (s.deassertLine).sdma = s.sdma := rfl
@[simp] theorem State.deassertLine_pdma : (s.deassertLine).pdma = s.pdma := rfl
@[simp] theorem State.deassertLine_ram : (s.deassertLine).ram = s.ram := rfl
@[simp] theorem State.deassertLine_rom : (s.deassertLine).rom = s.rom := rfl
@[simp] theorem State.deassertLine_backing : (s.deassertLine).backing = s.backing := rfl
@[simp] theorem State.deassertLine_ext : (s.deassertLine).ext = s.ext := rfl
@[simp] theorem State.deassertLine_fault : (s.deassertLine).fault = s.fault := rfl
@[simp] theorem State.deassertLine_ticks : (s.deassertLine).ticks = s.ticks := rfl
@[simp] theorem State.deassertLine_cfg : (s.deassertLine).cfg = s.cfg := rfl
@[simp] theorem State.deassertLine_started : (s.deassertLine).started = s.started := rfl
@[simp] theorem State.deassertLine_inbox : (s.deassertLine).inbox = s.inbox := rfl
@[simp] theorem State.deassertLine_draws : (s.deassertLine).draws = s.draws := rfl
@[simp] theorem State.deassertLine_drawsTaken : (s.deassertLine).drawsTaken = s.drawsTaken := rfl
@[simp] theorem State.deassertLine_reply : (s.deassertLine).reply = s.reply := rfl
@[simp] theorem State.deassertLine_devOut : (s.deassertLine).devOut = s.devOut := rfl

@[simp] theorem State.setCt_enabled (k : Nat) (t : Countdown) : (s.setCt k t).enabled = s.enabled := rfl
@[simp] theorem State.setCt_scheduled (k : Nat) (t : Countdown) : (s.setCt k t).scheduled = s.scheduled := rfl
@[simp] theorem State.setCt_activeId (k : Nat) (t : Countdown) : (s.setCt k t).activeId = s.activeId := rfl
@[simp] theorem State.setCt_irqLine (k : Nat) (t : Countdown) : (s.setCt k t).irqLine = s.irqLine := rfl
@[simp] theorem State.setCt_ct (k : Nat) (t : Countdown) : (s.setCt k t).ct = s.ct.set k t := rfl
@[simp] theorem State.setCt_clk (k : Nat) (t : Countdown) : (s.setCt k t).clk = s.clk := rfl
@[simp] theorem State.setCt_oc (k : Nat) (t : Countdown) : (s.setCt k t).oc = s.oc := rfl
@[simp] theorem State.setCt_sdma (k : Nat) (t : Countdown) : (s.setCt k t).sdma = s.sdma := rfl
@[simp] theorem State.setCt_pdma (k : Nat) (t : Countdown) : (s.setCt k t).pdma = s.pdma := rfl
@[simp] theorem State.setCt_ram (k : Nat) (t : Countdown) : (s.setCt k t).ram = s.ram := rfl
@[simp] theorem State.setCt_rom (k : Nat) (t : Countdown) : (s.setCt k t).rom = s.rom := rfl
@[simp] theorem State.setCt_backing (k : Nat) (t : Countdown) : (s.setCt k t).backing = s.backing := rfl
@[simp] theorem State.setCt_ext (k : Nat) (t : Countdown) : (s.setCt k t).ext = s.ext := rfl
@[simp] theorem State.setCt_fault (k : Nat) (t : Countdown) : (s.setCt k t).fault = s.fault := rfl
@[simp] theorem State.setCt_ticks (k : Nat) (t : Countdown) : (s.setCt k t).ticks = s.ticks := rfl
@[simp] theorem State.setCt_cfg (k : Nat) (t : Countdown) : (s.setCt k t).cfg = s.cfg := rfl
@[simp] theorem State.setCt_started (k : Nat) (t : Countdown) : (s.setCt k t).started = s.started := rfl
@[simp] theorem State.setCt_inbox (k : Nat) (t : Countdown) : (s.setCt k t).inbox = s.inbox := rfl
@[simp] theorem State.setCt_draws (k : Nat) (t : Countdown) : (s.setCt k t).draws = s.draws := rfl
@[simp] theorem State.setCt_drawsTaken (k : Nat) (t : Countdown) : (s.setCt k t).drawsTaken = s.drawsTaken := rfl
@[simp] theorem State.setCt_reply (k : Nat) (t : Countdown) : (s.setCt k t).reply = s.reply := rfl
@[simp] theorem State.setCt_devOut (k : Nat) (t : Countdown) : (s.setCt k t).devOut = s.devOut := rfl

@[simp] theorem State.setCts_enabled (l : List Countdown) : (s.setCts l).enabled = s.enabled := rfl
@[simp] theorem State.setCts_scheduled (l : List Countdown) : (s.setCts l).scheduled = s.scheduled := rfl
@[simp] theorem State.setCts_activeId (l : List Countdown) : (s.setCts l).activeId = s.activeId := rfl
@[simp] theorem State.setCts_irqLine (l : List Countdown) : (s.setCts l).irqLine = s.irqLine := rfl
@[simp] theorem State.setCts_ct (l : List Countdown) : (s.setCts l).ct = l := rfl
@[simp] theorem State.setCts_clk (l : List Countdown) : (s.setCts l).clk = s.clk := rfl
@[simp] theorem State.setCts_oc (l : List Countdown) : (s.setCts l).oc = s.oc := rfl
@[simp] theorem State.setCts_sdma (l : List Countdown) : (s.setCts l).sdma = s.sdma := rfl
@[simp] theorem State.setCts_pdma (l : List Countdown) : (s.setCts l).pdma = s.pdma := rfl
@[simp] theorem State.setCts_ram (l : List Countdown) : (s.setCts l).ram = s.ram := rfl
@[simp] theorem State.setCts_rom (l : List Countdown) : (s.setCts l).rom = s.rom := rfl
@[simp] theorem State.setCts_backing (l : List Countdown) : (s.setCts l).backing = s.backing := rfl
@[simp] theorem State.setCts_ext (l : List Countdown) : (s.setCts l).ext = s.ext := rfl
@[simp] theorem State.setCts_fault (l : List Countdown) : (s.setCts l).fault = s.fault := rfl
@[simp] theorem State.setCts_ticks (l : List Countdown) : (s.setCts l).ticks = s.ticks := rfl
@[simp] theorem State.setCts_cfg (l : List Countdown) : (s.setCts l).cfg = s.cfg := rfl
@[simp] theorem State.setCts_started (l : List Countdown) : (s.setCts l).started = s.started := rfl
@[simp] theorem State.setCts_inbox (l : List Countdown) : (s.setCts l).inbox = s.inbox := rfl
@[simp] theorem State.setCts_draws (l : List Countdown) : (s.setCts l).draws = s.draws := rfl
@[simp] theorem State.setCts_drawsTaken (l : List Countdown) : (s.setCts l).drawsTaken = s.drawsTaken := rfl
@[simp] theorem State.setCts_reply (l : List Countdown) : (s.setCts l).reply = s.reply := rfl
@[simp] theorem State.setCts_devOut (l : List Countdown) : (s.setCts l).devOut = s.devOut := rfl

@[simp] theorem State.setClk_enabled (d : Domain) (v : U32) : (s.setClk d v).enabled = s.enabled := rfl
@[simp] theorem State.setClk_scheduled (d : Domain) (v : U32) : (s.setClk d v).scheduled = s.scheduled := rfl
@[simp] theorem State.setClk_activeId (d : Domain) (v : U32) : (s.setClk d v).activeId = s.activeId := rfl
@[simp] theorem State.setClk_irqLine (d : Domain) (v : U32) : (s.setClk d v).irqLine = s.irqLine := rfl
@[simp] theorem State.setClk_ct (d : Domain) (v : U32) : (s.setClk d v).ct = s.ct := rfl
@[simp] theorem State.setClk_clk (d : Domain) (v : U32) : (s.setClk d v).clk = s.clk.set d v := rfl
@[simp] theorem State.setClk_oc (d : Domain) (v : U32) : (s.setClk d v).oc = s.oc := rfl
@[simp] theorem State.setClk_sdma (d : Domain) (v : U32) : (s.setClk d v).sdma = s.sdma := rfl
@[simp] theorem State.setClk_pdma (d : Domain) (v : U32) : (s.setClk d v).pdma = s.pdma := rfl
@[simp] theorem State.setClk_ram (d : Domain) (v : U32) : (s.setClk d v).ram = s.ram := rfl
@[simp] theorem State.setClk_rom (d : Domain) (v : U32) : (s.setClk d v).rom = s.rom := rfl
@[simp] theorem State.setClk_backing (d : Domain) (v : U32) : (s.setClk d v).backing = s.backing := rfl
@[simp] theorem State.setClk_ext (d : Domain) (v : U32) : (s.setClk d v).ext = s.ext := rfl
@[simp] theorem State.setClk_fault (d : Domain) (v : U32) : (s.setClk d v).fault = s.fault := rfl
@[simp] theorem State.setClk_ticks (d : Domain) (v : U32) : (s.setClk d v).ticks = s.ticks := rfl
@[simp] theorem State.setClk_cfg (d : Domain) (v : U32) : (s.setClk d v).cfg = s.cfg := rfl
@[simp] theorem State.setClk_started (d : Domain) (v : U32) : (s.setClk d v).started = s.started := rfl
@[simp] theorem State.setClk_inbox (d : Domain) (v : U32) : (s.setClk d v).inbox = s.inbox := rfl
@[simp] theorem State.setClk_draws (d : Domain) (v : U32) : (s.setClk d v).draws = s.draws := rfl
@[simp] theorem State.setClk_drawsTaken (d : Domain) (v : U32) : (s.setClk d v).drawsTaken = s.drawsTaken := rfl
@[simp] theorem State.setClk_reply (d : Domain) (v : U32) : (s.setClk d v).reply = s.reply := rfl
@[simp] theorem State.setClk_devOut (d : Domain) (v : U32) : (s.setClk d v).devOut = s.devOut := rfl

@[simp] theorem State.setOc_enabled (d : Domain) (k : Nat) (o : OutputCompare) : (s.setOc d k o).enabled = s.enabled := rfl
@[simp] theorem State.setOc_scheduled (d : Domain) (k : Nat) (o : OutputCompare) : (s.setOc d k o).scheduled = s.scheduled := rfl
@[simp] theorem State.setOc_activeId (d : Domain) (k : Nat) (o : OutputCompare) : (s.setOc d k o).activeId = s.activeId := rfl
@[simp] theorem State.setOc_irqLine (d : Domain) (k : Nat) (o : OutputCompare) : (s.setOc d k o).irqLine = s.irqLine := rfl
@[simp] theorem State.setOc_ct (d : Domain) (k : Nat) (o : OutputCompare) : (s.setOc d k o).ct = s.ct := rfl
@[simp] theorem State.setOc_clk (d : Domain) (k : Nat) (o : OutputCompare) : (s.setOc d k o).clk = s.clk := rfl
@[simp] theorem State.setOc_oc (d : Domain) (k : Nat) (o : OutputCompare) : (s.setOc d k o).oc = s.oc.set d ((s.oc.get d).set k o) := rfl
@[simp] theorem State.setOc_sdma (d : Domain) (k : Nat) (o : OutputCompare) : (s.setOc d k o).sdma = s.sdma := rfl
@[simp] theorem State.setOc_pdma (d : Domain) (k : Nat) (o : OutputCompare) : (s.setOc d k o).pdma = s.pdma := rfl
@[simp] theorem State.setOc_ram (d : Domain) (k : Nat) (o : OutputCompare) : (s.setOc d k o).ram = s.ram := rfl
@[simp] theorem State.setOc_rom (d : Domain) (k : Nat) (o : OutputCompare) : (s.setOc d k o).rom = s.rom := rfl
@[simp] theorem State.setOc_backing (d : Domain) (k : Nat) (o : OutputCompare) : (s.setOc d k o).backing = s.backing := rfl
@[simp] theorem State.setOc_ext (d : Domain) (k : Nat) (o : OutputCompare) : (s.setOc d k o).ext = s.ext := rfl
@[simp] theorem State.setOc_fault (d : Domain) (k : Nat) (o : OutputCompare) : (s.setOc d k o).fault = s.fault := rfl
@[simp] theorem State.setOc_ticks (d : Domain) (k : Nat) (o : OutputCompare) : (s.setOc d k o).ticks = s.ticks := rfl
@[simp] theorem State.setOc_cfg (d : Domain) (k : Nat) (o : OutputCompare) : (s.setOc d k o).cfg = s.cfg := rfl
@[simp] theorem State.setOc_started (d : Domain) (k : Nat) (o : OutputCompare) : (s.setOc d k o).started = s.started := rfl
@[simp] theorem State.setOc_inbox (d : Domain) (k : Nat) (o : OutputCompare) : (s.setOc d k o).inbox = s.inbox := rfl
@[simp] theorem State.setOc_draws (d : Domain) (k : Nat) (o : OutputCompare) : (s.setOc d k o).draws = s.draws := rfl
@[simp] theorem State.setOc_drawsTaken (d : Domain) (k : Nat) (o : OutputCompare) : (s.setOc d k o).drawsTaken = s.drawsTaken := rfl
@[simp] theorem State.setOc_reply (d : Domain) (k : Nat) (o : OutputCompare) : (s.setOc d k o).reply = s.reply := rfl
@[simp] theorem State.setOc_devOut (d : Domain) (k : Nat) (o : OutputCompare) : (s.setOc d k o).devOut = s.devOut := rfl

@[simp] theorem State.setOcs_enabled (d : Domain) (l : List OutputCompare) : (s.setOcs d l).enabled = s.enabled := rfl
@[simp] theorem State.setOcs_scheduled (d : Domain) (l : List OutputCompare) : (s.setOcs d l).scheduled = s.scheduled := rfl
@[simp] theorem State.setOcs_activeId (d : Domain) (l : List OutputCompare) : (s.setOcs d l).activeId = s.activeId := rfl
@[simp] theorem State.setOcs_irqLine (d : Domain) (l : List OutputCompare) : (s.setOcs d l).irqLine = s.irqLine := rfl
@[simp] theorem State.setOcs_ct (d : Domain) (l : List OutputCompare) : (s.setOcs d l).ct = s.ct := rfl
@[simp] theorem State.setOcs_clk (d : Domain) (l : List OutputCompare) : (s.setOcs d l).clk = s.clk := rfl
@[simp] theorem State.setOcs_oc (d : Domain) (l : List OutputCompare) : (s.setOcs d l).oc = s.oc.set d l := rfl
@[simp] theorem State.setOcs_sdma (d : Domain) (l : List OutputCompare) : (s.setOcs d l).sdma = s.sdma := rfl
@[simp] theorem State.setOcs_pdma (d : Domain) (l : List OutputCompare) : (s.setOcs d l).pdma = s.pdma := rfl
@[simp] theorem State.setOcs_ram (d : Domain) (l : List OutputCompare) : (s.setOcs d l).ram = s.ram := rfl
@[simp] theorem State.setOcs_rom (d : Domain) (l : List OutputCompare) : (s.setOcs d l).rom = s.rom := rfl
@[simp] theorem State.setOcs_backing (d : Domain) (l : List OutputCompare) : (s.setOcs d l).backing = s.backing := rfl
@[simp] theorem State.setOcs_ext (d : Domain) (l : List OutputCompare) : (s.setOcs d l).ext = s.ext := rfl
@[simp] theorem State.setOcs_fault (d : Domain) (l : List OutputCompare) : (s.setOcs d l).fault = s.fault := rfl
@[simp] theorem State.setOcs_ticks (d : Domain) (l : List OutputCompare) : (s.setOcs d l).ticks = s.ticks := rfl
@[simp] theorem State.setOcs_cfg (d : Domain) (l : List OutputCompare) : (s.setOcs d l).cfg = s.cfg := rfl
@[simp] theorem State.setOcs_started (d : Domain) (l : List OutputCompare) : (s.setOcs d l).started = s.started := rfl
@[simp] theorem State.setOcs_inbox (d : Domain) (l : List OutputCompare) : (s.setOcs d l).inbox = s.inbox := rfl
@[simp] theorem State.setOcs_draws (d : Domain) (l : List OutputCompare) : (s.setOcs d l).draws = s.draws := rfl
@[simp] theorem State.setOcs_drawsTaken (d : Domain) (l : List OutputCompare) : (s.setOcs d l).drawsTaken = s.drawsTaken := rfl
@[simp] theorem State.setOcs_reply (d : Domain) (l : List OutputCompare) : (s.setOcs d l).reply = s.reply := rfl
@[simp] theorem State.setOcs_devOut (d : Domain) (l : List OutputCompare) : (s.setOcs d l).devOut = s.devOut := rfl

@[simp] theorem State.setSdma_enabled (c : Nat) (x : SyncDma) : (s.setSdma c x).enabled = s.enabled := rfl
@[simp] theorem State.setSdma_scheduled (c : Nat) (x : SyncDma) : (s.setSdma c x).scheduled = s.scheduled := rfl
@[simp] theorem State.setSdma_activeId (c : Nat) (x : SyncDma) : (s.setSdma c x).activeId = s.activeId := rfl
@[simp] theorem State.setSdma_irqLine (c : Nat) (x : SyncDma) : (s.setSdma c x).irqLine = s.irqLine := rfl
@[simp] theorem State.setSdma_ct (c : Nat) (x : SyncDma) : (s.setSdma c x).ct = s.ct := rfl
@[simp] theorem State.setSdma_clk (c : Nat) (x : SyncDma) : (s.setSdma c x).clk = s.clk := rfl
@[simp] theorem State.setSdma_oc (c : Nat) (x : SyncDma) : (s.setSdma c x).oc = s.oc := rfl
@[simp] theorem State.setSdma_sdma (c : Nat) (x : SyncDma) : (s.setSdma c x).sdma = s.sdma.set c x := rfl
@[simp] theorem State.setSdma_pdma (c : Nat) (x : SyncDma) : (s.setSdma c x).pdma = s.pdma := rfl
@[simp] theorem State.setSdma_ram (c : Nat) (x : SyncDma) : (s.setSdma c x).ram = s.ram := rfl
@[simp] theorem State.setSdma_rom (c : Nat) (x : SyncDma) : (s.setSdma c x).rom = s.rom := rfl
@[simp] theorem State.setSdma_backing (c : Nat) (x : SyncDma) : (s.setSdma c x).backing = s.backing := rfl
@[simp] theorem State.setSdma_ext (c : Nat) (x : SyncDma) : (s.setSdma c x).ext = s.ext := rfl
@[simp] theorem State.setSdma_fault (c : Nat) (x : SyncDma) : (s.setSdma c x).fault = s.fault := rfl
@[simp] theorem State.setSdma_ticks (c : Nat) (x : SyncDma) : (s.setSdma c x).ticks = s.ticks := rfl
@[simp] theorem State.setSdma_cfg (c : Nat) (x : SyncDma) : (s.setSdma c x).cfg = s.cfg := rfl
@[simp] theorem State.setSdma_started (c : Nat) (x : SyncDma) : (s.setSdma c x).started = s.started := rfl
@[simp] theorem State.setSdma_inbox (c : Nat) (x : SyncDma) : (s.setSdma c x).inbox = s.inbox := rfl
@[simp] theorem State.setSdma_draws (c : Nat) (x : SyncDma) : (s.setSdma c x).draws = s.draws := rfl
@[simp] theorem State.setSdma_drawsTaken (c : Nat) (x : SyncDma) : (s.setSdma c x).drawsTaken = s.drawsTaken := rfl
@[simp] theorem State.setSdma_reply (c : Nat) (x : SyncDma) : (s.setSdma c x).reply = s.reply := rfl
@[simp] theorem State.setSdma_devOut (c : Nat) (x : SyncDma) : (s.setSdma c x).devOut = s.devOut := rfl

@[simp] theorem State.setPdma_enabled (c : Nat) (x : PolledDma) : (s.setPdma c x).enabled = s.enabled := rfl
@[simp] theorem State.setPdma_scheduled (c : Nat) (x : PolledDma) : (s.setPdma c x).scheduled = s.scheduled := rfl
@[simp] theorem State.setPdma_activeId (c : Nat) (x : PolledDma) : (s.setPdma c x).activeId = s.activeId := rfl
@[simp] theorem State.setPdma_irqLine (c : Nat) (x : PolledDma) : (s.setPdma c x).irqLine = s.irqLine := rfl
@[simp] theorem State.setPdma_ct (c : Nat) (x : PolledDma) : (s.setPdma c x).ct = s.ct := rfl
@[simp] theorem State.setPdma_clk (c : Nat) (x : PolledDma) : (s.setPdma c x).clk = s.clk := rfl
@[simp] theorem State.setPdma_oc (c : Nat) (x : PolledDma) : (s.setPdma c x).oc = s.oc := rfl
@[simp] theorem State.setPdma_sdma (c : Nat) (x : PolledDma) : (s.setPdma c x).sdma = s.sdma := rfl
@[simp] theorem State.setPdma_pdma (c : Nat) (x : PolledDma) : (s.setPdma c x).pdma = s.pdma.set c x := rfl
@[simp] theorem State.setPdma_ram (c : Nat) (x : PolledDma) : (s.setPdma c x).ram = s.ram := rfl
@[simp] theorem State.setPdma_rom (c : Nat) (x : PolledDma) : (s.setPdma c x).rom = s.rom := rfl
@[simp] theorem State.setPdma_backing (c : Nat) (x : PolledDma) : (s.setPdma c x).backing = s.backing := rfl
@[simp] theorem State.setPdma_ext (c : Nat) (x : PolledDma) : (s.setPdma c x).ext = s.ext := rfl
@[simp] theorem State.setPdma_fault (c : Nat) (x : PolledDma) : (s.setPdma c x).fault = s.fault := rfl
@[simp] theorem State.setPdma_ticks (c : Nat) (x : PolledDma) : (s.setPdma c x).ticks = s.ticks := rfl
@[simp] theorem State.setPdma_cfg (c : Nat) (x : PolledDma) : (s.setPdma c x).cfg = s.cfg := rfl
@[simp] theorem State.setPdma_started (c : Nat) (x : PolledDma) : (s.setPdma c x).started = s.started := rfl
@[simp] theorem State.setPdma_inbox (c : Nat) (x : PolledDma) : (s.setPdma c x).inbox = s.inbox := rfl
@[simp] theorem State.setPdma_draws (c : Nat) (x : PolledDma) : (s.setPdma c x).draws = s.draws := rfl
@[simp] theorem State.setPdma_drawsTaken (c : Nat) (x : PolledDma) : (s.setPdma c x).drawsTaken = s.drawsTaken := rfl
@[simp] theorem State.setPdma_reply (c : Nat) (x : PolledDma) : (s.setPdma c x).reply = s.reply := rfl
@[simp] theorem State.setPdma_devOut (c : Nat) (x : PolledDma) : (s.setPdma c x).devOut = s.devOut := rfl

@[simp] theorem State.setRam_enabled (m : Memory) : (s.setRam m).enabled = s.enabled := rfl
@[simp] theorem State.setRam_scheduled (m : Memory) : (s.setRam m).scheduled = s.scheduled := rfl
@[simp] theorem State.setRam_activeId (m : Memory) : (s.setRam m).activeId = s.activeId := rfl
@[simp] theorem State.setRam_irqLine (m : Memory) : (s.setRam m).irqLine = s.irqLine := rfl
@[simp] theorem State.setRam_ct (m : Memory) : (s.setRam m).ct = s.ct := rfl
@[simp] theorem State.setRam_clk (m : Memory) : (s.setRam m).clk = s.clk := rfl
@[simp] theorem State.setRam_oc (m : Memory) : (s.setRam m).oc = s.oc := rfl
@[simp] theorem State.setRam_sdma (m : Memory) : (s.setRam m).sdma = s.sdma := rfl
@[simp] theorem State.setRam_pdma (m : Memory) : (s.setRam m).pdma = s.pdma := rfl
@[simp] theorem State.setRam_ram (m : Memory) : (s.setRam m).ram = m := rfl
@[simp] theorem State.setRam_rom (m : Memory) : (s.setRam m).rom = s.rom := rfl
@[simp] theorem State.setRam_backing (m : Memory) : (s.setRam m).backing = s.backing := rfl
@[simp] theorem State.setRam_ext (m : Memory) : (s.setRam m).ext = s.ext := rfl
@[simp] theorem State.setRam_fault (m : Memory) : (s.setRam m).fault = s.fault := rfl
@[simp] theorem State.setRam_ticks (m : Memory) : (s.setRam m).ticks = s.ticks := rfl
@[simp] theorem State.setRam_cfg (m : Memory) : (s.setRam m).cfg = s.cfg := rfl
@[simp] theorem State.setRam_started (m : Memory) : (s.setRam m).started = s.started := rfl
@[simp] theorem State.setRam_inbox (m : Memory) : (s.setRam m).inbox = s.inbox := rfl
@[simp] theorem State.setRam_draws (m : Memory) : (s.setRam m).draws = s.draws := rfl
@[simp] theorem State.setRam_drawsTaken (m : Memory) : (s.setRam m).drawsTaken = s.drawsTaken := rfl
@[simp] theorem State.setRam_reply (m : Memory) : (s.setRam m).reply = s.reply := rfl
@[simp] theorem State.setRam_devOut (m : Memory) : (s.setRam m).devOut = s.devOut := rfl

@[simp] theorem State.setBacking_enabled (m : Memory) : (s.setBacking m).enabled = s.enabled := rfl
@[simp] theorem State.setBacking_scheduled (m : Memory) : (s.setBacking m).scheduled = s.scheduled := rfl
@[simp] theorem State.setBacking_activeId (m : Memory) : (s.setBacking m).activeId = s.activeId := rfl
@[simp] theorem State.setBacking_irqLine (m : Memory) : (s.setBacking m).irqLine = s.irqLine := rfl
@[simp] theorem State.setBacking_ct (m : Memory) : (s.setBacking m).ct = s.ct := rfl
@[simp] theorem State.setBacking_clk (m : Memory) : (s.setBacking m).clk = s.clk := rfl
@[simp] theorem State.setBacking_oc (m : Memory) : (s.setBacking m).oc = s.oc := rfl
@[simp] theorem State.setBacking_sdma (m : Memory) : (s.setBacking m).sdma = s.sdma := rfl
@[simp] theorem State.setBacking_pdma (m : Memory) : (s.setBacking m).pdma = s.pdma := rfl
@[simp] theorem State.setBacking_ram (m : Memory) : (s.setBacking m).ram = s.ram := rfl
@[simp] theorem State.setBacking_rom (m : Memory) : (s.setBacking m).rom = s.rom := rfl
@[simp] theorem State.setBacking_backing (m : Memory) : (s.setBacking m).backing = m := rfl
@[simp] theorem State.setBacking_ext (m : Memory) : (s.setBacking m).ext = s.ext := rfl
@[simp] theorem State.setBacking_fault (m : Memory) : (s.setBacking m).fault = s.fault := rfl
@[simp] theorem State.setBacking_ticks (m : Memory) : (s.setBacking m).ticks = s.ticks := rfl
@[simp] theorem State.setBacking_cfg (m : Memory) : (s.setBacking m).cfg = s.cfg := rfl
@[simp] theorem State.setBacking_started (m : Memory) : (s.setBacking m).started = s.started := rfl
@[simp] theorem State.setBacking_inbox (m : Memory) : (s.setBacking m).inbox = s.inbox := rfl
@[simp] theorem State.setBacking_draws (m : Memory) : (s.setBacking m).draws = s.draws := rfl
@[simp] theorem State.setBacking_drawsTaken (m : Memory) : (s.setBacking m).drawsTaken = s.drawsTaken := rfl
@[simp] theorem State.setBacking_reply (m : Memory) : (s.setBacking m).reply = s.reply := rfl
@[simp] theorem State.setBacking_devOut (m : Memory) : (s.setBacking m).devOut = s.devOut := rfl

@[simp] theorem State.setExt_enabled (e : Nat) (x : ExtState) : (s.setExt e x).enabled = s.enabled := rfl
@[simp] theorem State.setExt_scheduled (e : Nat) (x : ExtState) : (s.setExt e x).scheduled = s.scheduled := rfl
@[simp] theorem State.setExt_activeId (e : Nat) (x : ExtState) : (s.setExt e x).activeId = s.activeId := rfl
@[simp] theorem State.setExt_irqLine (e : Nat) (x : ExtState) : (s.setExt e x).irqLine = s.irqLine := rfl
@[simp] theorem State.setExt_ct (e : Nat) (x : ExtState) : (s.setExt e x).ct = s.ct := rfl
@[simp] theorem State.setExt_clk (e : Nat) (x : ExtState) : (s.setExt e x).clk = s.clk := rfl
@[simp] theorem State.setExt_oc (e : Nat) (x : ExtState) : (s.setExt e x).oc = s.oc := rfl
@[simp] theorem State.setExt_sdma (e : Nat) (x : ExtState) : (s.setExt e x).sdma = s.sdma := rfl
@[simp] theorem State.setExt_pdma (e : Nat) (x : ExtState) : (s.setExt e x).pdma = s.pdma := rfl
@[simp] theorem State.setExt_ram (e : Nat) (x : ExtState) : (s.setExt e x).ram = s.ram := rfl
@[simp] theorem State.setExt_rom (e : Nat) (x : ExtState) : (s.setExt e x).rom = s.rom := rfl
@[simp] theorem State.setExt_backing (e : Nat) (x : ExtState) : (s.setExt e x).backing = s.backing := rfl
@[simp] theorem State.setExt_ext (e : Nat) (x : ExtState) : (s.setExt e x).ext = s.ext.set e x := rfl
@[simp] theorem State.setExt_fault (e : Nat) (x : ExtState) : (s.setExt e x).fault = s.fault := rfl
@[simp] theorem State.setExt_ticks (e : Nat) (x : ExtState) : (s.setExt e x).ticks = s.ticks := rfl
@[simp] theorem State.setExt_cfg (e : Nat) (x : ExtState) : (s.setExt e x).cfg = s.cfg := rfl
@[simp] theorem State.setExt_started (e : Nat) (x : ExtState) : (s.setExt e x).started = s.started := rfl
@[simp] theorem State.setExt_inbox (e : Nat) (x : ExtState) : (s.setExt e x).inbox = s.inbox := rfl
@[simp] theorem State.setExt_draws (e : Nat) (x : ExtState) : (s.setExt e x).draws = s.draws := rfl
@[simp] theorem State.setExt_drawsTaken (e : Nat) (x : ExtState) : (s.setExt e x).drawsTaken = s.drawsTaken := rfl
@[simp] theorem State.setExt_reply (e : Nat) (x : ExtState) : (s.setExt e x).reply = s.reply := rfl
@[simp] theorem State.setExt_devOut (e : Nat) (x : ExtState) : (s.setExt e x).devOut = s.devOut := rfl

@[simp] theorem State.setFault_enabled (f : FaultKind × FaultCode) : (s.setFault f).enabled = s.enabled := rfl
@[simp] theorem State.setFault_scheduled (f : FaultKind × FaultCode) : (s.setFault f).scheduled = s.scheduled := rfl
@[simp] theorem State.setFault_activeId (f : FaultKind × FaultCode) : (s.setFault f).activeId = s.activeId := rfl
@[simp] theorem State.setFault_irqLine (f : FaultKind × FaultCode) : (s.setFault f).irqLine = s.irqLine := rfl
@[simp] theorem State.setFault_ct (f : FaultKind × FaultCode) : (s.setFault f).ct = s.ct := rfl
@[simp] theorem State.setFault_clk (f : FaultKind × FaultCode) : (s.setFault f).clk = s.clk := rfl
@[simp] theorem State.setFault_oc (f : FaultKind × FaultCode) : (s.setFault f).oc = s.oc := rfl
@[simp] theorem State.setFault_sdma (f : FaultKind × FaultCode) : (s.setFault f).sdma = s.sdma := rfl
@[simp] theorem State.setFault_pdma (f : FaultKind × FaultCode) : (s.setFault f).pdma = s.pdma := rfl
@[simp] theorem State.setFault_ram (f : FaultKind × FaultCode) : (s.setFault f).ram = s.ram := rfl
@[simp] theorem State.setFault_rom (f : FaultKind × FaultCode) : (s.setFault f).rom = s.rom := rfl
@[simp] theorem State.setFault_backing (f : FaultKind × FaultCode) : (s.setFault f).backing = s.backing := rfl
@[simp] theorem State.setFault_ext (f : FaultKind × FaultCode) : (s.setFault f).ext = s.ext := rfl
@[simp] theorem State.setFault_fault (f : FaultKind × FaultCode) : (s.setFault f).fault = some f := rfl
@[simp] theorem State.setFault_ticks (f : FaultKind × FaultCode) : (s.setFault f).ticks = s.ticks := rfl
@[simp] theorem State.setFault_cfg (f : FaultKind × FaultCode) : (s.setFault f).cfg = s.cfg := rfl
@[simp] theorem State.setFault_started (f : FaultKind × FaultCode) : (s.setFault f).started = s.started := rfl
@[simp] theorem State.setFault_inbox (f : FaultKind × FaultCode) : (s.setFault f).inbox = s.inbox := rfl
@[simp] theorem State.setFault_draws (f : FaultKind × FaultCode) : (s.setFault f).draws = s.draws := rfl
@[simp] theorem State.setFault_drawsTaken (f : FaultKind × FaultCode) : (s.setFault f).drawsTaken = s.drawsTaken := rfl
@[simp] theorem State.setFault_reply (f : FaultKind × FaultCode) : (s.setFault f).reply = s.reply := rfl
@[simp] theorem State.setFault_devOut (f : FaultKind × FaultCode) : (s.setFault f).devOut = s.devOut := rfl

@[simp] theorem State.setReply_enabled (v : U32) : (s.setReply v).enabled = s.enabled := rfl
@[simp] theorem State.setReply_scheduled (v : U32) : (s.setReply v).scheduled = s.scheduled := rfl
@[simp] theorem State.setReply_activeId (v : U32) : (s.setReply v).activeId = s.activeId := rfl
@[simp] theorem State.setReply_irqLine (v : U32) : (s.setReply v).irqLine = s.irqLine := rfl
@[simp] theorem State.setReply_ct (v : U32) : (s.setReply v).ct = s.ct := rfl
@[simp] theorem State.setReply_clk (v : U32) : (s.setReply v).clk = s.clk := rfl
@[simp] theorem State.setReply_oc (v : U32) : (s.setReply v).oc = s.oc := rfl
@[simp] theorem State.setReply_sdma (v : U32) : (s.setReply v).sdma = s.sdma := rfl
@[simp] theorem State.setReply_pdma (v : U32) : (s.setReply v).pdma = s.pdma := rfl
@[simp] theorem State.setReply_ram (v : U32) : (s.setReply v).ram = s.ram := rfl
@[simp] theorem State.setReply_rom (v : U32) : (s.setReply v).rom = s.rom := rfl
@[simp] theorem State.setReply_backing (v : U32) : (s.setReply v).backing = s.backing := rfl
@[simp] theorem State.setReply_ext (v : U32) : (s.setReply v).ext = s.ext := rfl
@[simp] theorem State.setReply_fault (v : U32) : (s.setReply v).fault = s.fault := rfl
@[simp] theorem State.setReply_ticks (v : U32) : (s.setReply v).ticks = s.ticks := rfl
@[simp] theorem State.setReply_cfg (v : U32) : (s.setReply v).cfg = s.cfg := rfl
@[simp] theorem State.setReply_started (v : U32) : (s.setReply v).started = s.started := rfl
@[simp] theorem State.setReply_inbox (v : U32) : (s.setReply v).inbox = s.inbox := rfl
@[simp] theorem State.setReply_draws (v : U32) : (s.setReply v).draws = s.draws := rfl
@[simp] theorem State.setReply_drawsTaken (v : U32) : (s.setReply v).drawsTaken = s.drawsTaken := rfl
@[simp] theorem State.setReply_reply (v : U32) : (s.setReply v).reply = some v := rfl
@[simp] theorem State.setReply_devOut (v : U32) : (s.setReply v).devOut = s.devOut := rfl

@[simp] theorem State.countTick_enabled : (s.countTick).enabled = s.enabled := rfl
@[simp] theorem State.countTick_scheduled : (s.countTick).scheduled = s.scheduled := rfl
@[simp] theorem State.countTick_activeId : (s.countTick).activeId = s.activeId := rfl
@[simp] theorem State.countTick_irqLine : (s.countTick).irqLine = s.irqLine := rfl
@[simp] theorem State.countTick_ct : (s.countTick).ct = s.ct := rfl
@[simp] theorem State.countTick_clk : (s.countTick).clk = s.clk := rfl
@[simp] theorem State.countTick_oc : (s.countTick).oc = s.oc := rfl
@[simp] theorem State.countTick_sdma : (s.countTick).sdma = s.sdma := rfl
@[simp] theorem State.countTick_pdma : (s.countTick).pdma = s.pdma := rfl
@[simp] theorem State.countTick_ram : (s.countTick).ram = s.ram := rfl
@[simp] theorem State.countTick_rom : (s.countTick).rom = s.rom := rfl
@[simp] theorem State.countTick_backing : (s.countTick).backing = s.backing := rfl
@[simp] theorem State.countTick_ext : (s.countTick).ext = s.ext := rfl
@[simp] theorem State.countTick_fault : (s.countTick).fault = s.fault := rfl
@[simp] theorem State.countTick_ticks : (s.countTick).ticks = s.ticks + 1 := rfl
@[simp] theorem State.countTick_cfg : (s.countTick).cfg = s.cfg := rfl
@[simp] theorem State.countTick_started : (s.countTick).started = s.started := rfl
@[simp] theorem State.countTick_inbox : (s.countTick).inbox = s.inbox := rfl
@[simp] theorem State.countTick_draws : (s.countTick).draws = s.draws := rfl
@[simp] theorem State.countTick_drawsTaken : (s.countTick).drawsTaken = s.drawsTaken := rfl
@[simp] theorem State.countTick_reply : (s.countTick).reply = s.reply := rfl
@[simp] theorem State.countTick_devOut : (s.countTick).devOut = s.devOut := rfl

@[simp] theorem State.begun_enabled : (s.begun).enabled = s.enabled := rfl
@[simp] theorem State.begun_scheduled : (s.begun).scheduled = s.scheduled := rfl
@[simp] theorem State.begun_activeId : (s.begun).activeId = s.activeId := rfl
@[simp] theorem State.begun_irqLine : (s.begun).irqLine = s.irqLine := rfl
@[simp] theorem State.begun_ct : (s.begun).ct = s.ct := rfl
@[simp] theorem State.begun_clk : (s.begun).clk = s.clk := rfl
@[simp] theorem State.begun_oc : (s.begun).oc = s.oc := rfl
@[simp] theorem State.begun_sdma : (s.begun).sdma = s.sdma := rfl
@[simp] theorem State.begun_pdma : (s.begun).pdma = s.pdma := rfl
@[simp] theorem State.begun_ram : (s.begun).ram = s.ram := rfl
@[simp] theorem State.begun_rom : (s.begun).rom = s.rom := rfl
@[simp] theorem State.begun_backing : (s.begun).backing = s.backing := rfl
@[simp] theorem State.begun_ext : (s.begun).ext = s.ext := rfl
@[simp] theorem State.begun_fault : (s.begun).fault = s.fault := rfl
@[simp] theorem State.begun_ticks : (s.begun).ticks = s.ticks := rfl
@[simp] theorem State.begun_cfg : (s.begun).cfg = s.cfg := rfl
@[simp] theorem State.begun_started : (s.begun).started = s.started := rfl
@[simp] theorem State.begun_inbox : (s.begun).inbox = s.inbox := rfl
@[simp] theorem State.begun_draws : (s.begun).draws = s.draws := rfl
@[simp] theorem State.begun_drawsTaken : (s.begun).drawsTaken = s.drawsTaken := rfl
@[simp] theorem State.begun_reply : (s.begun).reply = none := rfl
@[simp] theorem State.begun_devOut : (s.begun).devOut = [] := rfl

@[simp] theorem State.addEntry_enabled (e : Entry) : (s.addEntry e).enabled = s.enabled := rfl
@[simp] theorem State.addEntry_scheduled (e : Entry) : (s.addEntry e).scheduled = s.scheduled := rfl
@[simp] theorem State.addEntry_activeId (e : Entry) : (s.addEntry e).activeId = s.activeId := rfl
@[simp] theorem State.addEntry_irqLine (e : Entry) : (s.addEntry e).irqLine = s.irqLine := rfl
@[simp] theorem State.addEntry_ct (e : Entry) : (s.addEntry e).ct = s.ct := rfl
@[simp] theorem State.addEntry_clk (e : Entry) : (s.addEntry e).clk = s.clk := rfl
@[simp] theorem State.addEntry_oc (e : Entry) : (s.addEntry e).oc = s.oc := rfl
@[simp] theorem State.addEntry_sdma (e : Entry) : (s.addEntry e).sdma = s.sdma := rfl
@[simp] theorem State.addEntry_pdma (e : Entry) : (s.addEntry e).pdma = s.pdma := rfl
@[simp] theorem State.addEntry_ram (e : Entry) : (s.addEntry e).ram = s.ram := rfl
@[simp] theorem State.addEntry_rom (e : Entry) : (s.addEntry e).rom = s.rom := rfl
@[simp] theorem State.addEntry_backing (e : Entry) : (s.addEntry e).backing = s.backing := rfl
@[simp] theorem State.addEntry_ext (e : Entry) : (s.addEntry e).ext = s.ext ++ [initialExt e.handler] := rfl
@[simp] theorem State.addEntry_fault (e : Entry) : (s.addEntry e).fault = s.fault := rfl
@[simp] theorem State.addEntry_ticks (e : Entry) : (s.addEntry e).ticks = s.ticks := rfl
@[simp] theorem State.addEntry_cfg (e : Entry) : (s.addEntry e).cfg = { s.cfg with registry := s.cfg.registry ++ [e] } := rfl
@[simp] theorem State.addEntry_started (e : Entry) : (s.addEntry e).started = s.started := rfl
@[simp] theorem State.addEntry_inbox (e : Entry) : (s.addEntry e).inbox = s.inbox := rfl
@[simp] theorem State.addEntry_draws (e : Entry) : (s.addEntry e).draws = s.draws := rfl
@[simp] theorem State.addEntry_drawsTaken (e : Entry) : (s.addEntry e).drawsTaken = s.drawsTaken := rfl
@[simp] theorem State.addEntry_reply (e : Entry) : (s.addEntry e).reply = s.reply := rfl
@[simp] theorem State.addEntry_devOut (e : Entry) : (s.addEntry e).devOut = s.devOut := rfl

@[simp] theorem State.truncReply_enabled (n : Nat) : (s.truncReply n).enabled = s.enabled := rfl
@[simp] theorem State.truncReply_scheduled (n : Nat) : (s.truncReply n).scheduled = s.scheduled := rfl
@[simp] theorem State.truncReply_activeId (n : Nat) : (s.truncReply n).activeId = s.activeId := rfl
@[simp] theorem State.truncReply_irqLine (n : Nat) : (s.truncReply n).irqLine = s.irqLine := rfl
@[simp] theorem State.truncReply_ct (n : Nat) : (s.truncReply n).ct = s.ct := rfl
@[simp] theorem State.truncReply_clk (n : Nat) : (s.truncReply n).clk = s.clk := rfl
@[simp] theorem State.truncReply_oc (n : Nat) : (s.truncReply n).oc = s.oc := rfl
@[simp] theorem State.truncReply_sdma (n : Nat) : (s.truncReply n).sdma = s.sdma := rfl
@[simp] theorem State.truncReply_pdma (n : Nat) : (s.truncReply n).pdma = s.pdma := rfl
@[simp] theorem State.truncReply_ram (n : Nat) : (s.truncReply n).ram = s.ram := rfl
@[simp] theorem State.truncReply_rom (n : Nat) : (s.truncReply n).rom = s.rom := rfl
@[simp] theorem State.truncReply_backing (n : Nat) : (s.truncReply n).backing = s.backing := rfl
@[simp] theorem State.truncReply_ext (n : Nat) : (s.truncReply n).ext = s.ext := rfl
@[simp] theorem State.truncReply_fault (n : Nat) : (s.truncReply n).fault = s.fault := rfl
@[simp] theorem State.truncReply_ticks (n : Nat) : (s.truncReply n).ticks = s.ticks := rfl
@[simp] theorem State.truncReply_cfg (n : Nat) : (s.truncReply n).cfg = s.cfg := rfl
@[simp] theorem State.truncReply_started (n : Nat) : (s.truncReply n).started = s.started := rfl
@[simp] theorem State.truncReply_inbox (n : Nat) : (s.truncReply n).inbox = s.inbox := rfl
@[simp] theorem State.truncReply_draws (n : Nat) : (s.truncReply n).draws = s.draws := rfl
@[simp] theorem State.truncReply_drawsTaken (n : Nat) : (s.truncReply n).drawsTaken = s.drawsTaken := rfl
@[simp] theorem State.truncReply_reply (n : Nat) : (s.truncReply n).reply = s.reply.map (truncBytes n) := rfl
@[simp] theorem State.truncReply_devOut (n : Nat) : (s.truncReply n).devOut = s.devOut := rfl

@[simp] theorem State.fetched_enabled (l : List BusWord) : (s.fetched l).enabled = s.enabled := rfl
@[simp] theorem State.fetched_scheduled (l : List BusWord) : (s.fetched l).scheduled = s.scheduled := rfl
@[simp] theorem State.fetched_activeId (l : List BusWord) : (s.fetched l).activeId = s.activeId := rfl
@[simp] theorem State.fetched_irqLine (l : List BusWord) : (s.fetched l).irqLine = s.irqLine := rfl
@[simp] theorem State.fetched_ct (l : List BusWord) : (s.fetched l).ct = s.ct := rfl
@[simp] theorem State.fetched_clk (l : List BusWord) : (s.fetched l).clk = s.clk := rfl
@[simp] theorem State.fetched_oc (l : List BusWord) : (s.fetched l).oc = s.oc := rfl
@[simp] theorem State.fetched_sdma (l : List BusWord) : (s.fetched l).sdma = s.sdma := rfl
@[simp] theorem State.fetched_pdma (l : List BusWord) : (s.fetched l).pdma = s.pdma := rfl
@[simp] theorem State.fetched_ram (l : List BusWord) : (s.fetched l).ram = s.ram := rfl
@[simp] theorem State.fetched_rom (l : List BusWord) : (s.fetched l).rom = s.rom := rfl
@[simp] theorem State.fetched_backing (l : List BusWord) : (s.fetched l).backing = s.backing := rfl
@[simp] theorem State.fetched_ext (l : List BusWord) : (s.fetched l).ext = s.ext := rfl
@[simp] theorem State.fetched_fault (l : List BusWord) : (s.fetched l).fault = s.fault := rfl
@[simp] theorem State.fetched_ticks (l : List BusWord) : (s.fetched l).ticks = s.ticks := rfl
@[simp] theorem State.fetched_cfg (l : List BusWord) : (s.fetched l).cfg = s.cfg := rfl
@[simp] theorem State.fetched_started (l : List BusWord) : (s.fetched l).started = true := rfl
@[simp] theorem State.fetched_inbox (l : List BusWord) : (s.fetched l).inbox = l := rfl
@[simp] theorem State.fetched_draws (l : List BusWord) : (s.fetched l).draws = s.draws := rfl
@[simp] theorem State.fetched_drawsTaken (l : List BusWord) : (s.fetched l).drawsTaken = s.drawsTaken := rfl
@[simp] theorem State.fetched_reply (l : List BusWord) : (s.fetched l).reply = s.reply := rfl
@[simp] theorem State.fetched_devOut (l : List BusWord) : (s.fetched l).devOut = s.devOut := rfl

@[simp] theorem takeDraw_enabled : (takeDraw s).2.enabled = s.enabled := by
  unfold takeDraw; split <;> rfl
@[simp] theorem takeDraw_scheduled : (takeDraw s).2.scheduled = s.scheduled := by
  unfold takeDraw; split <;> rfl
@[simp] theorem takeDraw_activeId : (takeDraw s).2.activeId = s.activeId := by
  unfold takeDraw; split <;> rfl
@[simp] theorem takeDraw_irqLine : (takeDraw s).2.irqLine = s.irqLine := by
  unfold takeDraw; split <;> rfl
@[simp] theorem takeDraw_ct : (takeDraw s).2.ct = s.ct := by
  unfold takeDraw; split <;> rfl
@[simp] theorem takeDraw_clk : (takeDraw s).2.clk = s.clk := by
  unfold takeDraw; split <;> rfl
@[simp] theorem takeDraw_oc : (takeDraw s).2.oc = s.oc := by
  unfold takeDraw; split <;> rfl
@[simp] theorem takeDraw_sdma : (takeDraw s).2.sdma = s.sdma := by
  unfold takeDraw; split <;> rfl
@[simp] theorem takeDraw_pdma : (takeDraw s).2.pdma = s.pdma := by
  unfold takeDraw; split <;> rfl
@[simp] theorem takeDraw_ram : (takeDraw s).2.ram = s.ram := by
  unfold takeDraw; split <;> rfl
@[simp] theorem takeDraw_rom : (takeDraw s).2.rom = s.rom := by
  unfold takeDraw; split <;> rfl
@[simp] theorem takeDraw_backing : (takeDraw s).2.backing = s.backing := by
  unfold takeDraw; split <;> rfl
@[simp] theorem takeDraw_ext : (takeDraw s).2.ext = s.ext := by
  unfold takeDraw; split <;> rfl
@[simp] theorem takeDraw_fault : (takeDraw s).2.fault = s.fault := by
  unfold takeDraw; split <;> rfl
@[simp] theorem takeDraw_ticks : (takeDraw s).2.ticks = s.ticks := by
  unfold takeDraw; split <;> rfl
@[simp] theorem takeDraw_cfg : (takeDraw s).2.cfg = s.cfg := by
  unfold takeDraw; split <;> rfl
@[simp] theorem takeDraw_started : (takeDraw s).2.started = s.started := by
  unfold takeDraw; split <;> rfl
@[simp] theorem takeDraw_inbox : (takeDraw s).2.inbox = s.inbox := by
  unfold takeDraw; split <;> rfl
@[simp] theorem takeDraw_reply : (takeDraw s).2.reply = s.reply := by
  unfold takeDraw; split <;> rfl
@[simp] theorem takeDraw_devOut : (takeDraw s).2.devOut = s.devOut := by
  unfold takeDraw; split <;> rfl
@[simp] theorem State.setEnabled_scheduledAt (id : Nat) (b : Bool) (j : Nat) : (s.setEnabled id b).scheduledAt j = s.scheduledAt j := rfl
@[simp] theorem State.setEnabled_byteAt (id : Nat) (b : Bool) (a : Nat) : (s.setEnabled id b).byteAt a = s.byteAt a := rfl
@[simp] theorem State.setEnabled_periodOf (id : Nat) (b : Bool) : periodOf (s.setEnabled id b) = periodOf s := rfl
@[simp] theorem State.setScheduled_isEnabled (id : Nat) (v : U32) (j : Nat) : (s.setScheduled id v).isEnabled j = s.isEnabled j := rfl
@[simp] theorem State.setScheduled_byteAt (id : Nat) (v : U32) (a : Nat) : (s.setScheduled id v).byteAt a = s.byteAt a := rfl
@[simp] theorem State.setScheduled_periodOf (id : Nat) (v : U32) : periodOf (s.setScheduled id v) = periodOf s := rfl
@[simp] theorem State.setActiveId_isEnabled (id : Nat) (j : Nat) : (s.setActiveId id).isEnabled j = s.isEnabled j := rfl
@[simp] theorem State.setActiveId_scheduledAt (id : Nat) (j : Nat) : (s.setActiveId id).scheduledAt j = s.scheduledAt j := rfl
@[simp] theorem State.setActiveId_byteAt (id : Nat) (a : Nat) : (s.setActiveId id).byteAt a = s.byteAt a := rfl
@[simp] theorem State.setActiveId_periodOf (id : Nat) : periodOf (s.setActiveId id) = periodOf s := rfl
@[simp] theorem State.assertLine_isEnabled (j : Nat) : (s.assertLine).isEnabled j = s.isEnabled j := rfl
@[simp] theorem State.assertLine_scheduledAt (j : Nat) : (s.assertLine).scheduledAt j = s.scheduledAt j := rfl
@[simp] theorem State.assertLine_byteAt (a : Nat) : (s.assertLine).byteAt a = s.byteAt a := rfl
@[simp] theorem State.assertLine_periodOf : periodOf (s.assertLine) = periodOf s := rfl
@[simp] theorem State.deassertLine_isEnabled (j : Nat) : (s.deassertLine).isEnabled j = s.isEnabled j := rfl
@[simp] theorem State.deassertLine_scheduledAt (j : Nat) : (s.deassertLine).scheduledAt j = s.scheduledAt j := rfl
@[simp] theorem State.deassertLine_byteAt (a : Nat) : (s.deassertLine).byteAt a = s.byteAt a := rfl
@[simp] theorem State.deassertLine_periodOf : periodOf (s.deassertLine) = periodOf s := rfl
@[simp] theorem State.setCt_isEnabled (k : Nat) (t : Countdown) (j : Nat) : (s.setCt k t).isEnabled j = s.isEnabled j := rfl
@[simp] theorem State.setCt_scheduledAt (k : Nat) (t : Countdown) (j : Nat) : (s.setCt k t).scheduledAt j = s.scheduledAt j := rfl
@[simp] theorem State.setCt_byteAt (k : Nat) (t : Countdown) (a : Nat) : (s.setCt k t).byteAt a = s.byteAt a := rfl
@[simp] theorem State.setCts_isEnabled (l : List Countdown) (j : Nat) : (s.setCts l).isEnabled j = s.isEnabled j := rfl
@[simp] theorem State.setCts_scheduledAt (l : List Countdown) (j : Nat) : (s.setCts l).scheduledAt j = s.scheduledAt j := rfl
@[simp] theorem State.setCts_byteAt (l : List Countdown) (a : Nat) : (s.setCts l).byteAt a = s.byteAt a := rfl
@[simp] theorem State.setClk_isEnabled (d : Domain) (v : U32) (j : Nat) : (s.setClk d v).isEnabled j = s.isEnabled j := rfl
@[simp] theorem State.setClk_scheduledAt (d : Domain) (v : U32) (j : Nat) : (s.setClk d v).scheduledAt j = s.scheduledAt j := rfl
@[simp] theorem State.setClk_byteAt (d : Domain) (v : U32) (a : Nat) : (s.setClk d v).byteAt a = s.byteAt a := rfl
@[simp] theorem State.setClk_periodOf (d : Domain) (v : U32) : periodOf (s.setClk d v) = periodOf s := rfl
@[simp] theorem State.setOc_isEnabled (d : Domain) (k : Nat) (o : OutputCompare) (j : Nat) : (s.setOc d k o).isEnabled j = s.isEnabled j := rfl
@[simp] theorem State.setOc_scheduledAt (d : Domain) (k : Nat) (o : OutputCompare) (j : Nat) : (s.setOc d k o).scheduledAt j = s.scheduledAt j := rfl
@[simp] theorem State.setOc_byteAt (d : Domain) (k : Nat) (o : OutputCompare) (a : Nat) : (s.setOc d k o).byteAt a = s.byteAt a := rfl
@[simp] theorem State.setOc_periodOf (d : Domain) (k : Nat) (o : OutputCompare) : periodOf (s.setOc d k o) = periodOf s := rfl
@[simp] theorem State.setOcs_isEnabled (d : Domain) (l : List OutputCompare) (j : Nat) : (s.setOcs d l).isEnabled j = s.isEnabled j := rfl
@[simp] theorem State.setOcs_scheduledAt (d : Domain) (l : List OutputCompare) (j : Nat) : (s.setOcs d l).scheduledAt j = s.scheduledAt j := rfl
@[simp] theorem State.setOcs_byteAt (d : Domain) (l : List OutputCompare) (a : Nat) : (s.setOcs d l).byteAt a = s.byteAt a := rfl
@[simp] theorem State.setOcs_periodOf (d : Domain) (l : List OutputCompare) : periodOf (s.setOcs d l) = periodOf s := rfl
@[simp] theorem State.setSdma_isEnabled (c : Nat) (x : SyncDma) (j : Nat) : (s.setSdma c x).isEnabled j = s.isEnabled j := rfl
@[simp] theorem State.setSdma_scheduledAt (c : Nat) (x : SyncDma) (j : Nat) : (s.setSdma c x).scheduledAt j = s.scheduledAt j := rfl
@[simp] theorem State.setSdma_byteAt (c : Nat) (x : SyncDma) (a : Nat) : (s.setSdma c x).byteAt a = s.byteAt a := rfl
@[simp] theorem State.setSdma_periodOf (c : Nat) (x : SyncDma) : periodOf (s.setSdma c x) = periodOf s := rfl
@[simp] theorem State.setPdma_isEnabled (c : Nat) (x : PolledDma) (j : Nat) : (s.setPdma c x).isEnabled j = s.isEnabled j := rfl
@[simp] theorem State.setPdma_scheduledAt (c : Nat) (x : PolledDma) (j : Nat) : (s.setPdma c x).scheduledAt j = s.scheduledAt j := rfl
@[simp] theorem State.setPdma_byteAt (c : Nat) (x : PolledDma) (a : Nat) : (s.setPdma c x).byteAt a = s.byteAt a := rfl
@[simp] theorem State.setPdma_periodOf (c : Nat) (x : PolledDma) : periodOf (s.setPdma c x) = periodOf s := rfl
@[simp] theorem State.setRam_isEnabled (m : Memory) (j : Nat) : (s.setRam m).isEnabled j = s.isEnabled j := rfl
@[simp] theorem State.setRam_scheduledAt (m : Memory) (j : Nat) : (s.setRam m).scheduledAt j = s.scheduledAt j := rfl
@[simp] theorem State.setRam_periodOf (m : Memory) : periodOf (s.setRam m) = periodOf s := rfl
@[simp] theorem State.setBacking_isEnabled (m : Memory) (j : Nat) : (s.setBacking m).isEnabled j = s.isEnabled j := rfl
@[simp] theorem State.setBacking_scheduledAt (m : Memory) (j : Nat) : (s.setBacking m).scheduledAt j = s.scheduledAt j := rfl
@[simp] theorem State.setBacking_byteAt (m : Memory) (a : Nat) : (s.setBacking m).byteAt a = s.byteAt a := rfl
@[simp] theorem State.setBacking_periodOf (m : Memory) : periodOf (s.setBacking m) = periodOf s := rfl
@[simp] theorem State.setExt_isEnabled (e : Nat) (x : ExtState) (j : Nat) : (s.setExt e x).isEnabled j = s.isEnabled j := rfl
@[simp] theorem State.setExt_scheduledAt (e : Nat) (x : ExtState) (j : Nat) : (s.setExt e x).scheduledAt j = s.scheduledAt j := rfl
@[simp] theorem State.setExt_byteAt (e : Nat) (x : ExtState) (a : Nat) : (s.setExt e x).byteAt a = s.byteAt a := rfl
@[simp] theorem State.setExt_periodOf (e : Nat) (x : ExtState) : periodOf (s.setExt e x) = periodOf s := rfl
@[simp] theorem State.setFault_isEnabled (f : FaultKind × FaultCode) (j : Nat) : (s.setFault f).isEnabled j = s.isEnabled j := rfl
@[simp] theorem State.setFault_scheduledAt (f : FaultKind × FaultCode) (j : Nat) : (s.setFault f).scheduledAt j = s.scheduledAt j := rfl
@[simp] theorem State.setFault_byteAt (f : FaultKind × FaultCode) (a : Nat) : (s.setFault f).byteAt a = s.byteAt a := rfl
@[simp] theorem State.setFault_periodOf (f : FaultKind × FaultCode) : periodOf (s.setFault f) = periodOf s := rfl
@[simp] theorem State.setReply_isEnabled (v : U32) (j : Nat) : (s.setReply v).isEnabled j = s.isEnabled j := rfl
@[simp] theorem State.setReply_scheduledAt (v : U32) (j : Nat) : (s.setReply v).scheduledAt j = s.scheduledAt j := rfl
@[simp] theorem State.setReply_byteAt (v : U32) (a : Nat) : (s.setReply v).byteAt a = s.byteAt a := rfl
@[simp] theorem State.setReply_periodOf (v : U32) : periodOf (s.setReply v) = periodOf s := rfl
@[simp] theorem State.countTick_isEnabled (j : Nat) : (s.countTick).isEnabled j = s.isEnabled j := rfl
@[simp] theorem State.countTick_scheduledAt (j : Nat) : (s.countTick).scheduledAt j = s.scheduledAt j := rfl
@[simp] theorem State.countTick_byteAt (a : Nat) : (s.countTick).byteAt a = s.byteAt a := rfl
@[simp] theorem State.countTick_periodOf : periodOf (s.countTick) = periodOf s := rfl
@[simp] theorem State.begun_isEnabled (j : Nat) : (s.begun).isEnabled j = s.isEnabled j := rfl
@[simp] theorem State.begun_scheduledAt (j : Nat) : (s.begun).scheduledAt j = s.scheduledAt j := rfl
@[simp] theorem State.begun_byteAt (a : Nat) : (s.begun).byteAt a = s.byteAt a := rfl
@[simp] theorem State.begun_periodOf : periodOf (s.begun) = periodOf s := rfl
@[simp] theorem State.addEntry_isEnabled (e : Entry) (j : Nat) : (s.addEntry e).isEnabled j = s.isEnabled j := rfl
@[simp] theorem State.addEntry_scheduledAt (e : Entry) (j : Nat) : (s.addEntry e).scheduledAt j = s.scheduledAt j := rfl
@[simp] theorem State.truncReply_isEnabled (n : Nat) (j : Nat) : (s.truncReply n).isEnabled j = s.isEnabled j := rfl
@[simp] theorem State.truncReply_scheduledAt (n : Nat) (j : Nat) : (s.truncReply n).scheduledAt j = s.scheduledAt j := rfl
@[simp] theorem State.truncReply_byteAt (n : Nat) (a : Nat) : (s.truncReply n).byteAt a = s.byteAt a := rfl
@[simp] theorem State.truncReply_periodOf (n : Nat) : periodOf (s.truncReply n) = periodOf s := rfl
@[simp] theorem State.fetched_isEnabled (l : List BusWord) (j : Nat) : (s.fetched l).isEnabled j = s.isEnabled j := rfl
@[simp] theorem State.fetched_scheduledAt (l : List BusWord) (j : Nat) : (s.fetched l).scheduledAt j = s.scheduledAt j := rfl
@[simp] theorem State.fetched_byteAt (l : List BusWord) (a : Nat) : (s.fetched l).byteAt a = s.byteAt a := rfl
@[simp] theorem State.fetched_periodOf (l : List BusWord) : periodOf (s.fetched l) = periodOf s := rfl

@[simp] theorem State.setEnabled_isEnabled (id : Nat) (b : Bool) (j : Nat) (h : id < s.enabled.length) :
    (s.setEnabled id b).isEnabled j = if j = id then b else s.isEnabled j := by
  simp only [State.isEnabled, State.setEnabled_enabled, List.getD_eq_getElem?_getD, List.getElem?_set]
  by_cases hj : id = j
  · subst hj; simp [h]
  · simp [hj, Ne.symm hj]

@[simp] theorem State.setScheduled_scheduledAt (id : Nat) (v : U32) (j : Nat) (h : id < s.scheduled.length) :
    (s.setScheduled id v).scheduledAt j = if j = id then v else s.scheduledAt j := by
  simp only [State.scheduledAt, State.setScheduled_scheduled, List.getD_eq_getElem?_getD, List.getElem?_set]
  by_cases hj : id = j
  · subst hj; simp [h]
  · simp [hj, Ne.symm hj]

@[simp] theorem PerDomain_get_set_same {α : Type} (p : PerDomain α) (d : Domain) (v : α) : (p.set d v).get d = v := by
  cases d <;> rfl

theorem PerDomain_get_set_other {α : Type} (p : PerDomain α) (d d' : Domain) (v : α) (h : d' ≠ d) :
    (p.set d v).get d' = p.get d' := by
  cases d <;> cases d' <;> first | rfl | exact absurd rfl h

end Sys2Proof.Machine
end

