-- ==== Sys2Proof/Laws/Ops.lean ====
section
/-! SUPPORT. What each shared operation can do, said once: running an operation as a step, taking a fault, the
Interrupt Controller's activation and trigger, the memory accesses and the storage backend. -/

namespace Sys2Proof.Machine

/-! ### Outcomes of an operation -/

@[simp] theorem res_bind_ok {α β : Type} (a : α) (f : α → Except Stop β) : (Except.ok a >>= f) = f a := rfl

@[simp] theorem res_bind_error {α β : Type} (e : Stop) (f : α → Except Stop β) :
    ((Except.error e : Except Stop α) >>= f) = Except.error e := rfl

@[simp] theorem res_pure {α : Type} (a : α) : (pure a : Except Stop α) = Except.ok a := rfl

/-- A sequence completes exactly when both its parts do. -/
theorem res_bind_eq_ok {α β : Type} {x : Except Stop α} {f : α → Except Stop β} {b : β} :
    (x >>= f) = .ok b ↔ ∃ a, x = .ok a ∧ f a = .ok b := by
  cases x <;> simp

theorem res_bind_eq_error {α β : Type} {x : Except Stop α} {f : α → Except Stop β} {e : Stop} :
    (x >>= f) = .error e ↔ x = .error e ∨ ∃ a, x = .ok a ∧ f a = .error e := by
  cases x <;> simp

@[simp] theorem State.begun_begun (s : State) : s.begun.begun = s.begun := rfl

@[simp] theorem takeFault_cfg (code : FaultCode) (s : State) : (takeFault code s).cfg = s.cfg := rfl

@[simp] theorem takeFault_fault (code : FaultCode) (s : State) :
    (takeFault code s).fault = some (code.kind, code) := rfl

/-- A faulting step differs from the state before it in `fault` (and the outputs) alone. -/
theorem takeFault_eq (code : FaultCode) (s : State) :
    takeFault code s.begun = { s with fault := some (code.kind, code), reply := none, devOut := [] } := rfl

theorem perform_ok {op : State → Res} {s t : State} (hf : s.fault = none) (h : op s.begun = .ok t) :
    perform op s = .next t := by
  simp [perform, hf, h]

theorem perform_raised {op : State → Res} {s : State} {code : FaultCode} (hf : s.fault = none)
    (h : op s.begun = .error (.raised code)) : perform op s = .next (takeFault code s.begun) := by
  simp [perform, hf, h]

theorem perform_outside {op : State → Res} {s : State} {r : Refusal} (hf : s.fault = none)
    (h : op s.begun = .error (.outside r)) : perform op s = .refused r := by
  simp [perform, hf, h]

/-- Everything a step that has a next state can have done. -/
theorem perform_next {op : State → Res} {s t : State} :
    perform op s = .next t ↔ s.fault = none ∧
      (op s.begun = .ok t ∨ ∃ code, op s.begun = .error (.raised code) ∧ t = takeFault code s.begun) := by
  unfold perform
  cases hf : s.fault with
  | some f =>
    obtain ⟨kind, code⟩ := f
    cases kind <;> simp [halted]
  | none =>
    cases h : op s.begun with
    | ok u => simp
    | error e => cases e <;> simp [eq_comm]

theorem perform_halted {op : State → Res} {s : State} {kind : FaultKind} {code : FaultCode}
    (hf : s.fault = some (kind, code)) : perform op s = halted kind code := by
  simp [perform, hf]

/-- Two operations that agree on the state a step starts from make the same step. -/
theorem perform_congr {f g : State → Res} {s : State} (h : f s.begun = g s.begun) : perform f s = perform g s := by
  simp [perform, h]

/-! ### The Interrupt Controller -/

/-- What the Interrupt Controller's requests keep of its four fields: their shapes, an active interrupt, the line's
agreement with the active id, and every enable bit but that of an id they activate. -/
structure IntcChange (s t : State) : Prop where
  cfg : t.cfg = s.cfg
  enabledLength : t.enabled.length = s.enabled.length
  scheduledLength : t.scheduled.length = s.scheduled.length
  line : s.irqLine = decide (s.activeId ≠ 0) → t.irqLine = decide (t.activeId ≠ 0)
  range : s.activeId < s.cfg.nIrq → t.activeId < s.cfg.nIrq
  single : s.activeId ≠ 0 → t.activeId = s.activeId
  masks : ∀ id, s.isEnabled id = true → t.isEnabled id = false → s.activeId = 0 ∧ id ≠ 0 ∧ t.activeId = id

/-- A change to other fields is no change of the Interrupt Controller. -/
theorem IntcChange.of_eq {s t : State} (h : t.cfg = s.cfg) (h1 : t.enabled = s.enabled)
    (h2 : t.scheduled = s.scheduled) (h3 : t.activeId = s.activeId) (h4 : t.irqLine = s.irqLine) : IntcChange s t where
  cfg := h
  enabledLength := by rw [h1]
  scheduledLength := by rw [h2]
  line hs := by rw [h3, h4, hs]
  range hs := by rwa [h3]
  single _ := h3
  masks id h5 h6 := by
    unfold State.isEnabled at h5 h6
    rw [h1, h5] at h6
    cases h6

theorem IntcChange.trans {s t u : State} (h : IntcChange s t) (k : IntcChange t u) : IntcChange s u where
  cfg := by rw [k.cfg, h.cfg]
  enabledLength := by rw [k.enabledLength, h.enabledLength]
  scheduledLength := by rw [k.scheduledLength, h.scheduledLength]
  line hs := k.line (h.line hs)
  range hs := by
    have := k.range (h.cfg.symm ▸ h.range hs)
    rwa [h.cfg] at this
  single hs := by
    have := h.single hs
    rw [k.single (by rw [this]; exact hs), this]
  masks id h1 h2 := by
    cases h3 : t.isEnabled id with
    | true =>
      obtain ⟨h4, h5⟩ := k.masks id h3 h2
      refine ⟨?_, h5⟩
      by_contra hs
      exact hs (by rw [← h.single hs, h4])
    | false =>
      obtain ⟨h4, h5, h6⟩ := h.masks id h1 h3
      exact ⟨h4, h5, by rw [k.single (by rw [h6]; exact h5), h6]⟩

/-- Everything the Interrupt Controller's requests may do to the block: they touch its four fields alone, and change
them as `IntcChange` says. -/
structure IntcMoves (s t : State) : Prop extends IntcChange s t where
  frame : t = { s with
    enabled := t.enabled, scheduled := t.scheduled, activeId := t.activeId, irqLine := t.irqLine }

namespace IntcMoves

variable {s t u : State}

theorem refl (s : State) : IntcMoves s s where
  toIntcChange := IntcChange.of_eq rfl rfl rfl rfl rfl
  frame := rfl

theorem ct (h : IntcMoves s t) : t.ct = s.ct := by rw [h.frame]
theorem clk (h : IntcMoves s t) : t.clk = s.clk := by rw [h.frame]
theorem oc (h : IntcMoves s t) : t.oc = s.oc := by rw [h.frame]
theorem sdma (h : IntcMoves s t) : t.sdma = s.sdma := by rw [h.frame]
theorem pdma (h : IntcMoves s t) : t.pdma = s.pdma := by rw [h.frame]
theorem ram (h : IntcMoves s t) : t.ram = s.ram := by rw [h.frame]
theorem rom (h : IntcMoves s t) : t.rom = s.rom := by rw [h.frame]
theorem backing (h : IntcMoves s t) : t.backing = s.backing := by rw [h.frame]
theorem ext (h : IntcMoves s t) : t.ext = s.ext := by rw [h.frame]
theorem fault (h : IntcMoves s t) : t.fault = s.fault := by rw [h.frame]
theorem ticks (h : IntcMoves s t) : t.ticks = s.ticks := by rw [h.frame]
theorem started (h : IntcMoves s t) : t.started = s.started := by rw [h.frame]
theorem inbox (h : IntcMoves s t) : t.inbox = s.inbox := by rw [h.frame]
theorem draws (h : IntcMoves s t) : t.draws = s.draws := by rw [h.frame]
theorem drawsTaken (h : IntcMoves s t) : t.drawsTaken = s.drawsTaken := by rw [h.frame]
theorem reply (h : IntcMoves s t) : t.reply = s.reply := by rw [h.frame]
theorem devOut (h : IntcMoves s t) : t.devOut = s.devOut := by rw [h.frame]

theorem period (h : IntcMoves s t) : periodOf t = periodOf s := by rw [h.frame]; rfl

theorem trans (h : IntcMoves s t) (k : IntcMoves t u) : IntcMoves s u where
  toIntcChange := h.toIntcChange.trans k.toIntcChange
  frame := by rw [k.frame, h.frame]

end IntcMoves

/-- What activating an id leaves (R88). -/
theorem activate_eq (id : Nat) (s : State) : activate id s = { s with
    enabled := s.enabled.set id false
    scheduled := s.scheduled.set id (if id = s.cfg.periodicIrq then periodOf s else 0)
    activeId := id, irqLine := true } := by
  unfold activate
  by_cases h : id = s.cfg.periodicIrq <;> simp [h] <;> rfl

theorem isEnabled_set (s t : State) (id : Nat) (b : Bool) (h : t.enabled = s.enabled.set id b) (j : Nat) :
    t.isEnabled j = if j = id ∧ id < s.enabled.length then b else s.isEnabled j := by
  simp only [State.isEnabled, h, List.getD_eq_getElem?_getD, List.getElem?_set]
  by_cases hj : id = j
  · subst hj
    by_cases hl : id < s.enabled.length
    · simp [hl]
    · simp [hl]
  · simp [hj, Ne.symm hj]

theorem scheduledAt_set (s t : State) (id : Nat) (v : U32) (h : t.scheduled = s.scheduled.set id v) (j : Nat) :
    t.scheduledAt j = if j = id ∧ id < s.scheduled.length then v else s.scheduledAt j := by
  simp only [State.scheduledAt, h, List.getD_eq_getElem?_getD, List.getElem?_set]
  by_cases hj : id = j
  · subst hj
    by_cases hl : id < s.scheduled.length
    · simp [hl]
    · simp [hl]
  · simp [hj, Ne.symm hj]

theorem activate_moves {id : Nat} {s : State} (h0 : s.activeId = 0) (h1 : id ≠ 0) (h2 : id < s.cfg.nIrq) :
    IntcMoves s (activate id s) where
  cfg := by rw [activate_eq]
  frame := by rw [activate_eq]
  enabledLength := by rw [activate_eq]; simp
  scheduledLength := by rw [activate_eq]; simp
  line _ := by rw [activate_eq]; simp [h1]
  range _ := by rw [activate_eq]; exact h2
  single h := absurd h0 h
  masks j h h' := by
    rw [isEnabled_set s _ id false (by rw [activate_eq])] at h'
    refine ⟨h0, ?_⟩
    by_cases hj : j = id
    · subst hj; exact ⟨h1, by rw [activate_eq]⟩
    · rw [if_neg (by tauto), h] at h'; cases h'

theorem setScheduled_moves (id : Nat) (v : U32) (s : State) : IntcMoves s (s.setScheduled id v) where
  cfg := rfl
  frame := rfl
  enabledLength := rfl
  scheduledLength := by simp
  line h := h
  range h := h
  single _ := rfl
  masks j h h' := by simp [h] at h'

theorem enableId_moves (id : Nat) (s : State) : IntcMoves s (enableId id s) := by
  unfold enableId
  split
  · refine ⟨⟨rfl, by simp, rfl, fun h => h, fun h => h, fun _ => rfl, ?_⟩, rfl⟩
    intro j h h'
    rw [isEnabled_set s _ _ true rfl] at h'
    split at h' <;> simp_all
  · exact IntcMoves.refl s

/-- Everything a trigger that completes can have done (R89). -/
theorem trigger_ok {id : Nat} {delay : U32} {s t : State} (h : trigger id delay s = .ok t) :
    1 ≤ id ∧ id < s.cfg.nIrq ∧
      ((delay = 0#32 ∧ s.isEnabled id = true ∧ s.activeId = 0 ∧ t = activate id s) ∨
       (¬ (delay = 0#32 ∧ s.activeId = 0) ∧ s.isEnabled id = true ∧
          t = s.setScheduled id (if delay = 0#32 then 1#32 else delay)) ∨
       (s.isEnabled id = false ∧ t = s.setScheduled id 1#32)) := by
  unfold trigger checkId at h
  by_cases h0 : id = 0
  · simp [h0] at h
  by_cases h1 : s.cfg.nIrq ≤ id
  · simp [h0, h1] at h
  refine ⟨by omega, by omega, ?_⟩
  simp only [h0, h1, if_false] at h
  by_cases h2 : delay = 0#32 ∧ s.isEnabled id = true ∧ s.activeId = 0
  · rw [if_pos h2] at h
    exact .inl ⟨h2.1, h2.2.1, h2.2.2, by simpa using h.symm⟩
  · rw [if_neg h2] at h
    cases h3 : s.isEnabled id with
    | true =>
      simp only [h3, if_true] at h
      exact .inr (.inl ⟨by tauto, rfl, by simpa using h.symm⟩)
    | false =>
      simp only [h3, Bool.false_eq_true, if_false] at h
      exact .inr (.inr ⟨rfl, by simpa using h.symm⟩)

/-- A trigger of an id with state completes (R87). -/
theorem trigger_completes {id : Nat} (delay : U32) {s : State} (h0 : 1 ≤ id) (h1 : id < s.cfg.nIrq) :
    ∃ t, trigger id delay s = .ok t := by
  unfold trigger checkId
  rw [if_neg (by omega), if_neg (by omega)]
  simp only
  split
  · exact ⟨_, rfl⟩
  · split <;> exact ⟨_, rfl⟩

theorem trigger_moves {id : Nat} {delay : U32} {s t : State} (h : trigger id delay s = .ok t) : IntcMoves s t := by
  obtain ⟨h0, h1, ⟨-, -, h2, rfl⟩ | ⟨-, -, rfl⟩ | ⟨-, rfl⟩⟩ := trigger_ok h
  · exact activate_moves h2 (by omega) h1
  · exact setScheduled_moves _ _ _
  · exact setScheduled_moves _ _ _

/-- A trigger fails only on an id without state, with the fault that says so (R87). -/
theorem trigger_error {id : Nat} {delay : U32} {s : State} {e : Stop} (h : trigger id delay s = .error e) :
    (id = 0 ∧ e = .raised .triggerIdZero) ∨ (id ≠ 0 ∧ s.cfg.nIrq ≤ id ∧ e = .raised .triggerIdRange) := by
  unfold trigger checkId at h
  by_cases h0 : id = 0
  · exact .inl ⟨h0, by simpa [h0] using h.symm⟩
  by_cases h1 : s.cfg.nIrq ≤ id
  · exact .inr ⟨h0, h1, by simpa [h0, h1] using h.symm⟩
  · simp only [h0, h1, if_false] at h
    split at h
    · cases h
    · split at h <;> cases h

/-- R90: what a read of REASON leaves of the Interrupt Controller. -/
theorem acknowledge_eq (s : State) : acknowledge s =
    { s with activeId := 0, irqLine := if s.activeId = 0 then s.irqLine else false } := by
  unfold acknowledge
  by_cases h : s.activeId = 0
  · rw [if_pos h, if_pos h]; cases s; simp_all
  · rw [if_neg h, if_neg h]; rfl

/-! ### Memory -/

theorem readable_iff (c : Config) (a : U32) (n : Nat) : readable c a n = true ↔
    n = 0 ∨ (a.toNat + n ≤ 2 ^ 32 ∧ ∀ x, a.toNat ≤ x → x < a.toNat + n → c.inRam x = true ∨ c.inRom x = true) := by
  simp only [readable, Bool.or_eq_true, beq_iff_eq, Bool.and_eq_true, decide_eq_true_eq, rangeAll_iff]

theorem writable_iff (c : Config) (a : U32) (n : Nat) : writable c a n = true ↔
    n = 0 ∨ (a.toNat + n ≤ 2 ^ 32 ∧ ∀ x, a.toNat ≤ x → x < a.toNat + n → c.inRam x = true) := by
  simp only [writable, Bool.or_eq_true, beq_iff_eq, Bool.and_eq_true, decide_eq_true_eq, rangeAll_iff]

theorem inRam_iff (c : Config) (a : Nat) : c.inRam a = true ↔
    c.ramBase.toNat ≤ a ∧ a < c.ramBase.toNat + c.ramSize.toNat := by simp [Config.inRam]

theorem inRom_iff (c : Config) (a : Nat) : c.inRom a = true ↔
    c.romBase.toNat ≤ a ∧ a ≤ c.romLimit.toNat ∧ c.romSize.toNat ≠ 0 := by simp [Config.inRom, and_assoc]

theorem inAperture_iff (c : Config) (a : Nat) : c.inAperture a = true ↔
    c.mmioBase.toNat ≤ a ∧ a < c.mmioBase.toNat + c.mmioSize.toNat := by simp [Config.inAperture]

theorem bytesAt_length (s : State) (a n : Nat) : (s.bytesAt a n).length = n := by
  induction n generalizing a with
  | zero => rfl
  | succ n ih => simp [State.bytesAt, ih]

theorem bytesAt_getElem? (s : State) (a n j : Nat) (h : j < n) :
    (s.bytesAt a n)[j]? = some ((s.byteAt (a + j)).getD 0) := by
  induction n generalizing a j with
  | zero => omega
  | succ n ih =>
    cases j with
    | zero => simp [State.bytesAt]
    | succ j =>
      simp only [State.bytesAt, List.getElem?_cons_succ]
      rw [ih (a + 1) j (by omega), show a + 1 + j = a + (j + 1) by omega]

theorem byteAt_of_inRam (s : State) (a : Nat) (h : s.cfg.inRam a = true) :
    s.byteAt a = some (Memory.get s.ram (a - s.cfg.ramBase.toNat)) := by simp [State.byteAt, h]

theorem byteAt_isSome (s : State) (a : Nat) (h : s.cfg.inRam a = true ∨ s.cfg.inRom a = true) :
    ∃ b, s.byteAt a = some b := by
  unfold State.byteAt
  rcases h with h | h
  · exact ⟨_, if_pos h⟩
  · by_cases h' : s.cfg.inRam a = true
    · exact ⟨_, if_pos h'⟩
    · exact ⟨_, by rw [if_neg h', if_pos h]⟩

/-- A read that completes returns the bytes there (R36). -/
theorem memRead_ok {s : State} {a : U32} {n : Nat} {b : List Byte} :
    memRead s a n = .ok b ↔ readable s.cfg a n = true ∧ b = s.bytesAt a.toNat n := by
  unfold memRead
  cases h : readable s.cfg a n
  · simp
  · simpa using eq_comm

theorem memRead_error {s : State} {a : U32} {n : Nat} {e : Stop} (h : memRead s a n = .error e) :
    readable s.cfg a n = false ∧ e = .raised .dmaRegion := by
  unfold memRead at h
  split at h <;> simp_all

/-- A write that completes stores the bytes there and nowhere else (R37). -/
theorem memWrite_ok {s t : State} {a : U32} {b : List Byte} :
    memWrite s a b = .ok t ↔ writable s.cfg a b.length = true ∧
      t = s.setRam (Memory.putList s.ram (a.toNat - s.cfg.ramBase.toNat) b) := by
  unfold memWrite
  cases h : writable s.cfg a b.length
  · simp
  · simpa using eq_comm

theorem memWrite_error {s : State} {a : U32} {b : List Byte} {e : Stop} (h : memWrite s a b = .error e) :
    writable s.cfg a b.length = false ∧ e = .raised .dmaRegion := by
  unfold memWrite at h
  split at h <;> simp_all

/-- What each address reads after a write that completes. -/
theorem byteAt_memWrite {s t : State} {a : U32} {b : List Byte} (hm : Memory.wf s.ram = true)
    (h : memWrite s a b = .ok t) (x : Nat) :
    t.byteAt x = if a.toNat ≤ x ∧ x < a.toNat + b.length then some (b.getD (x - a.toNat) 0) else s.byteAt x := by
  obtain ⟨hw, rfl⟩ := memWrite_ok.1 h
  by_cases hx : a.toNat ≤ x ∧ x < a.toNat + b.length
  · rcases (writable_iff _ _ _).1 hw with h0 | ⟨-, h1⟩
    · omega
    · have hr := h1 x hx.1 hx.2
      have h2 := (inRam_iff _ _).1 (h1 a.toNat (Nat.le_refl _) (by omega))
      rw [if_pos hx, byteAt_of_inRam _ _ (by exact hr)]
      simp only [State.setRam_ram, State.setRam_cfg]
      rw [Memory_get_putList _ _ _ _ hm, if_pos (by omega)]
      congr 2
      omega
  · rw [if_neg hx]
    by_cases hr : s.cfg.inRam x = true
    · rw [byteAt_of_inRam _ _ (by exact hr), byteAt_of_inRam _ _ hr]
      simp only [State.setRam_ram, State.setRam_cfg]
      have h3 := (inRam_iff _ _).1 hr
      rw [Memory_get_putList _ _ _ _ hm]
      by_cases hb : b.length = 0
      · rw [if_neg (by omega)]
      · rcases (writable_iff _ _ _).1 hw with h0 | ⟨-, h1⟩
        · omega
        · have h2 := (inRam_iff _ _).1 (h1 a.toNat (Nat.le_refl _) (by omega))
          rw [if_neg (by omega)]
    · simp only [State.byteAt, State.setRam_cfg, hr]; rfl

theorem memWrite_ram {s t : State} {a : U32} {b : List Byte} (h : memWrite s a b = .ok t) :
    t = { s with ram := t.ram } := by
  obtain ⟨-, rfl⟩ := memWrite_ok.1 h; rfl

theorem memWrite_wf {s t : State} {a : U32} {b : List Byte} (h : memWrite s a b = .ok t)
    (hm : Memory.wf s.ram = true) : Memory.wf t.ram = true := by
  obtain ⟨-, rfl⟩ := memWrite_ok.1 h
  exact Memory_putList_wf _ _ _ hm

theorem memWrite_below {s t : State} {a : U32} {b : List Byte} (h : memWrite s a b = .ok t)
    (hm : Memory.below s.cfg.ramSize.toNat s.ram = true) : Memory.below s.cfg.ramSize.toNat t.ram = true := by
  obtain ⟨hw, rfl⟩ := memWrite_ok.1 h
  rcases (writable_iff _ _ _).1 hw with h0 | ⟨-, h1⟩
  · simpa [List.length_eq_zero_iff.1 h0, Memory.putList] using hm
  · by_cases hb : b.length = 0
    · simpa [List.length_eq_zero_iff.1 hb, Memory.putList] using hm
    · have h2 := (inRam_iff _ _).1 (h1 a.toNat (Nat.le_refl _) (by omega))
      have h3 := (inRam_iff _ _).1 (h1 (a.toNat + b.length - 1) (by omega) (by omega))
      exact Memory_putList_below _ _ _ _ hm (by omega)

/-- The default handler's store keeps the canonical form and stays inside the aperture (R77). -/
theorem storeBacking_ok (s : State) (addr value : U32) (size n : Nat) (m : Memory) (hm : Memory.wf m = true)
    (hb : Memory.below s.cfg.mmioSize.toNat m = true) :
    Memory.wf (s.storeBacking addr value size n m) = true ∧
      Memory.below s.cfg.mmioSize.toNat (s.storeBacking addr value size n m) = true := by
  induction n generalizing m with
  | zero => exact ⟨hm, hb⟩
  | succ n ih =>
    unfold State.storeBacking
    split
    · rename_i h
      have h := (inAperture_iff _ _).1 h
      exact ih _ (Memory_put_wf _ _ _ hm) (Memory_put_below _ _ _ _ hb (by omega))
    · exact ih _ hm hb

/-- What each byte of the backing store reads after the last `n` bytes of a default write (R77). -/
theorem get_storeBacking (s : State) (addr value : U32) (size n : Nat) (m : Memory) (hm : Memory.wf m = true)
    (hn : n ≤ size) (x : Nat) :
    Memory.get (s.storeBacking addr value size n m) x =
      if size - n ≤ x + s.cfg.mmioBase.toNat - addr.toNat ∧ addr.toNat ≤ x + s.cfg.mmioBase.toNat ∧
          x + s.cfg.mmioBase.toNat < addr.toNat + size ∧ s.cfg.inAperture (x + s.cfg.mmioBase.toNat) = true then
        byteOf value (x + s.cfg.mmioBase.toNat - addr.toNat)
      else Memory.get m x := by
  induction n generalizing m with
  | zero => rw [State.storeBacking, if_neg (by omega)]
  | succ n ih =>
    unfold State.storeBacking
    by_cases ha : s.cfg.inAperture (addr.toNat + (size - (n + 1))) = true
    · rw [if_pos ha, ih _ (Memory_put_wf _ _ _ hm) (by omega)]
      have ha' := (inAperture_iff _ _).1 ha
      by_cases hx : x + s.cfg.mmioBase.toNat = addr.toNat + (size - (n + 1))
      · rw [if_neg (by omega), if_pos ⟨by omega, by omega, by omega, by rw [hx]; exact ha⟩,
          show addr.toNat + (size - (n + 1)) - s.cfg.mmioBase.toNat = x by omega, Memory_get_put_same _ _ _ hm]
        congr 1
        omega
      · rw [Memory_get_put_other _ _ _ _ (by omega)]
        by_cases hc : size - n ≤ x + s.cfg.mmioBase.toNat - addr.toNat ∧ addr.toNat ≤ x + s.cfg.mmioBase.toNat ∧
          x + s.cfg.mmioBase.toNat < addr.toNat + size ∧ s.cfg.inAperture (x + s.cfg.mmioBase.toNat) = true
        · rw [if_pos hc, if_pos ⟨by omega, hc.2⟩]
        · rw [if_neg hc, if_neg fun h => hc ⟨by omega, h.2⟩]
    · rw [if_neg ha, ih _ hm (by omega)]
      by_cases hx : x + s.cfg.mmioBase.toNat = addr.toNat + (size - (n + 1))
      · rw [if_neg (by omega), if_neg (by rw [hx]; tauto)]
      · by_cases hc : size - n ≤ x + s.cfg.mmioBase.toNat - addr.toNat ∧ addr.toNat ≤ x + s.cfg.mmioBase.toNat ∧
          x + s.cfg.mmioBase.toNat < addr.toNat + size ∧ s.cfg.inAperture (x + s.cfg.mmioBase.toNat) = true
        · rw [if_pos hc, if_pos ⟨by omega, hc.2⟩]
        · rw [if_neg hc, if_neg fun h => hc ⟨by omega, h.2⟩]

/-! ### The storage backend -/

/-- Taking a draw touches the two draw fields alone (R135). -/
theorem takeDraw_frame (s : State) :
    (takeDraw s).2 = { s with draws := (takeDraw s).2.draws, drawsTaken := (takeDraw s).2.drawsTaken } := by
  unfold takeDraw; split <;> rfl

theorem exactBytes_length (n : Nat) (l : List Byte) : (exactBytes n l).length = n := by
  induction n generalizing l with
  | zero => rfl
  | succ n ih => cases l <;> simp [exactBytes, ih]

theorem exactBytes_getD (n : Nat) (l : List Byte) (j : Nat) (h : j < n) : (exactBytes n l).getD j 0 = l.getD j 0 := by
  induction n generalizing l j with
  | zero => omega
  | succ n ih =>
    cases l with
    | nil =>
      cases j with
      | zero => rfl
      | succ j => simpa [exactBytes] using ih [] j (by omega)
    | cons b l =>
      cases j with
      | zero => rfl
      | succ j => simpa [exactBytes] using ih l j (by omega)

end Sys2Proof.Machine
end

