-- ==== Sys2Proof/Laws/Intc.lean ====
section
/-! SUPPORT. The tick's service of the Interrupt Controller (41_interrupt_controller R92 to R94) and the raises of the
output-compare families (42_timers R118), said once. -/

namespace Sys2Proof.Machine

/-- R92: an id that the service would activate if nothing were active. -/
def ReadyAt (s : State) (id : Nat) : Prop := s.scheduledAt id = 1#32 ∧ s.isEnabled id = true

/-- R92: the count of an id that the service does not activate. -/
def countedDown (v : U32) : U32 := if v = 1#32 ∨ v = 0#32 then v else v - 1#32

theorem serviceId_moves {id : Nat} {s : State} (h1 : id ≠ 0) (h2 : id < s.cfg.nIrq) : IntcMoves s (serviceId id s) := by
  unfold serviceId
  split
  · split
    · rename_i h
      exact activate_moves h.2 h1 h2
    · exact IntcMoves.refl s
  · split
    · exact IntcMoves.refl s
    · exact setScheduled_moves _ _ _

theorem serviceDown_moves {n : Nat} {s : State} (h : n < s.cfg.nIrq ∨ n = 0) : IntcMoves s (serviceDown n s) := by
  induction n generalizing s with
  | zero => exact IntcMoves.refl s
  | succ n ih =>
    have h1 : IntcMoves s (serviceId (n + 1) s) := serviceId_moves (by omega) (by omega)
    exact h1.trans (ih (by rw [h1.cfg]; omega))

theorem serviceTick_moves (s : State) : IntcMoves s (serviceTick s) := serviceDown_moves (by omega)

/-- The service of an id it does not activate counts it down. -/
theorem serviceId_quiet {id : Nat} {s : State} (h : s.activeId ≠ 0 ∨ ¬ ReadyAt s id) :
    serviceId id s = s.setScheduled id (countedDown (s.scheduledAt id)) ∨
      (serviceId id s = s ∧ countedDown (s.scheduledAt id) = s.scheduledAt id) := by
  unfold serviceId countedDown ReadyAt at *
  by_cases h1 : s.scheduledAt id = 1#32
  · rw [if_pos h1, if_neg (by tauto), if_pos (.inl h1)]
    exact .inr ⟨rfl, rfl⟩
  · rw [if_neg h1]
    by_cases h0 : s.scheduledAt id = 0#32
    · rw [if_pos h0, if_pos (.inr h0)]
      exact .inr ⟨rfl, rfl⟩
    · rw [if_neg h0, if_neg (by tauto)]
      exact .inl rfl

/-- What the service of ids `n` down to 1 leaves when it activates none of them. -/
theorem serviceDown_quiet {n : Nat} {s : State} (hn : n < s.scheduled.length ∨ n = 0)
    (h : s.activeId ≠ 0 ∨ ∀ id, 1 ≤ id → id ≤ n → ¬ ReadyAt s id) :
    (serviceDown n s).enabled = s.enabled ∧ (serviceDown n s).activeId = s.activeId ∧
      (serviceDown n s).irqLine = s.irqLine ∧
      ∀ j, (serviceDown n s).scheduledAt j =
        if 1 ≤ j ∧ j ≤ n then countedDown (s.scheduledAt j) else s.scheduledAt j := by
  induction n generalizing s with
  | zero => exact ⟨rfl, rfl, rfl, fun j => by rw [if_neg (by omega)]; rfl⟩
  | succ n ih =>
    have hq : s.activeId ≠ 0 ∨ ¬ ReadyAt s (n + 1) :=
      h.imp id fun h => h (n + 1) (by omega) (Nat.le_refl _)
    obtain ⟨u, hu⟩ : ∃ u, serviceId (n + 1) s = u := ⟨_, rfl⟩
    have hen : u.enabled = s.enabled ∧ u.activeId = s.activeId ∧ u.irqLine = s.irqLine ∧
        u.scheduled.length = s.scheduled.length ∧
        ∀ j, u.scheduledAt j = if j = n + 1 then countedDown (s.scheduledAt j) else s.scheduledAt j := by
      rcases serviceId_quiet hq with h1 | ⟨h1, h2⟩
      · rw [← hu, h1]
        refine ⟨rfl, rfl, rfl, by simp, fun j => ?_⟩
        rw [scheduledAt_set s _ (n + 1) _ rfl]
        by_cases hj : j = n + 1
        · subst hj; rw [if_pos ⟨rfl, by omega⟩, if_pos rfl]
        · rw [if_neg (by tauto), if_neg hj]
      · rw [← hu, h1]
        refine ⟨rfl, rfl, rfl, rfl, fun j => ?_⟩
        by_cases hj : j = n + 1
        · subst hj; rw [if_pos rfl, h2]
        · rw [if_neg hj]
    obtain ⟨e1, e2, e3, e4, e5⟩ := hen
    have hr : ∀ j, j ≠ n + 1 → (ReadyAt u j ↔ ReadyAt s j) := fun j hj => by
      simp only [ReadyAt, e5, if_neg hj, State.isEnabled, e1]
    obtain ⟨f1, f2, f3, f4⟩ := ih (s := u) (by omega)
      (h.imp (fun h => by rw [e2]; exact h) fun h id h1 h2 => by
        rw [hr id (by omega)]; exact h id h1 (by omega))
    simp only [serviceDown, hu]
    refine ⟨by rw [f1, e1], by rw [f2, e2], by rw [f3, e3], fun j => ?_⟩
    rw [f4, e5]
    by_cases hj : j = n + 1
    · subst hj; rw [if_neg (by omega), if_pos rfl, if_pos ⟨by omega, Nat.le_refl _⟩]
    · rw [if_neg hj]
      by_cases hj' : 1 ≤ j ∧ j ≤ n
      · rw [if_pos hj', if_pos (by omega)]
      · rw [if_neg hj', if_neg (by omega)]

/-- What the service leaves when `id` is the highest ready id and nothing is active. -/
theorem serviceDown_activates {n id : Nat} {s : State} (hn : n < s.scheduled.length) (h0 : s.activeId = 0)
    (h1 : 1 ≤ id) (h2 : id ≤ n) (hr : ReadyAt s id) (hh : ∀ j, id < j → j ≤ n → ¬ ReadyAt s j) :
    (serviceDown n s).enabled = s.enabled.set id false ∧ (serviceDown n s).activeId = id ∧
      (serviceDown n s).irqLine = true ∧
      ∀ j, (serviceDown n s).scheduledAt j =
        if j = id then (if id = s.cfg.periodicIrq then periodOf s else 0)
        else if 1 ≤ j ∧ j ≤ n then countedDown (s.scheduledAt j) else s.scheduledAt j := by
  induction n generalizing s with
  | zero => omega
  | succ n ih =>
    by_cases hid : id = n + 1
    · subst hid
      have hu : serviceId (n + 1) s = activate (n + 1) s := by
        unfold serviceId; rw [if_pos hr.1, if_pos ⟨hr.2, h0⟩]
      have hl : n < (activate (n + 1) s).scheduled.length := by rw [activate_eq]; simp; omega
      obtain ⟨f1, f2, f3, f4⟩ := serviceDown_quiet (s := activate (n + 1) s) (n := n) (.inl hl)
        (.inl (by rw [activate_eq]; simp))
      simp only [serviceDown, hu]
      refine ⟨by rw [f1, activate_eq], by rw [f2, activate_eq], by rw [f3, activate_eq], fun j => ?_⟩
      rw [f4, scheduledAt_set s _ (n + 1) _ (by rw [activate_eq])]
      by_cases hj : j = n + 1
      · subst hj; rw [if_neg (by omega), if_pos ⟨rfl, hn⟩, if_pos rfl]
      · rw [if_neg (show ¬ (j = n + 1 ∧ _) by tauto), if_neg hj]
        by_cases hj' : 1 ≤ j ∧ j ≤ n
        · rw [if_pos hj', if_pos (by omega)]
        · rw [if_neg hj', if_neg (by omega)]
    · have hq : ¬ ReadyAt s (n + 1) := hh (n + 1) (by omega) (Nat.le_refl _)
      obtain ⟨u, hu⟩ : ∃ u, serviceId (n + 1) s = u := ⟨_, rfl⟩
      have hs : u.enabled = s.enabled ∧ u.activeId = s.activeId ∧ u.irqLine = s.irqLine ∧
          u.scheduled.length = s.scheduled.length ∧ u.cfg = s.cfg ∧ periodOf u = periodOf s ∧
          ∀ j, u.scheduledAt j = if j = n + 1 then countedDown (s.scheduledAt j) else s.scheduledAt j := by
        rcases serviceId_quiet (s := s) (.inr hq) with h3 | ⟨h3, h4⟩
        · rw [← hu, h3]
          refine ⟨rfl, rfl, rfl, by simp, rfl, rfl, fun j => ?_⟩
          rw [scheduledAt_set s _ (n + 1) _ rfl]
          by_cases hj : j = n + 1
          · subst hj; rw [if_pos ⟨rfl, by omega⟩, if_pos rfl]
          · rw [if_neg (by tauto), if_neg hj]
        · rw [← hu, h3]
          refine ⟨rfl, rfl, rfl, rfl, rfl, rfl, fun j => ?_⟩
          by_cases hj : j = n + 1
          · subst hj; rw [if_pos rfl, h4]
          · rw [if_neg hj]
      obtain ⟨e1, e2, e3, e4, e5, e6, e7⟩ := hs
      have hru : ∀ j, j ≠ n + 1 → (ReadyAt u j ↔ ReadyAt s j) := fun j hj => by
        simp only [ReadyAt, e7, if_neg hj, State.isEnabled, e1]
      obtain ⟨f1, f2, f3, f4⟩ := ih (s := u) (by omega) (by rw [e2]; exact h0) (by omega)
        ((hru id hid).2 hr) (fun j h3 h4 => by rw [hru j (by omega)]; exact hh j h3 (by omega))
      simp only [serviceDown, hu]
      refine ⟨by rw [f1, e1], f2, f3, fun j => ?_⟩
      rw [f4, e5, e6, e7]
      by_cases hj : j = id
      · rw [if_pos hj, if_pos hj]
      · rw [if_neg hj, if_neg hj]
        by_cases hj1 : j = n + 1
        · subst hj1; rw [if_neg (by omega), if_pos rfl, if_pos ⟨by omega, Nat.le_refl _⟩]
        · rw [if_neg hj1]
          by_cases hj' : 1 ≤ j ∧ j ≤ n
          · rw [if_pos hj', if_pos (by omega)]
          · rw [if_neg hj', if_neg (by omega)]

/-- The service never visits id 0. -/
theorem serviceDown_zero (n : Nat) (s : State) : (serviceDown n s).scheduledAt 0 = s.scheduledAt 0 := by
  induction n generalizing s with
  | zero => rfl
  | succ n ih =>
    rw [serviceDown, ih]
    unfold serviceId
    split
    · split
      · rw [scheduledAt_set s _ (n + 1) _ (by rw [activate_eq]), if_neg (by omega)]
      · rfl
    · split
      · rfl
      · rw [scheduledAt_set s _ (n + 1) _ rfl, if_neg (by omega)]

/-- The service keeps the shapes, whatever it activates. -/
theorem serviceTick_keeps (s : State) : (serviceTick s).enabled.length = s.enabled.length ∧
    (serviceTick s).scheduled.length = s.scheduled.length :=
  ⟨(serviceTick_moves s).enabledLength, (serviceTick_moves s).scheduledLength⟩

/-! ### Raising -/

theorem raiseIds_moves {l : List (Nat × Bool)} {done : List Nat} {s t : State} (h : raiseIds l done s = .ok t) :
    IntcMoves s t := by
  induction l generalizing done s with
  | nil => simp only [raiseIds, Except.ok.injEq] at h; rw [h]; exact IntcMoves.refl t
  | cons p l ih =>
    obtain ⟨id, fire⟩ := p
    simp only [raiseIds] at h
    split at h
    · obtain ⟨u, h1, h2⟩ := res_bind_eq_ok.1 h
      exact (trigger_moves h1).trans (ih h2)
    · exact ih h

theorem raiseFamily_moves {d : Domain} {s t : State} (h : raiseFamily d s = .ok t) : IntcMoves s t := raiseIds_moves h

theorem ocRaise_moves {s t : State} (h : ocRaise s = .ok t) : IntcMoves s t := by
  obtain ⟨u, h1, h2⟩ := res_bind_eq_ok.1 h
  exact (raiseFamily_moves h1).trans (raiseFamily_moves h2)

/-- Raising ids that all have state completes. -/
theorem raiseIds_completes {l : List (Nat × Bool)} {done : List Nat} {s : State}
    (h : ∀ p ∈ l, 1 ≤ p.1 ∧ p.1 < s.cfg.nIrq) : ∃ t, raiseIds l done s = .ok t := by
  induction l generalizing done s with
  | nil => exact ⟨s, rfl⟩
  | cons p l ih =>
    obtain ⟨id, fire⟩ := p
    have hp := h (id, fire) (List.mem_cons_self ..)
    simp only [raiseIds]
    split
    · obtain ⟨t, ht⟩ := trigger_completes 0 hp.1 hp.2
      rw [ht, res_bind_ok]
      exact ih fun q hq => by rw [(trigger_moves ht).cfg]; exact h q (List.mem_cons_of_mem _ hq)
    · exact ih fun q hq => h q (List.mem_cons_of_mem _ hq)

theorem firingIds_mem {d : Domain} {s : State} {p : Nat × Bool} (h : p ∈ firingIds d s) : p.1 ∈ s.cfg.ocIrq.get d :=
  (List.of_mem_zip h).1

theorem ocRaise_completes {s : State} (h : ∀ d, ∀ id ∈ s.cfg.ocIrq.get d, 1 ≤ id ∧ id < s.cfg.nIrq) :
    ∃ t, ocRaise s = .ok t := by
  obtain ⟨u, hu⟩ := raiseIds_completes (s := s) (l := firingIds .narrow s) (done := [])
    fun p hp => h .narrow p.1 (firingIds_mem hp)
  have hm := raiseIds_moves hu
  obtain ⟨t, ht⟩ := raiseIds_completes (s := u) (l := firingIds .wide u) (done := [])
    fun p hp => by
      have := h .wide p.1 (by rw [← hm.cfg]; exact firingIds_mem hp)
      rwa [hm.cfg]
  exact ⟨t, by unfold ocRaise raiseFamily; rw [hu, res_bind_ok, ht]⟩

end Sys2Proof.Machine
end

