-- ==== Sys2Proof/Laws/Dma.lean ====
section
/-! SUPPORT. The DMA engines' operations (43_dma), said once. -/

namespace Sys2Proof.Machine

/-! ### Synchronous DMA -/

theorem withSdma_some {c : Nat} {f : SyncDma → State → Res} {s : State} {x : SyncDma} (h : s.sdma[c]? = some x) :
    withSdma c f s = f x s := by simp [withSdma, h]

theorem withSdma_ok {c : Nat} {f : SyncDma → State → Res} {s u : State} (h : withSdma c f s = .ok u) :
    ∃ x, s.sdma[c]? = some x ∧ f x s = .ok u := by
  unfold withSdma at h
  split at h
  · exact ⟨_, ‹_›, h⟩
  · cases h

/-- An address inside a range that ends by 2^32 does not wrap. -/
theorem toNat_add_ofNat (a : U32) (off : Nat) (h : a.toNat + off < 2 ^ 32) :
    (a + BitVec.ofNat 32 off).toNat = a.toNat + off := by
  rw [BitVec.toNat_add, BitVec.toNat_ofNat, Nat.mod_eq_of_lt (show off < 2 ^ 32 by omega), Nat.mod_eq_of_lt h]

/-- A part of a usable source range is usable (R123, R124). -/
theorem readable_sub {c : Config} {a : U32} {n off len : Nat} (h : readable c a n = true) (hl : off + len ≤ n)
    (h0 : off < n) : readable c (a + BitVec.ofNat 32 off) len = true ∧
      (a + BitVec.ofNat 32 off).toNat = a.toNat + off := by
  rcases (readable_iff _ _ _).1 h with h1 | ⟨h1, h2⟩
  · omega
  · have h3 := toNat_add_ofNat a off (by omega)
    refine ⟨(readable_iff _ _ _).2 (.inr ⟨by omega, fun x h4 h5 => h2 x (by omega) (by omega)⟩), h3⟩

theorem writable_sub {c : Config} {a : U32} {n off len : Nat} (h : writable c a n = true) (hl : off + len ≤ n)
    (h0 : off < n) : writable c (a + BitVec.ofNat 32 off) len = true ∧
      (a + BitVec.ofNat 32 off).toNat = a.toNat + off := by
  rcases (writable_iff _ _ _).1 h with h1 | ⟨h1, h2⟩
  · omega
  · have h3 := toNat_add_ofNat a off (by omega)
    refine ⟨(writable_iff _ _ _).2 (.inr ⟨by omega, fun x h4 h5 => h2 x (by omega) (by omega)⟩), h3⟩

/-- Whatever the ranges, a copy that completes has touched RAM alone, in canonical form and inside its size. -/
theorem copyLoop_ram {src dst : U32} {n chunk fuel off : Nat} {s t : State}
    (h : copyLoop src dst n chunk fuel off s = .ok t) :
    t = { s with ram := t.ram } ∧ (Memory.wf s.ram = true → Memory.wf t.ram = true) ∧
      (Memory.below s.cfg.ramSize.toNat s.ram = true → Memory.below s.cfg.ramSize.toNat t.ram = true) := by
  induction fuel generalizing off s with
  | zero =>
    simp only [copyLoop, Except.ok.injEq] at h
    subst h
    exact ⟨rfl, fun h => h, fun h => h⟩
  | succ fuel ih =>
    unfold copyLoop at h
    split at h
    · obtain ⟨b, -, h⟩ := res_bind_eq_ok.1 h
      obtain ⟨u, h2, h⟩ := res_bind_eq_ok.1 h
      obtain ⟨i1, i2, i3⟩ := ih h
      have h3 := memWrite_ram h2
      have hc : u.cfg = s.cfg := by rw [h3]
      refine ⟨by rw [i1, h3], fun hw => i2 (memWrite_wf h2 hw), fun hb => ?_⟩
      rw [hc] at i3
      exact i3 (memWrite_below h2 hb)
    · simp only [Except.ok.injEq] at h
      subst h
      exact ⟨rfl, fun h => h, fun h => h⟩

/-- A copy fails only with DMA_REGION (R36, R37). -/
theorem copyLoop_error {src dst : U32} {n chunk fuel off : Nat} {s : State} {e : Stop}
    (h : copyLoop src dst n chunk fuel off s = .error e) : e = .raised .dmaRegion := by
  induction fuel generalizing off s with
  | zero => simp [copyLoop] at h
  | succ fuel ih =>
    unfold copyLoop at h
    split at h
    · rcases res_bind_eq_error.1 h with h | ⟨b, -, h⟩
      · exact (memRead_error h).2
      · rcases res_bind_eq_error.1 h with h | ⟨u, -, h⟩
        · exact (memWrite_error h).2
        · exact ih h
    · cases h

/-- R124: between usable ranges the copy completes; what it wrote lies in `[dst + off, dst + n)`, and where no chunk
reads a byte an earlier one wrote (R128) each of those bytes is the source byte. -/
theorem copyLoop_spec {src dst : U32} {n chunk : Nat} (hc : 1 ≤ chunk) {fuel off : Nat} {s : State}
    (hr : readable s.cfg src n = true) (hw : writable s.cfg dst n = true) (hm : Memory.wf s.ram = true)
    (ho : off ≤ n) (hf : n - off ≤ fuel) :
    ∃ t, copyLoop src dst n chunk fuel off s = .ok t ∧
      (∀ x, ¬ (dst.toNat + off ≤ x ∧ x < dst.toNat + n) → t.byteAt x = s.byteAt x) ∧
      (src.toNat + n ≤ dst.toNat ∨ dst.toNat ≤ src.toNat ∨ n ≤ off + chunk →
        ∀ j, off ≤ j → j < n → t.byteAt (dst.toNat + j) = s.byteAt (src.toNat + j)) := by
  induction fuel generalizing off s with
  | zero => exact ⟨s, rfl, fun _ _ => rfl, fun _ j h1 h2 => by omega⟩
  | succ fuel ih =>
    unfold copyLoop
    by_cases h0 : off < n
    · rw [if_pos h0]
      obtain ⟨len, hlen⟩ : ∃ len, min chunk (n - off) = len := ⟨_, rfl⟩
      rw [hlen]
      obtain ⟨r1, r2⟩ := readable_sub (len := len) hr (by omega) h0
      obtain ⟨w1, w2⟩ := writable_sub (len := len) hw (by omega) h0
      obtain ⟨b, hb⟩ : ∃ b, memRead s (src + BitVec.ofNat 32 off) len = .ok b := ⟨_, memRead_ok.2 ⟨r1, rfl⟩⟩
      have hb' := (memRead_ok.1 hb).2
      have hbl : b.length = len := by rw [hb', bytesAt_length]
      obtain ⟨u, hu⟩ : ∃ u, memWrite s (dst + BitVec.ofNat 32 off) b = .ok u :=
        ⟨_, memWrite_ok.2 ⟨by rw [hbl]; exact w1, rfl⟩⟩
      have hby := byteAt_memWrite hm hu
      rw [w2, hbl] at hby
      have huc : u.cfg = s.cfg := by rw [memWrite_ram hu]
      obtain ⟨t, ht, hout, hin⟩ := ih (off := off + len) (s := u) (by rw [huc]; exact hr) (by rw [huc]; exact hw)
        (memWrite_wf hu hm) (by omega) (by omega)
      refine ⟨t, by rw [hb, res_bind_ok, hu, res_bind_ok, ht], fun x hx => ?_, fun hmv j h1 h2 => ?_⟩
      · rw [hout x (by omega), hby x, if_neg (by omega)]
      · by_cases h3 : off + len ≤ j
        · rw [hin (by omega) j h3 h2, hby, if_neg (by omega)]
        · rw [hout _ (by omega), hby, if_pos (by omega)]
          have h4 : b[dst.toNat + j - (dst.toNat + off)]? = some ((s.byteAt (src.toNat + j)).getD 0) := by
            rw [hb', bytesAt_getElem? _ _ _ _ (by omega), r2]
            congr 3
            omega
          rcases (readable_iff _ _ _).1 hr with h5 | ⟨-, h5⟩
          · omega
          · obtain ⟨v, hv⟩ := byteAt_isSome s (src.toNat + j) (h5 _ (by omega) (by omega))
            rw [List.getD_eq_getElem?_getD, h4, hv]
            rfl
    · rw [if_neg h0]
      exact ⟨s, rfl, fun _ _ => rfl, fun _ j h1 h2 => by omega⟩

/-- R124, R127, R128: what a copy between usable ranges leaves at each destination byte from offset `off` on. A chunk
that reads where an earlier chunk from `off` on wrote reads what that chunk left there; every other chunk reads the old
byte. -/
theorem copyLoop_bytes {src dst : U32} {n chunk : Nat} (hc : 1 ≤ chunk) {fuel off : Nat} {s t : State}
    (hr : readable s.cfg src n = true) (hw : writable s.cfg dst n = true) (hm : Memory.wf s.ram = true)
    (ha : off % chunk = 0) (hf : n - off ≤ fuel) (h : copyLoop src dst n chunk fuel off s = .ok t) :
    ∀ j, off ≤ j → j < n → t.byteAt (dst.toNat + j) =
      if dst.toNat + off ≤ src.toNat + j ∧ src.toNat + j < dst.toNat + j / chunk * chunk then
        t.byteAt (src.toNat + j)
      else s.byteAt (src.toNat + j) := by
  induction fuel generalizing off s with
  | zero => intro j h1 h2; omega
  | succ fuel ih =>
    intro j h1 h2
    have h0 : off < n := by omega
    obtain ⟨len, hlen⟩ : ∃ len, min chunk (n - off) = len := ⟨_, rfl⟩
    obtain ⟨r1, r2⟩ := readable_sub (len := len) hr (by omega) h0
    unfold copyLoop at h
    rw [if_pos h0, hlen] at h
    obtain ⟨b, hb, h⟩ := res_bind_eq_ok.1 h
    obtain ⟨u, hu, h⟩ := res_bind_eq_ok.1 h
    have hb' := (memRead_ok.1 hb).2
    have hbl : b.length = len := by rw [hb', bytesAt_length]
    have w2 := (writable_sub (len := len) hw (by omega) h0).2
    have hby := byteAt_memWrite hm hu
    rw [w2, hbl] at hby
    have huc : u.cfg = s.cfg := by rw [memWrite_ram hu]
    by_cases h3 : off + len ≤ j
    · have hl : len = chunk := by omega
      have ha' : (off + len) % chunk = 0 := by rw [hl, Nat.add_mod_right, ha]
      obtain ⟨t', ht', hout, -⟩ := copyLoop_spec (src := src) (dst := dst) (n := n) hc (fuel := fuel) (off := off + len)
        (s := u) (by rw [huc]; exact hr) (by rw [huc]; exact hw) (memWrite_wf hu hm) (by omega) (by omega)
      rw [h, Except.ok.injEq] at ht'
      subst ht'
      have hq : off + len ≤ j / chunk * chunk := by
        have h4 := Nat.div_add_mod (off + len) chunk
        have h5 : (off + len) / chunk ≤ j / chunk := Nat.div_le_div_right h3
        have h6 := Nat.mul_le_mul_left chunk h5
        rw [Nat.mul_comm (j / chunk)]
        omega
      rw [ih (by rw [huc]; exact hr) (by rw [huc]; exact hw) (memWrite_wf hu hm) ha' (by omega) h j h3 h2]
      by_cases h7 : dst.toNat + (off + len) ≤ src.toNat + j ∧ src.toNat + j < dst.toNat + j / chunk * chunk
      · rw [if_pos h7, if_pos (by omega)]
      · rw [if_neg h7]
        by_cases h8 : dst.toNat + off ≤ src.toNat + j ∧ src.toNat + j < dst.toNat + (off + len)
        · rw [if_pos (by omega), hout _ (by omega)]
        · rw [if_neg (by omega), hby, if_neg (by omega)]
    · have hq : j / chunk * chunk = off := by
        obtain ⟨k, hk⟩ := Nat.dvd_of_mod_eq_zero ha
        have h4 : j / chunk = k := by
          rw [Nat.div_eq_iff (by omega), Nat.mul_comm k]
          omega
        rw [h4, hk, Nat.mul_comm]
      rw [if_neg (by omega)]
      obtain ⟨t', ht', hout, -⟩ := copyLoop_spec (src := src) (dst := dst) (n := n) hc (fuel := fuel) (off := off + len)
        (s := u) (by rw [huc]; exact hr) (by rw [huc]; exact hw) (memWrite_wf hu hm) (by omega) (by omega)
      rw [h, Except.ok.injEq] at ht'
      subst ht'
      rw [hout _ (by omega), hby, if_pos (by omega)]
      have h4 : b[dst.toNat + j - (dst.toNat + off)]? = some ((s.byteAt (src.toNat + j)).getD 0) := by
        rw [hb', bytesAt_getElem? _ _ _ _ (by omega), r2]
        congr 3
        omega
      rcases (readable_iff _ _ _).1 hr with h5 | ⟨-, h5⟩
      · omega
      · obtain ⟨v, hv⟩ := byteAt_isSome s (src.toNat + j) (h5 _ (by omega) (by omega))
        rw [List.getD_eq_getElem?_getD, h4, hv]
        rfl

/-- Everything a synchronous START that completes can have done (R123). -/
theorem sdmaStart_ok {c : Nat} {wv : U32} {s t : State} (h : sdmaStart c wv s = .ok t) :
    ∃ x u, s.sdma[c]? = some x ∧ sdmaCopy x.src x.dst x.count s = .ok u ∧ IntcMoves u t := by
  obtain ⟨x, h1, h2⟩ := withSdma_ok h
  split at h2
  · split at h2
    · obtain ⟨u, h3, h4⟩ := res_bind_eq_ok.1 h2
      exact ⟨x, u, h1, h3, trigger_moves h4⟩
    · cases h2
  · cases h2

/-! ### Polled DMA -/

theorem withPdma_some {c : Nat} {f : PolledDma → State → Res} {s : State} {p : PolledDma} (h : s.pdma[c]? = some p) :
    withPdma c f s = f p s := by simp [withPdma, h]

theorem withPdma_ok {c : Nat} {f : PolledDma → State → Res} {s u : State} (h : withPdma c f s = .ok u) :
    ∃ p, s.pdma[c]? = some p ∧ f p s = .ok u := by
  unfold withPdma at h
  split at h
  · exact ⟨_, ‹_›, h⟩
  · cases h

theorem devReady_ok {s t : State} {b : Bool} (h : devReady s = .ok (b, t)) :
    (takeDraw s).1.impossible = false ∧ b = (takeDraw s).1.ready ∧ t = (takeDraw s).2 := by
  unfold devReady at h
  split at h
  · cases h
  · simp only [Except.ok.injEq, Prod.mk.injEq] at h
    exact ⟨(Bool.not_eq_true _).mp ‹¬ (takeDraw s).1.impossible = true›, h.1.symm, h.2.symm⟩

theorem devRead_ok {s t : State} {n : Nat} {b : List Byte} (h : devRead n s = .ok (b, t)) :
    (takeDraw s).1.impossible = false ∧ b = exactBytes n (takeDraw s).1.data ∧ t = (takeDraw s).2 := by
  unfold devRead at h
  split at h
  · cases h
  · simp only [Except.ok.injEq, Prod.mk.injEq] at h
    exact ⟨(Bool.not_eq_true _).mp ‹¬ (takeDraw s).1.impossible = true›, h.1.symm, h.2.symm⟩

theorem devWrite_ok {s t : State} {c : Nat} {b : List Byte} (h : devWrite c b s = .ok t) :
    (takeDraw s).1.impossible = false ∧
      t = { (takeDraw s).2 with devOut := (takeDraw s).2.devOut ++ [(c, b)] } := by
  unfold devWrite at h
  split at h
  · cases h
  · simp only [Except.ok.injEq] at h
    exact ⟨(Bool.not_eq_true _).mp ‹¬ (takeDraw s).1.impossible = true›, h.symm⟩

/-- Everything moving a chunk may do to the block: it writes RAM, takes draws and sends to the backend, nothing else;
RAM keeps its canonical form and size. -/
structure ChunkMoves (s t : State) : Prop where
  frame : t = { s with ram := t.ram, draws := t.draws, drawsTaken := t.drawsTaken, devOut := t.devOut }
  wf : Memory.wf s.ram = true → Memory.wf t.ram = true
  below : Memory.below s.cfg.ramSize.toNat s.ram = true → Memory.below s.cfg.ramSize.toNat t.ram = true

theorem ChunkMoves.refl (s : State) : ChunkMoves s s := ⟨rfl, fun h => h, fun h => h⟩

theorem ChunkMoves.trans {s t u : State} (h : ChunkMoves s t) (k : ChunkMoves t u) : ChunkMoves s u where
  frame := by rw [k.frame, h.frame]
  wf hs := k.wf (h.wf hs)
  below hs := by
    have hc : t.cfg = s.cfg := by rw [h.frame]
    have := k.below (by rw [hc]; exact h.below hs)
    rwa [hc] at this

theorem takeDraw_moves (s : State) : ChunkMoves s (takeDraw s).2 :=
  ⟨by rw [takeDraw_frame], by rw [takeDraw_ram]; exact fun h => h, by rw [takeDraw_ram]; exact fun h => h⟩

theorem memWrite_moves {s t : State} {a : U32} {b : List Byte} (h : memWrite s a b = .ok t) : ChunkMoves s t :=
  ⟨by rw [memWrite_ram h], memWrite_wf h, memWrite_below h⟩

theorem moveChunk_moves {c n : Nat} {p : PolledDma} {s t : State} (h : moveChunk c n p s = .ok t) :
    ChunkMoves s t := by
  unfold moveChunk at h
  split at h
  · obtain ⟨⟨b, u⟩, h1, h2⟩ := res_bind_eq_ok.1 h
    obtain ⟨-, -, rfl⟩ := devRead_ok h1
    exact (takeDraw_moves s).trans (memWrite_moves h2)
  · obtain ⟨b, -, h2⟩ := res_bind_eq_ok.1 h
    obtain ⟨-, rfl⟩ := devWrite_ok h2
    exact (takeDraw_moves s).trans ⟨rfl, fun h => h, fun h => h⟩

/-- Everything part 1 of the polled step can have done: the channel is unchanged, or it moved one chunk (R134). -/
theorem pdmaMove_ok {c : Nat} {p q : PolledDma} {s t : State} (h : pdmaMove c p s = .ok (q, t)) :
    ChunkMoves s t ∧ (q = p ∨ (p.transferred < p.count ∧
      q = { p with transferred := p.transferred + BitVec.ofNat 32 (chunkSize s.cfg p) })) := by
  unfold pdmaMove at h
  split at h
  · obtain ⟨⟨r, u⟩, h1, h2⟩ := res_bind_eq_ok.1 h
    obtain ⟨-, rfl, rfl⟩ := devReady_ok h1
    dsimp only at h2
    split at h2
    · obtain ⟨v, h3, h4⟩ := res_bind_eq_ok.1 h2
      simp only [res_pure, Except.ok.injEq, Prod.mk.injEq] at h4
      obtain ⟨rfl, rfl⟩ := h4
      exact ⟨(takeDraw_moves s).trans (moveChunk_moves h3), .inr ⟨by assumption, rfl⟩⟩
    · simp only [res_pure, Except.ok.injEq, Prod.mk.injEq] at h2
      obtain ⟨rfl, rfl⟩ := h2
      exact ⟨takeDraw_moves s, .inl rfl⟩
  · simp only [res_pure, Except.ok.injEq, Prod.mk.injEq] at h
    obtain ⟨rfl, rfl⟩ := h
    exact ⟨ChunkMoves.refl _, .inl rfl⟩

/-- R134: after a chunk, `transferred` has grown by the chunk and not past `count`. -/
theorem chunk_advances {c : Config} {p : PolledDma} (h : p.transferred < p.count) :
    (p.transferred + BitVec.ofNat 32 (chunkSize c p)).toNat = p.transferred.toNat + chunkSize c p ∧
      p.transferred.toNat + chunkSize c p ≤ p.count.toNat := by
  have h1 : p.transferred.toNat < p.count.toNat := BitVec.lt_def.1 h
  have h2 : p.transferred.toNat + chunkSize c p ≤ p.count.toNat := by unfold chunkSize; omega
  exact ⟨toNat_add_ofNat _ _ (by have := p.count.isLt; omega), h2⟩

/-- R134: a chunk of an IN transfer lands at dst + transferred, and a chunk of an OUT transfer leaves memory alone. -/
theorem moveChunk_bytes {c : Nat} {p : PolledDma} {s t : State} (hm : Memory.wf s.ram = true)
    (hr : p.regionOk s.cfg p.dir = true) (hlt : p.transferred < p.count)
    (h : moveChunk c (chunkSize s.cfg p) p s = .ok t) (x : Nat)
    (hx : ¬ (p.dir = .inward ∧ p.dst.toNat + p.transferred.toNat ≤ x ∧
      x < p.dst.toNat + p.transferred.toNat + chunkSize s.cfg p)) : t.byteAt x = s.byteAt x := by
  have hd : (takeDraw s).2.byteAt x = s.byteAt x := by rw [takeDraw_frame]; rfl
  unfold moveChunk at h
  split at h
  · obtain ⟨⟨b, u⟩, h1, h2⟩ := res_bind_eq_ok.1 h
    obtain ⟨-, rfl, rfl⟩ := devRead_ok h1
    rw [‹p.dir = _›] at hr
    obtain ⟨-, w⟩ := writable_sub (len := chunkSize s.cfg p) hr (chunk_advances hlt).2 (BitVec.lt_def.1 hlt)
    rw [BitVec.ofNat_toNat, BitVec.setWidth_eq] at w
    rw [byteAt_memWrite (by rw [takeDraw_ram]; exact hm) h2, w, exactBytes_length, if_neg (by tauto), hd]
  · obtain ⟨b, -, h2⟩ := res_bind_eq_ok.1 h
    obtain ⟨-, rfl⟩ := devWrite_ok h2
    exact hd

/-- R134, R135: a chunk inside a checked range can fail only by the backend's report. -/
theorem moveChunk_error {c : Nat} {p : PolledDma} {s : State} {e : Stop} (hr : p.regionOk s.cfg p.dir = true)
    (hlt : p.transferred < p.count) (h : moveChunk c (chunkSize s.cfg p) p s = .error e) :
    e = .raised .extHandler ∧ (takeDraw s).1.impossible = true := by
  unfold moveChunk devRead devWrite at h
  split at h
  · rw [‹p.dir = _›] at hr
    obtain ⟨w, -⟩ := writable_sub (len := chunkSize s.cfg p) hr (chunk_advances hlt).2 (BitVec.lt_def.1 hlt)
    rw [BitVec.ofNat_toNat, BitVec.setWidth_eq] at w
    split at h
    · cases h
      exact ⟨rfl, by assumption⟩
    · rw [res_bind_ok] at h
      dsimp only at h
      rw [memWrite_ok.2 ⟨by rw [exactBytes_length, takeDraw_cfg]; exact w, rfl⟩] at h
      cases h
  · rw [‹p.dir = _›] at hr
    obtain ⟨w, -⟩ := readable_sub (len := chunkSize s.cfg p) hr (chunk_advances hlt).2 (BitVec.lt_def.1 hlt)
    rw [BitVec.ofNat_toNat, BitVec.setWidth_eq] at w
    rw [memRead_ok.2 ⟨w, rfl⟩, res_bind_ok] at h
    split at h
    · cases h
      exact ⟨rfl, by assumption⟩
    · cases h

/-- Part 1 of the polled step changes no byte outside the channel's next chunk (R134). -/
theorem pdmaMove_bytes {c : Nat} {p q : PolledDma} {s t : State} (hm : Memory.wf s.ram = true)
    (hr : p.regionOk s.cfg p.dir = true) (h : pdmaMove c p s = .ok (q, t)) (x : Nat)
    (hx : ¬ (p.dir = .inward ∧ p.dst.toNat + p.transferred.toNat ≤ x ∧
      x < p.dst.toNat + p.transferred.toNat + chunkSize s.cfg p)) : t.byteAt x = s.byteAt x := by
  have hd : (takeDraw s).2.byteAt x = s.byteAt x := by rw [takeDraw_frame]; rfl
  unfold pdmaMove at h
  split at h
  · obtain ⟨⟨r, u⟩, h1, h2⟩ := res_bind_eq_ok.1 h
    obtain ⟨-, rfl, rfl⟩ := devReady_ok h1
    dsimp only at h2
    split at h2
    · obtain ⟨v, h3, h4⟩ := res_bind_eq_ok.1 h2
      simp only [res_pure, Except.ok.injEq, Prod.mk.injEq] at h4
      obtain ⟨-, rfl⟩ := h4
      rw [moveChunk_bytes (by rw [takeDraw_ram]; exact hm) (by rw [takeDraw_cfg]; exact hr) (by assumption)
        (by rw [takeDraw_cfg]; exact h3) x (by rw [takeDraw_cfg]; exact hx), hd]
    · simp only [res_pure, Except.ok.injEq, Prod.mk.injEq] at h2
      obtain ⟨-, rfl⟩ := h2
      exact hd
  · simp only [res_pure, Except.ok.injEq, Prod.mk.injEq] at h
    obtain ⟨-, rfl⟩ := h
    rfl

/-- R134, R135: part 1 of a checked channel can fail only by the backend's report. -/
theorem pdmaMove_error {c : Nat} {p : PolledDma} {s : State} {e : Stop} (hr : p.regionOk s.cfg p.dir = true)
    (h : pdmaMove c p s = .error e) : e = .raised .extHandler := by
  unfold pdmaMove at h
  split at h
  · rcases res_bind_eq_error.1 h with h1 | ⟨⟨r, u⟩, h1, h2⟩
    · unfold devReady at h1
      split at h1 <;> cases h1
      rfl
    · obtain ⟨-, -, rfl⟩ := devReady_ok h1
      dsimp only at h2
      split at h2
      · rcases res_bind_eq_error.1 h2 with h3 | ⟨v, -, h4⟩
        · exact (moveChunk_error (s := (takeDraw s).2) (by rw [takeDraw_cfg]; exact hr) (by assumption)
            (by rw [takeDraw_cfg]; exact h3)).1
        · cases h4
      · cases h2
  · cases h

theorem raiseCompletion_moves {irq : PdmaIrq} {s t : State} (h : raiseCompletion irq s = .ok t) : IntcMoves s t := by
  unfold raiseCompletion at h
  obtain ⟨u, h1, h2⟩ := res_bind_eq_ok.1 h
  split at h2
  · exact (trigger_moves h1).trans (trigger_moves h2)
  · simp only [res_pure, Except.ok.injEq] at h2
    subst h2
    exact trigger_moves h1

/-- Everything parts 2 and 3 of the polled step can have done (R134). -/
theorem pdmaFinish_ok {c : Nat} {p : PolledDma} {s t : State} (h : pdmaFinish c p s = .ok t) :
    ∃ q : PolledDma, q = { p with wait := waitNext p.wait, busy := q.busy } ∧ (p.busy = false → q.busy = false) ∧
      IntcMoves (s.setPdma c q) t := by
  unfold pdmaFinish at h
  split at h
  · split at h
    · exact ⟨_, rfl, fun _ => rfl, raiseCompletion_moves h⟩
    · cases h
  · simp only [Except.ok.injEq] at h
    subst h
    exact ⟨{ p with wait := waitNext p.wait }, rfl, fun h => h, IntcMoves.refl _⟩

/-- Everything the step of one channel can have done (R134): the channel was idle and nothing changed, or it moved
nothing or one chunk, counted down, and may have completed. -/
theorem pdmaChannel_ok {c : Nat} {s t : State} (h : pdmaChannel c s = .ok t) :
    ∃ p, s.pdma[c]? = some p ∧
      ((p.busy = false ∧ t = s) ∨
       (p.busy = true ∧ ∃ (q r : PolledDma) (u : State), ChunkMoves s u ∧
          (q = p ∨ (p.transferred < p.count ∧
            q = { p with transferred := p.transferred + BitVec.ofNat 32 (chunkSize s.cfg p) })) ∧
          r = { q with wait := waitNext q.wait, busy := r.busy } ∧ IntcMoves (u.setPdma c r) t)) := by
  obtain ⟨p, h1, h2⟩ := withPdma_ok h
  refine ⟨p, h1, ?_⟩
  split at h2
  · obtain ⟨⟨q, u⟩, h3, h4⟩ := res_bind_eq_ok.1 h2
    obtain ⟨m1, m2⟩ := pdmaMove_ok h3
    obtain ⟨r, r1, -, r3⟩ := pdmaFinish_ok h4
    exact .inr ⟨by assumption, q, r, u, m1, m2, r1, r3⟩
  · simp only [Except.ok.injEq] at h2
    exact .inl ⟨(Bool.not_eq_true _).mp ‹¬ p.busy = true›, h2.symm⟩

end Sys2Proof.Machine
end

