-- ==== Sys2Proof/Laws/PerInstr.lean ====
section
/-! SUPPORT. The round trip of each constructor's word: the family `WordRoundTrip`. A REGISTER or INTERNAL constructor
has no word of its own (30_encoding R60). -/

namespace Sys2Proof.Laws.WordRoundTrip

/-- Every word the encoder gives the instruction, in a configuration in which it is well-formed, decodes to it. -/
def Statement (i : Instr) : Prop :=
  ∀ (c : Config) (w : BusWord), i.wellFormed c = true → encode i = some w → decode w = i

/-- An instruction without a word. -/
theorem of_none {i : Instr} (h : encode i = none) : Statement i := fun _ w _ hw => by
  rw [h] at hw; cases hw

/-- A command's word passes every check and keeps its fields. -/
theorem of_bcw {i : Instr} {h : BitVec 8} {a v : U32} (he : encode i = some (bcw h a v))
    (hd : decode (bcw h a v) = i) : Statement i := fun _ w _ hw => by
  rw [he, Option.some.injEq] at hw
  rw [← hw, hd]

theorem readB (addr : U32) : Statement (.readB addr) :=
  of_bcw (h := 0x00) (a := addr) (v := 0) rfl (by
    rw [decode_of_none] <;>
      simp [illegalReason, bcwRsv_bcw, bcwK_bcw, bcwSz_bcw, bcwAddr_bcw, bcwValue_bcw])

theorem readH (addr : U32) : Statement (.readH addr) :=
  of_bcw (h := 0x04) (a := addr) (v := 0) rfl (by
    rw [decode_of_none] <;>
      simp [illegalReason, bcwRsv_bcw, bcwK_bcw, bcwSz_bcw, bcwAddr_bcw, bcwValue_bcw])

theorem readW (addr : U32) : Statement (.readW addr) :=
  of_bcw (h := 0x08) (a := addr) (v := 0) rfl (by
    rw [decode_of_none] <;>
      simp [illegalReason, bcwRsv_bcw, bcwK_bcw, bcwSz_bcw, bcwAddr_bcw, bcwValue_bcw])

theorem writeB (addr value : U32) : Statement (.writeB addr value) :=
  of_bcw (h := 0x01) (a := addr) (v := value) rfl (by
    rw [decode_of_none] <;>
      simp [illegalReason, bcwRsv_bcw, bcwK_bcw, bcwSz_bcw, bcwAddr_bcw, bcwValue_bcw])

theorem writeH (addr value : U32) : Statement (.writeH addr value) :=
  of_bcw (h := 0x05) (a := addr) (v := value) rfl (by
    rw [decode_of_none] <;>
      simp [illegalReason, bcwRsv_bcw, bcwK_bcw, bcwSz_bcw, bcwAddr_bcw, bcwValue_bcw])

theorem writeW (addr value : U32) : Statement (.writeW addr value) :=
  of_bcw (h := 0x09) (a := addr) (v := value) rfl (by
    rw [decode_of_none] <;>
      simp [illegalReason, bcwRsv_bcw, bcwK_bcw, bcwSz_bcw, bcwAddr_bcw, bcwValue_bcw])

theorem tick : Statement (.tick) :=
  of_bcw (h := 0x02) (a := 0) (v := 0) rfl (by
    rw [decode_of_none] <;>
      simp [illegalReason, bcwRsv_bcw, bcwK_bcw, bcwSz_bcw, bcwAddr_bcw, bcwValue_bcw])

theorem illegal (w : BusWord) : Statement (.illegal w) := fun c u hi hw => by
  rw [encode, Option.some.injEq] at hw
  subst hw
  obtain ⟨code, hc⟩ := Option.isSome_iff_exists.1 hi
  exact decode_of_some hc

theorem intcAck : Statement (.intcAck) := of_none rfl

theorem intcEnable (wv : U32) : Statement (.intcEnable wv) := of_none rfl

theorem ctCtrlR (k : Nat) : Statement (.ctCtrlR k) := of_none rfl

theorem ctCtrlW (k : Nat) (wv : U32) : Statement (.ctCtrlW k wv) := of_none rfl

theorem ctReloadR (k : Nat) : Statement (.ctReloadR k) := of_none rfl

theorem ctReloadW (k : Nat) (wv : U32) : Statement (.ctReloadW k wv) := of_none rfl

theorem ctValueR (k : Nat) : Statement (.ctValueR k) := of_none rfl

theorem clkValueR (d : Domain) : Statement (.clkValueR d) := of_none rfl

theorem ocCompareR (d : Domain) (k : Nat) : Statement (.ocCompareR d k) := of_none rfl

theorem ocArm (d : Domain) (k : Nat) (wv : U32) : Statement (.ocArm d k wv) := of_none rfl

theorem ocStatusR (d : Domain) (k : Nat) : Statement (.ocStatusR d k) := of_none rfl

theorem ocClear (d : Domain) (k : Nat) (wv : U32) : Statement (.ocClear d k wv) := of_none rfl

theorem sdmaRreg (c : Nat) (f : DmaField) : Statement (.sdmaRreg c f) := of_none rfl

theorem sdmaWreg (c : Nat) (f : DmaField) (wv : U32) : Statement (.sdmaWreg c f wv) := of_none rfl

theorem sdmaStart (c : Nat) (wv : U32) : Statement (.sdmaStart c wv) := of_none rfl

theorem pdmaRreg (c : Nat) (r : PdmaReg) : Statement (.pdmaRreg c r) := of_none rfl

theorem pdmaWreg (c : Nat) (f : DmaField) (wv : U32) : Statement (.pdmaWreg c f wv) := of_none rfl

theorem pdmaStart (c : Nat) (wv : U32) : Statement (.pdmaStart c wv) := of_none rfl

theorem extRead (e : Nat) (off : U32) : Statement (.extRead e off) := of_none rfl

theorem extWrite (e : Nat) (off wv : U32) : Statement (.extWrite e off wv) := of_none rfl

theorem defaultRead (size : Nat) (addr : U32) : Statement (.defaultRead size addr) := of_none rfl

theorem defaultWrite (size : Nat) (addr value : U32) : Statement (.defaultWrite size addr value) := of_none rfl

theorem mismatchRead (e : Nat) (off : U32) : Statement (.mismatchRead e off) := of_none rfl

theorem mismatchWrite (e : Nat) (off wv : U32) : Statement (.mismatchWrite e off wv) := of_none rfl

theorem register (entry : Entry) : Statement (.register entry) := of_none rfl

theorem activate (id : Nat) : Statement (.activate id) := of_none rfl

theorem trigger (id : Nat) (delay : U32) : Statement (.trigger id delay) := of_none rfl

theorem period : Statement (.period) := of_none rfl

theorem serviceTick : Statement (.serviceTick) := of_none rfl

theorem clockStep : Statement (.clockStep) := of_none rfl

theorem start (k : Nat) : Statement (.start k) := of_none rfl

theorem stop (k : Nat) : Statement (.stop k) := of_none rfl

theorem countdownStep : Statement (.countdownStep) := of_none rfl

theorem setCompare (d : Domain) (k : Nat) (v : U32) : Statement (.setCompare d k v) := of_none rfl

theorem ocCheck : Statement (.ocCheck) := of_none rfl

theorem ocRaise : Statement (.ocRaise) := of_none rfl

theorem sdmaCopy (src dst n : U32) : Statement (.sdmaCopy src dst n) := of_none rfl

theorem pdmaStep : Statement (.pdmaStep) := of_none rfl

theorem rearm : Statement (.rearm) := of_none rfl

end Sys2Proof.Laws.WordRoundTrip
end

