-- ==== Sys2Proof/Laws/Timers.lean ====
section
/-! SUPPORT. The timers' operations (42_timers), said once. -/

namespace Sys2Proof.Machine

theorem clockStep_eq (s : State) : clockStep s =
    { s with clk := ⟨clockNext s.cfg .narrow s.clk.narrow, clockNext s.cfg .wide s.clk.wide⟩ } := rfl

theorem ocCheck_eq (s : State) : ocCheck s = { s with
    oc := ⟨s.oc.narrow.map fun o => if fires s.clk.narrow o then { o with triggered := true } else o,
           s.oc.wide.map fun o => if fires s.clk.wide o then { o with triggered := true } else o⟩ } := rfl

/-- R16, R100: an advanced clock is in range and on its step. -/
theorem clockNext_ok {c : Config} {d : Domain} (h : c.domainOk d = true) (v : U32)
    (hv : v.toNat % (c.clkStep.get d).toNat = 0) :
    (clockNext c d v).toNat = (v.toNat + (c.clkStep.get d).toNat) % 2 ^ c.width.get d ∧
      (clockNext c d v).toNat < 2 ^ c.width.get d ∧ (clockNext c d v).toNat % (c.clkStep.get d).toNat = 0 := by
  obtain ⟨h1, h2, h3⟩ := Config.step_dvd h
  have h4 : (v.toNat + (c.clkStep.get d).toNat) % 2 ^ c.width.get d < 2 ^ c.width.get d :=
    Nat.mod_lt _ (by positivity)
  have h5 : (clockNext c d v).toNat = (v.toNat + (c.clkStep.get d).toNat) % 2 ^ c.width.get d := by
    unfold clockNext
    rw [BitVec.toNat_ofNat, Nat.mod_eq_of_lt (by omega)]
  refine ⟨h5, by omega, ?_⟩
  rw [h5, Nat.mod_mod_of_dvd _ h1, Nat.add_mod_right, hv]

/-- R113: the rounded target is in range and on the step. -/
theorem roundUp_ok {c : Config} {d : Domain} (h : c.domainOk d = true) (v : U32) :
    roundUp c d v < 2 ^ c.width.get d ∧ roundUp c d v % (c.clkStep.get d).toNat = 0 := by
  obtain ⟨h1, h2, h3⟩ := Config.step_dvd h
  refine ⟨Nat.mod_lt _ (by positivity), ?_⟩
  rw [roundUp, Nat.mod_mod_of_dvd _ h1]
  exact Nat.mul_mod_left _ _

/-- R17, R113: the armed compare value is in range. -/
theorem armedCompare_lt {c : Config} {d : Domain} (h : c.domainOk d = true) (clk v : U32) :
    (armedCompare c d clk v).toNat < 2 ^ c.width.get d := by
  obtain ⟨h1, h2, h3⟩ := Config.step_dvd h
  unfold armedCompare
  split
  · unfold clockNext
    rw [BitVec.toNat_ofNat]
    exact Nat.lt_of_le_of_lt (Nat.mod_le _ _) (Nat.mod_lt _ (by positivity))
  · rw [BitVec.toNat_ofNat]
    exact Nat.lt_of_le_of_lt (Nat.mod_le _ _) (roundUp_ok h v).1

/-- Running on a slot that exists. -/
theorem withCt_some {k : Nat} {f : Countdown → State → Res} {s : State} {t : Countdown} (h : s.ct[k]? = some t) :
    withCt k f s = f t s := by simp [withCt, h]

theorem withOc_some {d : Domain} {k : Nat} {f : OutputCompare → State → Res} {s : State} {o : OutputCompare}
    (h : (s.oc.get d)[k]? = some o) : withOc d k f s = f o s := by simp [withOc, h]

theorem withCt_ok {k : Nat} {f : Countdown → State → Res} {s u : State} (h : withCt k f s = .ok u) :
    ∃ t, s.ct[k]? = some t ∧ f t s = .ok u := by
  unfold withCt at h
  split at h
  · exact ⟨_, ‹_›, h⟩
  · cases h

theorem withOc_ok {d : Domain} {k : Nat} {f : OutputCompare → State → Res} {s u : State}
    (h : withOc d k f s = .ok u) : ∃ o, (s.oc.get d)[k]? = some o ∧ f o s = .ok u := by
  unfold withOc at h
  split at h
  · exact ⟨_, ‹_›, h⟩
  · cases h

/-- Everything a start that completes can have done (R104). -/
theorem startCt_ok {k : Nat} {s u : State} (h : startCt k s = .ok u) :
    ∃ t, s.ct[k]? = some t ∧ IntcMoves (s.setCt k { t with enabled := true }) u := by
  obtain ⟨t, h1, h2⟩ := withCt_ok h
  refine ⟨t, h1, ?_⟩
  split at h2
  · exact trigger_moves h2
  · rw [Except.ok.injEq] at h2
    rw [← h2]
    exact IntcMoves.refl _

/-- Everything an arm that completes can have done (R113). -/
theorem setCompare_ok {d : Domain} {k : Nat} {v : U32} {s u : State} (h : setCompare d k v s = .ok u) :
    ∃ o, (s.oc.get d)[k]? = some o ∧
      u = s.setOc d k { o with compare := armedCompare s.cfg d (s.clk.get d) v, active := true } := by
  obtain ⟨o, h1, h2⟩ := withOc_ok h
  exact ⟨o, h1, by simpa using h2.symm⟩

end Sys2Proof.Machine
end

