-- ==== Sys2Proof/Laws/Step.lean ====
section
/-! SUPPORT. The bus access path, the tick and the step, said once: what each part can have done when it completes. -/

namespace Sys2Proof.Machine

/-! ### The access path -/

theorem checkAccess_none {c : Config} {size : Nat} {addr : U32} :
    checkAccess c size addr = none ↔ sizeOk size = true ∧ c.inAperture addr.toNat = true := by
  unfold checkAccess
  cases h1 : sizeOk size <;> cases h2 : c.inAperture addr.toNat <;> simp

/-- Everything an access that completes has done (R67): its checks pass, and it is the operation it resolves to, with
the result truncated. -/
theorem access_ok {mode : Mode} {size : Nat} {addr value : U32} {s t : State}
    (h : access mode size addr value s = .ok t) :
    checkAccess s.cfg size addr = none ∧
      ∃ u, runOp (resolve s.cfg mode size addr value) s = .ok u ∧ t = u.truncReply size := by
  unfold access at h
  split at h
  · cases h
  · obtain ⟨u, h1, h2⟩ := res_bind_eq_ok.1 h
    exact ⟨by assumption, u, h1, by simpa using h2.symm⟩

theorem extCalls_moves {l : List ExtCall} {s t : State} (h : extCalls l s = .ok t) : IntcMoves s t := by
  induction l generalizing s with
  | nil => simp only [extCalls, Except.ok.injEq] at h; subst h; exact IntcMoves.refl _
  | cons x l ih =>
    cases x with
    | enable id => exact (enableId_moves _ _).trans (ih h)
    | trigger id delay =>
      obtain ⟨u, h1, h2⟩ := res_bind_eq_ok.1 h
      exact (trigger_moves h1).trans (ih h2)
    | fatalReport => cases h

theorem withExt_ok {e : Nat} {f : ExtHandler → U32 → ExtState → State → Res} {s t : State}
    (h : withExt e f s = .ok t) : ∃ h p x, f h p x s = .ok t := by
  unfold withExt at h
  split at h
  · split at h
    · exact ⟨_, _, _, h⟩
    · cases h
  · cases h

/-- Everything an external access that completes can have done (R73): its own state, then Interrupt Controller calls. -/
theorem extRead_ok {e : Nat} {off : U32} {s t : State} (h : extRead e off s = .ok t) :
    ∃ x u r, IntcMoves (s.setExt e x) u ∧ t = u.setReply r := by
  obtain ⟨h', p, x, h⟩ := withExt_ok h
  obtain ⟨u, h1, h2⟩ := res_bind_eq_ok.1 h
  exact ⟨_, u, _, extCalls_moves h1, by simpa using h2.symm⟩

theorem extWrite_ok {e : Nat} {off wv : U32} {s t : State} (h : extWrite e off wv s = .ok t) :
    ∃ x, IntcMoves (s.setExt e x) t := by
  obtain ⟨h', p, x, h⟩ := withExt_ok h
  exact ⟨_, extCalls_moves h⟩

/-- What no register operation changes. -/
structure OpKeeps (s t : State) : Prop where
  cfg : t.cfg = s.cfg
  fault : t.fault = s.fault
  rom : t.rom = s.rom
  ticks : t.ticks = s.ticks
  clk : t.clk = s.clk
  inbox : t.inbox = s.inbox
  started : t.started = s.started
  draws : t.draws = s.draws
  drawsTaken : t.drawsTaken = s.drawsTaken
  devOut : t.devOut = s.devOut

theorem OpKeeps.refl (s : State) : OpKeeps s s := ⟨rfl, rfl, rfl, rfl, rfl, rfl, rfl, rfl, rfl, rfl⟩

theorem OpKeeps.trans {s t u : State} (h : OpKeeps s t) (k : OpKeeps t u) : OpKeeps s u :=
  ⟨k.cfg.trans h.cfg, k.fault.trans h.fault, k.rom.trans h.rom, k.ticks.trans h.ticks, k.clk.trans h.clk,
    k.inbox.trans h.inbox, k.started.trans h.started, k.draws.trans h.draws, k.drawsTaken.trans h.drawsTaken,
    k.devOut.trans h.devOut⟩

theorem IntcMoves.keeps {s t : State} (h : IntcMoves s t) : OpKeeps s t :=
  ⟨h.cfg, h.fault, h.rom, h.ticks, h.clk, h.inbox, h.started, h.draws, h.drawsTaken, h.devOut⟩

theorem setReply_keeps (s : State) (v : U32) : OpKeeps s (s.setReply v) :=
  ⟨rfl, rfl, rfl, rfl, rfl, rfl, rfl, rfl, rfl, rfl⟩

theorem setCt_keeps (s : State) (k : Nat) (t : Countdown) : OpKeeps s (s.setCt k t) :=
  ⟨rfl, rfl, rfl, rfl, rfl, rfl, rfl, rfl, rfl, rfl⟩

theorem setOc_keeps (s : State) (d : Domain) (k : Nat) (o : OutputCompare) : OpKeeps s (s.setOc d k o) :=
  ⟨rfl, rfl, rfl, rfl, rfl, rfl, rfl, rfl, rfl, rfl⟩

theorem setExt_keeps (s : State) (e : Nat) (x : ExtState) : OpKeeps s (s.setExt e x) :=
  ⟨rfl, rfl, rfl, rfl, rfl, rfl, rfl, rfl, rfl, rfl⟩

theorem acknowledge_keeps (s : State) : OpKeeps s (acknowledge s) := by
  rw [acknowledge_eq]; exact ⟨rfl, rfl, rfl, rfl, rfl, rfl, rfl, rfl, rfl, rfl⟩

/-- Every register operation keeps the configuration, ROM, the clocks and the tick count, and raises its faults rather
than storing them. -/
theorem runOp_keeps {op : Instr} {s t : State} (h : runOp op s = .ok t) : OpKeeps s t := by
  cases op <;> simp only [runOp] at h
  case intcAck =>
    simp only [intcAck, Except.ok.injEq] at h; subst h
    exact (acknowledge_keeps s).trans (setReply_keeps _ _)
  case intcEnable => simp only [intcEnable, Except.ok.injEq] at h; subst h; exact (enableId_moves _ _).keeps
  case ctCtrlR => obtain ⟨_, -, h⟩ := withCt_ok h; cases h; exact setReply_keeps _ _
  case ctCtrlW =>
    unfold ctCtrlW at h
    split at h
    · obtain ⟨_, -, h⟩ := startCt_ok h
      exact (setCt_keeps _ _ _).trans h.keeps
    · obtain ⟨_, -, h⟩ := withCt_ok h; cases h; exact setCt_keeps _ _ _
  case ctReloadR => obtain ⟨_, -, h⟩ := withCt_ok h; cases h; exact setReply_keeps _ _
  case ctReloadW => obtain ⟨_, -, h⟩ := withCt_ok h; cases h; exact setCt_keeps _ _ _
  case ctValueR => obtain ⟨_, -, h⟩ := withCt_ok h; cases h; exact setReply_keeps _ _
  case clkValueR => cases h; exact setReply_keeps _ _
  case ocCompareR => obtain ⟨_, -, h⟩ := withOc_ok h; cases h; exact setReply_keeps _ _
  case ocArm => obtain ⟨_, -, rfl⟩ := setCompare_ok h; exact setOc_keeps _ _ _ _
  case ocStatusR => obtain ⟨_, -, h⟩ := withOc_ok h; cases h; exact setReply_keeps _ _
  case ocClear => obtain ⟨_, -, h⟩ := withOc_ok h; cases h; exact setOc_keeps _ _ _ _
  case sdmaRreg => obtain ⟨_, -, h⟩ := withSdma_ok h; cases h; exact setReply_keeps _ _
  case sdmaWreg =>
    obtain ⟨_, -, h⟩ := withSdma_ok h; cases h
    exact ⟨rfl, rfl, rfl, rfl, rfl, rfl, rfl, rfl, rfl, rfl⟩
  case sdmaStart =>
    obtain ⟨_, u, -, h1, h2⟩ := sdmaStart_ok h
    refine OpKeeps.trans ?_ h2.keeps
    rw [(copyLoop_ram h1).1]
    exact ⟨rfl, rfl, rfl, rfl, rfl, rfl, rfl, rfl, rfl, rfl⟩
  case pdmaRreg => obtain ⟨_, -, h⟩ := withPdma_ok h; cases h; exact setReply_keeps _ _
  case pdmaWreg =>
    obtain ⟨_, -, h⟩ := withPdma_ok h
    split at h <;> cases h
    · exact OpKeeps.refl _
    · exact ⟨rfl, rfl, rfl, rfl, rfl, rfl, rfl, rfl, rfl, rfl⟩
  case pdmaStart =>
    obtain ⟨_, -, h⟩ := withPdma_ok h
    split at h
    · cases h
    · split at h
      · cases h
      · split at h <;> cases h
        exact ⟨rfl, rfl, rfl, rfl, rfl, rfl, rfl, rfl, rfl, rfl⟩
  case extRead =>
    obtain ⟨_, _, _, h1, rfl⟩ := extRead_ok h
    exact ((setExt_keeps _ _ _).trans h1.keeps).trans (setReply_keeps _ _)
  case extWrite => obtain ⟨_, h1⟩ := extWrite_ok h; exact (setExt_keeps _ _ _).trans h1.keeps
  case defaultRead => unfold defaultRead at h; split at h <;> cases h; exact setReply_keeps _ _
  case defaultWrite =>
    unfold defaultWrite at h
    split at h <;> cases h
    exact ⟨rfl, rfl, rfl, rfl, rfl, rfl, rfl, rfl, rfl, rfl⟩
  case mismatchRead => unfold mismatchRead at h; split at h <;> cases h; exact setReply_keeps _ _
  case mismatchWrite => unfold mismatchWrite at h; split at h <;> cases h; exact OpKeeps.refl _
  all_goals cases h

theorem access_keeps {mode : Mode} {size : Nat} {addr value : U32} {s t : State}
    (h : access mode size addr value s = .ok t) : OpKeeps s t := by
  obtain ⟨-, u, h1, rfl⟩ := access_ok h
  exact (runOp_keeps h1).trans ⟨rfl, rfl, rfl, rfl, rfl, rfl, rfl, rfl, rfl, rfl⟩

/-! ### The tick -/

/-- Everything the polled step may do to the block: its channels, RAM, the draws, what it sends to the backend, and
Interrupt Controller requests. -/
structure PolledMoves (s t : State) : Prop extends IntcChange s t where
  frame : t = { s with
    enabled := t.enabled, scheduled := t.scheduled, activeId := t.activeId, irqLine := t.irqLine
    pdma := t.pdma, ram := t.ram, draws := t.draws, drawsTaken := t.drawsTaken, devOut := t.devOut }
  pdmaLength : t.pdma.length = s.pdma.length
  wf : Memory.wf s.ram = true → Memory.wf t.ram = true
  below : Memory.below s.cfg.ramSize.toNat s.ram = true → Memory.below s.cfg.ramSize.toNat t.ram = true

theorem PolledMoves.refl (s : State) : PolledMoves s s :=
  ⟨(IntcMoves.refl s).toIntcChange, rfl, rfl, fun h => h, fun h => h⟩

theorem PolledMoves.trans {s t u : State} (h : PolledMoves s t) (k : PolledMoves t u) : PolledMoves s u where
  toIntcChange := h.toIntcChange.trans k.toIntcChange
  frame := by rw [k.frame, h.frame]
  pdmaLength := k.pdmaLength.trans h.pdmaLength
  wf hs := k.wf (h.wf hs)
  below hs := by
    have := k.below (by rw [h.cfg]; exact h.below hs)
    rwa [h.cfg] at this

theorem pdmaChannel_moves {c : Nat} {s t : State} (h : pdmaChannel c s = .ok t) : PolledMoves s t := by
  obtain ⟨p, -, ⟨-, rfl⟩ | ⟨-, q, r, u, h1, -, -, h2⟩⟩ := pdmaChannel_ok h
  · exact PolledMoves.refl _
  · have h3 : IntcChange s (u.setPdma c r) := by
      rw [h1.frame]; exact IntcChange.of_eq rfl rfl rfl rfl rfl
    refine ⟨h3.trans h2.toIntcChange, ?_, ?_, ?_, ?_⟩
    · rw [h2.frame, h1.frame]; rfl
    · rw [h2.pdma, h1.frame]; simp
    · rw [h2.ram]; exact h1.wf
    · rw [h2.ram]; exact h1.below

/-- Every channel's part of the polled step makes the moves of the whole. -/
theorem pdmaChannels_moves {l : List Nat} {s t : State} (h : pdmaChannels l s = .ok t) : PolledMoves s t := by
  induction l generalizing s with
  | nil => simp only [pdmaChannels, Except.ok.injEq] at h; subst h; exact PolledMoves.refl _
  | cons c l ih =>
    obtain ⟨u, h1, h2⟩ := res_bind_eq_ok.1 h
    exact (pdmaChannel_moves h1).trans (ih h2)

theorem pdmaStep_moves {s t : State} (h : pdmaStep s = .ok t) : PolledMoves s t := pdmaChannels_moves h

/-- Idle channels are passed over (R134). -/
theorem pdmaChannels_pass {l : List Nat} {s : State} (hl : ∀ c ∈ l, c < s.pdma.length)
    (h : ∀ c ∈ l, ∀ p, s.pdma[c]? = some p → p.busy = false) : pdmaChannels l s = .ok s := by
  induction l with
  | nil => rfl
  | cons c l ih =>
    have hc := List.getElem?_eq_getElem (hl c (List.mem_cons_self ..))
    have h1 : pdmaChannel c s = .ok s := by
      rw [pdmaChannel, withPdma_some hc]
      simp [h c (List.mem_cons_self ..) _ hc]
    rw [pdmaChannels, h1, res_bind_ok]
    exact ih (fun c' h' => hl c' (List.mem_cons_of_mem _ h')) fun c' h' => h c' (List.mem_cons_of_mem _ h')

/-- With every channel idle the polled step changes nothing (R134). -/
theorem pdmaChannels_idle {l : List Nat} {s : State} (hl : ∀ c ∈ l, c < s.pdma.length)
    (h : ∀ p ∈ s.pdma, p.busy = false) : pdmaChannels l s = .ok s :=
  pdmaChannels_pass hl fun _ _ p hp => h p (List.mem_of_getElem? hp)

theorem pdmaStep_idle {s : State} (hl : s.pdma.length = s.cfg.nPdma) (h : ∀ p ∈ s.pdma, p.busy = false) :
    pdmaStep s = .ok s :=
  pdmaChannels_idle (fun c hc => by rw [hl]; simpa using hc) h

theorem pdmaChannels_append (l m : List Nat) (s : State) :
    pdmaChannels (l ++ m) s = (do let t ← pdmaChannels l s; pdmaChannels m t) := by
  induction l generalizing s with
  | nil => rfl
  | cons c l ih =>
    simp only [List.cons_append, pdmaChannels]
    cases pdmaChannel c s with
    | error e => rfl
    | ok t => simp only [res_bind_ok, ih]

/-- The step of one channel touches no other channel (R134, R139). -/
theorem pdmaChannel_pdma {c : Nat} {s t : State} (h : pdmaChannel c s = .ok t) :
    t.pdma.length = s.pdma.length ∧ ∀ j, j ≠ c → t.pdma[j]? = s.pdma[j]? := by
  obtain ⟨p, -, ⟨-, rfl⟩ | ⟨-, q, r, u, h1, -, -, h2⟩⟩ := pdmaChannel_ok h
  · exact ⟨rfl, fun _ _ => rfl⟩
  · have h3 : t.pdma = s.pdma.set c r := by
      rw [h2.pdma]
      show u.pdma.set c r = _
      rw [h1.frame]
    exact ⟨by rw [h3, List.length_set], fun j hj => by rw [h3, List.getElem?_set_ne (Ne.symm hj)]⟩

/-- Where no channel but `c` is busy, the polled step is that channel's (R134). -/
theorem pdmaStep_lone {s : State} {c : Nat} (hl : s.pdma.length = s.cfg.nPdma) (hc : c < s.pdma.length)
    (h : ∀ j q, j ≠ c → s.pdma[j]? = some q → q.busy = false) : pdmaStep s = pdmaChannel c s := by
  have hs : List.range s.cfg.nPdma =
      List.range c ++ (c :: (List.range (s.cfg.nPdma - c - 1)).map (c + 1 + ·)) := by
    obtain ⟨m, hm⟩ : ∃ m, s.cfg.nPdma = c + 1 + m := ⟨s.cfg.nPdma - c - 1, by omega⟩
    rw [hm, List.range_add, List.range_add, show c + 1 + m - c - 1 = m by omega]
    simp
  have hm : ∀ k ∈ (List.range (s.cfg.nPdma - c - 1)).map (c + 1 + ·), k < s.pdma.length ∧ k ≠ c := by
    simp only [List.mem_map, List.mem_range]
    rintro k ⟨x, hx, rfl⟩
    omega
  unfold pdmaStep
  rw [hs, pdmaChannels_append, pdmaChannels_pass (fun k hk => by rw [List.mem_range] at hk; omega)
    (fun k hk q hq => h k q (by rw [List.mem_range] at hk; omega) hq), res_bind_ok, pdmaChannels]
  cases ht : pdmaChannel c s with
  | error e => rfl
  | ok t =>
    obtain ⟨h1, h2⟩ := pdmaChannel_pdma ht
    rw [res_bind_ok]
    exact pdmaChannels_pass (fun k hk => by rw [h1]; exact (hm k hk).1) fun k hk q hq =>
      h k q (hm k hk).2 (by rw [← h2 k (hm k hk).2]; exact hq)

/-- The fields of the state in which the tick's raises run (R141 steps 1 to 4). -/
theorem tickEngines_eq (s : State) : tickEngines s = { serviceTick s with
    clk := ⟨clockNext s.cfg .narrow s.clk.narrow, clockNext s.cfg .wide s.clk.wide⟩
    ct := s.ct.map (countdownNext s.cfg.ctStep)
    oc := ⟨s.oc.narrow.map fun o =>
            if fires (clockNext s.cfg .narrow s.clk.narrow) o then { o with triggered := true } else o,
           s.oc.wide.map fun o =>
            if fires (clockNext s.cfg .wide s.clk.wide) o then { o with triggered := true } else o⟩ } := by
  unfold tickEngines
  rw [(serviceTick_moves s).frame]
  rfl

/-- A tick that completes (R141): the engines, the raises, the polled step, the count. -/
theorem onTick_ok {s t : State} : onTick s = .ok t ↔
    ∃ a b, ocRaise (tickEngines s) = .ok a ∧ pdmaStep a = .ok b ∧ t = b.countTick := by
  unfold onTick
  simp only [res_bind_eq_ok, res_pure, Except.ok.injEq, rearm]
  constructor
  · rintro ⟨a, h1, b, h2, h3⟩; exact ⟨a, b, h1, h2, h3.symm⟩
  · rintro ⟨a, b, h1, h2, h3⟩; exact ⟨a, h1, b, h2, h3.symm⟩

/-- Everything a tick that completes has done, field by field (R141). -/
structure TickMoves (s t : State) : Prop extends IntcChange s t where
  ct : t.ct = s.ct.map (countdownNext s.cfg.ctStep)
  clk : t.clk = ⟨clockNext s.cfg .narrow s.clk.narrow, clockNext s.cfg .wide s.clk.wide⟩
  oc : ∀ d, t.oc.get d = (s.oc.get d).map fun o =>
    if fires (clockNext s.cfg d (s.clk.get d)) o then { o with triggered := true } else o
  sdma : t.sdma = s.sdma
  pdmaLength : t.pdma.length = s.pdma.length
  rom : t.rom = s.rom
  backing : t.backing = s.backing
  ext : t.ext = s.ext
  fault : t.fault = s.fault
  ticks : t.ticks = s.ticks + 1
  started : t.started = s.started
  inbox : t.inbox = s.inbox
  reply : t.reply = s.reply
  wf : Memory.wf s.ram = true → Memory.wf t.ram = true
  below : Memory.below s.cfg.ramSize.toNat s.ram = true → Memory.below s.cfg.ramSize.toNat t.ram = true

theorem tickEngines_intc (s : State) : IntcChange s (tickEngines s) := by
  refine (serviceTick_moves s).toIntcChange.trans ?_
  rw [tickEngines_eq]
  exact IntcChange.of_eq rfl rfl rfl rfl rfl

/-- What the raises and the polled step leave of the state they start from. -/
theorem raise_polled_eq {e a b : State} (m1 : IntcMoves e a) (m2 : PolledMoves a b) : b.countTick = { e with
    enabled := b.enabled, scheduled := b.scheduled, activeId := b.activeId, irqLine := b.irqLine
    pdma := b.pdma, ram := b.ram, draws := b.draws, drawsTaken := b.drawsTaken, devOut := b.devOut
    ticks := e.ticks + 1 } := by
  have hb := m2.frame
  have ha := m1.frame
  rw [hb, ha]
  rfl

theorem onTick_moves {s t : State} (h : onTick s = .ok t) : TickMoves s t := by
  obtain ⟨a, b, h1, h2, rfl⟩ := onTick_ok.1 h
  have m1 := ocRaise_moves h1
  have m2 := pdmaStep_moves h2
  have hs := serviceTick_moves s
  have e := tickEngines_eq s
  have hb : b.countTick = { tickEngines s with
      enabled := b.enabled, scheduled := b.scheduled, activeId := b.activeId, irqLine := b.irqLine
      pdma := b.pdma, ram := b.ram, draws := b.draws, drawsTaken := b.drawsTaken, devOut := b.devOut
      ticks := (tickEngines s).ticks + 1 } := by
    exact raise_polled_eq m1 m2
  constructor
  case toIntcChange =>
    refine (((tickEngines_intc s).trans m1.toIntcChange).trans m2.toIntcChange).trans ?_
    exact IntcChange.of_eq rfl rfl rfl rfl rfl
  case ct => rw [hb, e]
  case clk => rw [hb, e]
  case oc => intro d; rw [hb, e]; cases d <;> rfl
  case sdma => rw [hb, e]; exact hs.sdma
  case pdmaLength => rw [State.countTick_pdma, m2.pdmaLength, m1.pdma, e]; exact congrArg _ hs.pdma
  case rom => rw [hb, e]; exact hs.rom
  case backing => rw [hb, e]; exact hs.backing
  case ext => rw [hb, e]; exact hs.ext
  case fault => rw [hb, e]; exact hs.fault
  case ticks => rw [hb, e]; exact congrArg (· + 1) hs.ticks
  case started => rw [hb, e]; exact hs.started
  case inbox => rw [hb, e]; exact hs.inbox
  case reply => rw [hb, e]; exact hs.reply
  case wf =>
    intro hw
    refine m2.wf ?_
    rw [m1.ram, e]
    exact (congrArg Memory.wf hs.ram).trans hw
  case below =>
    intro hw
    have hc : a.cfg = s.cfg := by rw [m1.cfg, e]; exact hs.cfg
    have hr : a.ram = s.ram := by rw [m1.ram, e]; exact hs.ram
    have := m2.below (by rw [hc, hr]; exact hw)
    rwa [hc] at this

/-! ### The step -/

/-- The operation each instruction runs. -/
def meaning : Instr → State → Res
  | .readB addr => access .read 1 addr 0
  | .readH addr => access .read 2 addr 0
  | .readW addr => access .read 4 addr 0
  | .writeB addr value => access .write 1 addr value
  | .writeH addr value => access .write 2 addr value
  | .writeW addr value => access .write 4 addr value
  | .tick => onTick
  | .illegal w => fun _ =>
    match illegalReason w with
    | some code => .error (.raised code)
    | none => .error (.outside .noSuchUnit)
  | .register entry => register entry
  | .activate id => fun s =>
    if s.cfg.idOk id then .ok (activate id s) else .error (.outside .noSuchUnit)
  | .trigger id delay => trigger id delay
  | .period => fun s => .ok (s.setReply (periodOf s))
  | .serviceTick => fun s => .ok (serviceTick s)
  | .clockStep => fun s => .ok (clockStep s)
  | .start k => startCt k
  | .stop k => stopCt k
  | .countdownStep => fun s => .ok (countdownStep s)
  | .setCompare d k v => setCompare d k v
  | .ocCheck => fun s => .ok (ocCheck s)
  | .ocRaise => ocRaise
  | .sdmaCopy src dst n => sdmaCopy src dst n
  | .pdmaStep => pdmaStep
  | .rearm => fun s => .ok (rearm s)
  | .intcAck => intcAck
  | .intcEnable wv => intcEnable wv
  | .ctCtrlR k => ctCtrlR k
  | .ctCtrlW k wv => ctCtrlW k wv
  | .ctReloadR k => ctReloadR k
  | .ctReloadW k wv => ctReloadW k wv
  | .ctValueR k => ctValueR k
  | .clkValueR d => clkValueR d
  | .ocCompareR d k => ocCompareR d k
  | .ocArm d k wv => ocArm d k wv
  | .ocStatusR d k => ocStatusR d k
  | .ocClear d k wv => ocClear d k wv
  | .sdmaRreg c f => sdmaRreg c f
  | .sdmaWreg c f wv => sdmaWreg c f wv
  | .sdmaStart c wv => sdmaStart c wv
  | .pdmaRreg c r => pdmaRreg c r
  | .pdmaWreg c f wv => pdmaWreg c f wv
  | .pdmaStart c wv => pdmaStart c wv
  | .extRead e off => extRead e off
  | .extWrite e off wv => extWrite e off wv
  | .defaultRead size addr => defaultRead size addr
  | .defaultWrite size addr value => defaultWrite size addr value
  | .mismatchRead e _ => mismatchRead e
  | .mismatchWrite e _ _ => mismatchWrite e

/-- Every instruction is its operation, run as one step. -/
theorem exec_eq (i : Instr) (s : State) : exec i s = perform (meaning i) s := by cases i <;> rfl

/-- An instruction whose operation completes has that next state. -/
theorem exec_ok {i : Instr} {s t : State} (hf : s.fault = none) (h : meaning i s.begun = .ok t) :
    exec i s = .next t := by rw [exec_eq, perform_ok hf h]

/-- An instruction whose operation raises a fault records it and changes nothing else of the spec's state (R152). -/
theorem exec_raised {i : Instr} {s : State} (code : FaultCode) (hf : s.fault = none)
    (h : meaning i s.begun = .error (.raised code)) :
    exec i s = .next { s with fault := some (code.kind, code), reply := none, devOut := [] } := by
  rw [exec_eq, perform_raised hf h, takeFault_eq]

theorem exec_outside {i : Instr} {s : State} {r : Refusal} (hf : s.fault = none)
    (h : meaning i s.begun = .error (.outside r)) : exec i s = .refused r := by rw [exec_eq, perform_outside hf h]

theorem exec_next {i : Instr} {s t : State} : exec i s = .next t ↔ s.fault = none ∧
    (meaning i s.begun = .ok t ∨ ∃ code, meaning i s.begun = .error (.raised code) ∧ t = takeFault code s.begun) := by
  rw [exec_eq, perform_next]

/-- Everything a step that has a next state has done. -/
theorem step_next {s t : State} : step s = .next t ↔
    s.fault = none ∧ ∃ w rest, s.inbox = w :: rest ∧ exec (decode w) (s.fetched rest) = .next t := by
  unfold step
  cases hf : s.fault with
  | some f => obtain ⟨kind, code⟩ := f; cases kind <;> simp [halted]
  | none => cases hi : s.inbox <;> simp

/-- With a command presented and no fault, a step runs what its word decodes to. -/
theorem step_run {s : State} {w : BusWord} {rest : List BusWord} (hf : s.fault = none) (hi : s.inbox = w :: rest) :
    step s = exec (decode w) (s.fetched rest) := by
  unfold step; rw [hf, hi]

/-- The eight things a word can decode to (R54). -/
theorem decode_cases (w : BusWord) :
    (∃ a, decode w = .readB a) ∨ (∃ a, decode w = .readH a) ∨ (∃ a, decode w = .readW a) ∨
      (∃ a v, decode w = .writeB a v) ∨ (∃ a v, decode w = .writeH a v) ∨ (∃ a v, decode w = .writeW a v) ∨
      decode w = .tick ∨ (decode w = .illegal w ∧ ∃ code, illegalReason w = some code) := by
  unfold decode
  split
  · simp only [reduceCtorEq, exists_const, false_or, true_and]
    exact ⟨_, ‹_›⟩
  · split
    · simp
    · split
      · split
        · simp
        · split <;> simp
      · split
        · simp
        · split <;> simp

/-- A step is an access, a tick or an illegal word. -/
theorem exec_decode (w : BusWord) (s : State) :
    (∃ mode size a v, exec (decode w) s = perform (access mode size a v) s ∧ decode w ≠ .tick) ∨
      (decode w = .tick ∧ exec (decode w) s = perform onTick s) ∨
      (decode w = .illegal w ∧ ∃ code, exec (decode w) s = perform (fun _ => .error (.raised code)) s) := by
  rcases decode_cases w with ⟨a, h⟩ | ⟨a, h⟩ | ⟨a, h⟩ | ⟨a, v, h⟩ | ⟨a, v, h⟩ | ⟨a, v, h⟩ | h | ⟨h, code, h'⟩
  · exact .inl ⟨.read, 1, a, 0, by rw [h]; rfl, by rw [h]; simp⟩
  · exact .inl ⟨.read, 2, a, 0, by rw [h]; rfl, by rw [h]; simp⟩
  · exact .inl ⟨.read, 4, a, 0, by rw [h]; rfl, by rw [h]; simp⟩
  · exact .inl ⟨.write, 1, a, v, by rw [h]; rfl, by rw [h]; simp⟩
  · exact .inl ⟨.write, 2, a, v, by rw [h]; rfl, by rw [h]; simp⟩
  · exact .inl ⟨.write, 4, a, v, by rw [h]; rfl, by rw [h]; simp⟩
  · exact .inr (.inl ⟨h, by rw [h]; rfl⟩)
  · refine .inr (.inr ⟨h, code, ?_⟩)
    rw [h]
    simp only [exec, execIllegal, h']

end Sys2Proof.Machine
end

