-- ==== Sys2Proof/Tests/Slice0.lean ====
section
/-! SUPPORT. The tests: ill-formed terms that each check refuses, words written out from 30_encoding R53 with what they
decode to and the operation they reach in the reference registry (R57, D42), one-step tests whose expected results are
95_test_vectors' or hand calculation from the rule named, and the witnesses of the statements' hypotheses. -/

namespace Sys2Proof.Tests

open Sys2Proof.Machine Sys2Proof.Claims

-- Over a hundred kernel decisions queued at once would each hold a thread: they are checked one after another.
set_option Elab.async false

/-! ### Helpers -/

/-- The reference configuration with 64 interrupt ids. -/
def tinyConfig : Config := { Config.reference with nIrq := 0x40 }

/-- The reset state of `tinyConfig`. -/
def tiny : State := State.resetOf tinyConfig

/-- The next state, if there is one. -/
def next? : Host.Outcome State Fault Refusal → Option State
  | .next t => some t
  | .fault _ => none
  | .refused _ => none

/-- What `f` shows of the next state. -/
def sees {α : Type} (i : Instr) (s : State) (f : State → α) : Option α := (next? (exec i s)).map f

theorem next_with {o : Host.Outcome State Fault Refusal} (p : State → Bool) (h : (next? o).any p = true) :
    ∃ t, o = .next t ∧ p t = true := by
  cases o with
  | next t => exact ⟨t, rfl, h⟩
  | fault f => cases h
  | refused r => cases h

/-- The operation the command of a word selects in a configuration. -/
def operationOf (c : Config) (w : BusWord) : Option Instr :=
  (busAccess (decode w)).map fun b => resolve c b.1 b.2.1 b.2.2.1 b.2.2.2

/-- The parts of the run invariant, as a Bool. -/
def invOk (s : State) : Bool :=
  s.cfg.wellFormed && decide (s.enabled.length = s.cfg.nIrq) && decide (s.scheduled.length = s.cfg.nIrq) &&
  decide (s.activeId < s.cfg.nIrq) && decide (s.irqLine = decide (s.activeId ≠ 0)) &&
  decide (s.ct.length = s.cfg.nCt) &&
  ([Domain.narrow, .wide].all fun d =>
    decide ((s.clk.get d).toNat < 2 ^ s.cfg.width.get d) &&
    decide ((s.clk.get d).toNat % (s.cfg.clkStep.get d).toNat = 0) &&
    decide ((s.oc.get d).length = s.cfg.nOc d) &&
    (s.oc.get d).all fun o => decide (o.compare.toNat < 2 ^ s.cfg.width.get d)) &&
  decide (s.sdma.length = s.cfg.nSdma) && decide (s.pdma.length = s.cfg.nPdma) &&
  (s.pdma.all fun p => decide (p.transferred.toNat % 4 = 0) &&
    decide (p.busy = true → p.transferred.toNat ≤ p.count.toNat) && decide (p.busy = true → p.count.toNat % 4 = 0) &&
    decide (p.busy = true → p.regionOk s.cfg p.dir = true)) &&
  decide (s.ext.length = s.cfg.registry.length) &&
  Memory.wf s.ram && Memory.below s.cfg.ramSize.toNat s.ram && Memory.wf s.rom &&
  Memory.below s.cfg.romSize.toNat s.rom && Memory.wf s.backing && Memory.below s.cfg.mmioSize.toNat s.backing

theorem inv_of_ok {s : State} (h : invOk s = true) : s.Inv := by
  simp only [invOk, Bool.and_eq_true, List.all_cons, List.all_nil, and_true, List.all_eq_true, decide_eq_true_eq] at h
  obtain ⟨⟨⟨⟨⟨⟨⟨⟨⟨⟨⟨⟨⟨⟨⟨⟨h1, h2⟩, h3⟩, h4⟩, h5⟩, h6⟩, ⟨⟨⟨a1, a2⟩, a3⟩, a4⟩, ⟨⟨b1, b2⟩, b3⟩, b4⟩, h8⟩, h9⟩, h10⟩, h11⟩,
    h12⟩, h13⟩, h14⟩, h15⟩, h16⟩, h17⟩ := h
  exact
    { cfgOk := h1
      enabledLength := h2
      scheduledLength := h3
      activeRange := h4
      line := h5
      ctLength := h6
      clockOk := fun d => by
        cases d
        · exact ⟨a1, a2⟩
        · exact ⟨b1, b2⟩
      ocLength := fun d => by
        cases d
        · exact a3
        · exact b3
      compareOk := fun d => by
        cases d
        · exact a4
        · exact b4
      sdmaLength := h8
      pdmaLength := h9
      polledOk := fun p hp => ⟨(h10 p hp).1.1.1, (h10 p hp).1.1.2, (h10 p hp).1.2, (h10 p hp).2⟩
      extLength := h11
      ramWf := h12
      ramBelow := h13
      romWf := h14
      romBelow := h15
      backingWf := h16
      backingBelow := h17 }

/-! ### Well-formedness: each check refuses an ill-formed term -/

theorem test_wf_reference : Config.reference.wellFormed = true := by decide +kernel
theorem test_wf_nIrq : { tinyConfig with nIrq := 1 }.wellFormed = false := by decide +kernel
theorem test_wf_reasonShift : { tinyConfig with reasonShift := 32 }.scalarsOk = false := by decide +kernel
theorem test_wf_nCt : { tinyConfig with nCt := 0 }.scalarsOk = false := by decide +kernel
theorem test_wf_sysTimerSlot : { tinyConfig with sysTimerSlot := 2 }.scalarsOk = false := by decide +kernel
theorem test_wf_sdmaChunk : { tinyConfig with sdmaChunk := 0 }.scalarsOk = false := by decide +kernel
theorem test_wf_latencyDiv : { tinyConfig with dmaLatencyDiv := 0 }.scalarsOk = false := by decide +kernel
theorem test_wf_pdmaChunk : { tinyConfig with pdmaChunk := 6 }.scalarsOk = false := by decide +kernel
theorem test_wf_pdmaChunk_zero : { tinyConfig with pdmaChunk := 0 }.scalarsOk = false := by decide +kernel
theorem test_wf_mmioBase : { tinyConfig with mmioBase := 0xC0000002 }.scalarsOk = false := by decide +kernel
theorem test_wf_mmioSize : { tinyConfig with mmioSize := 0x1001 }.scalarsOk = false := by decide +kernel
theorem test_wf_periodicIrq : { tinyConfig with periodicIrq := 0 }.idsOk = false := by decide +kernel
theorem test_wf_ocIrq : { tinyConfig with ocIrq := ⟨[0x40], []⟩ }.idsOk = false := by decide +kernel
theorem test_wf_ocIrq_wide : { tinyConfig with ocIrq := ⟨[], [0]⟩ }.idsOk = false := by decide +kernel
theorem test_wf_sdmaIrq : { tinyConfig with sdmaIrq := [0x40] }.idsOk = false := by decide +kernel
theorem test_wf_pdmaIrq : { tinyConfig with pdmaIrq := [⟨0, 0⟩] }.idsOk = false := by decide +kernel
theorem test_wf_pdmaIrq_drv : { tinyConfig with pdmaIrq := [⟨1, 0x40⟩] }.idsOk = false := by decide +kernel
theorem test_wf_step_power : { tinyConfig with clkStep := ⟨0x180, 0x400⟩ }.domainOk .narrow = false := by decide +kernel
theorem test_wf_step_size : { tinyConfig with width := ⟨7, 32⟩ }.domainOk .narrow = false := by decide +kernel
theorem test_wf_width : { tinyConfig with width := ⟨20, 33⟩ }.domainOk .wide = false := by decide +kernel
theorem test_wf_regions : { tinyConfig with romBase := 0x00800000 }.regionsOk = false := by decide +kernel
theorem test_wf_regions_mmio : { tinyConfig with romLimit := 0xBFFFFFFF, mmioBase := 0x00FFFFF0 }.regionsOk = false := by
  decide +kernel
theorem test_wf_registry : { tinyConfig with registry := [⟨"e", 8, 4, .intc 0⟩] }.wellFormed = false := by
  decide +kernel
theorem test_wf_image : { tinyConfig with initRam := none }.wellFormed = false := by decide +kernel
theorem test_wf_image_size : imageOk 0x100 (some ⟨0xFF, []⟩) = false := by decide
theorem test_wf_entry_order : tinyConfig.entryOk ⟨"e", 8, 4, .intc 0⟩ = false := by decide +kernel
theorem test_wf_entry_start : tinyConfig.entryOk ⟨"e", 2, 4, .intc 0⟩ = false := by decide +kernel
theorem test_wf_entry_intc : tinyConfig.entryOk ⟨"e", 0, 4, .intc 1⟩ = false := by decide +kernel
theorem test_wf_entry_ct : tinyConfig.entryOk ⟨"e", 0, 4, .ct 2⟩ = false := by decide +kernel
theorem test_wf_entry_oc : tinyConfig.entryOk ⟨"e", 0, 4, .oc .wide 1⟩ = false := by decide +kernel
theorem test_wf_entry_sdma : tinyConfig.entryOk ⟨"e", 0, 4, .sdma 1⟩ = false := by decide +kernel
theorem test_wf_entry_pdma : tinyConfig.entryOk ⟨"e", 0, 4, .pdma 1⟩ = false := by decide +kernel
theorem test_wf_entry_ext : tinyConfig.entryOk ⟨"e", 0, 4, .ext (.shim 0) 0⟩ = false := by decide +kernel
theorem test_wf_offsets_distinct : { Offsets.reference with ctReload := 0 }.wellFormed = false := by decide +kernel
theorem test_wf_offsets_aligned : { Offsets.reference with ocStatus := 6 }.wellFormed = false := by decide +kernel
theorem test_wf_memory_order : Memory.wf [(2, 1), (1, 1)] = false := by decide
theorem test_wf_memory_zero : Memory.wf [(1, 1), (2, 0)] = false := by decide

/-- An operand out of range is refused for every constructor that has one. -/
theorem test_wf_instr : ∀ i ∈ [Instr.illegal 0x020000000000000000, .ctCtrlR 2, .ctCtrlW 2 1, .ctReloadR 2, .ctReloadW 2 0,
    .ctValueR 2, .ocCompareR .narrow 2, .ocArm .wide 1 0, .ocStatusR .narrow 2, .ocClear .wide 1 0, .sdmaRreg 1 .src,
    .sdmaWreg 1 .dst 0, .sdmaStart 1 0, .pdmaRreg 1 .xfer, .pdmaWreg 1 .count 0, .pdmaStart 1 0, .extRead 0 0,
    .extWrite 12 0 0, .defaultRead 3 0xC1000000, .defaultWrite 4 0xBFFFFFFF 0, .mismatchRead 10 0, .mismatchWrite 12 0 0,
    .activate 0, .activate 0x40, .start 2, .stop 2, .setCompare .narrow 2 0],
    i.wellFormed tinyConfig = false := by decide +kernel

/-! ### Decoding: words written out from R53, bits [71:68] rsv, [67:66] sz, [65:64] k, [63:32] addr, [31:0] value -/

theorem test_decode_readB : decode (0b0000#4 ++ 0b00#2 ++ 0b00#2 ++ 0xC0800002#32 ++ 0#32) = .readB 0xC0800002 := by
  decide +kernel
theorem test_decode_readH : decode (0b0000#4 ++ 0b01#2 ++ 0b00#2 ++ 0xC0800002#32 ++ 0#32) = .readH 0xC0800002 := by
  decide +kernel
theorem test_decode_readW : decode (0b0000#4 ++ 0b10#2 ++ 0b00#2 ++ 0xC0201000#32 ++ 0#32) = .readW 0xC0201000 := by
  decide +kernel
theorem test_decode_writeB :
    decode (0b0000#4 ++ 0b00#2 ++ 0b01#2 ++ 0xC0800001#32 ++ 0x1AB#32) = .writeB 0xC0800001 0x1AB := by decide +kernel
theorem test_decode_writeH :
    decode (0b0000#4 ++ 0b01#2 ++ 0b01#2 ++ 0xC0800002#32 ++ 0xCAFE#32) = .writeH 0xC0800002 0xCAFE := by decide +kernel
theorem test_decode_writeW :
    decode (0b0000#4 ++ 0b10#2 ++ 0b01#2 ++ 0xC0210004#32 ++ 0xA00#32) = .writeW 0xC0210004 0xA00 := by decide +kernel
theorem test_decode_tick : decode (0b0000#4 ++ 0b00#2 ++ 0b10#2 ++ 0#32 ++ 0#32) = .tick := by decide +kernel

/-- The refused words of 95_test_vectors 2.1, with their codes; then one for each further way to fail a check. -/
theorem test_decode_illegal :
    ([0x10C020100000000000, 0x03C020100000000000, 0x020000000400000000, 0x060000000000000000, 0x08C020100000000001,
      0x1CC020100000000000, 0x020000000000000001, 0xF00000000000000000].all fun w : BusWord =>
        decode w == .illegal w && illegalReason w == some .badCommand) = true ∧
    ([0x0CC020100000000000, 0x0DC020100000000001, 0x0C0000000000000001].all fun w : BusWord =>
        decode w == .illegal w && illegalReason w == some .accessSize) = true := by decide +kernel

theorem test_decode_table_word :
    decodeTableWord 72 0x020000000000000000 = some .tick ∧ decodeTableWord 72 (2 ^ 72) = none := by decide +kernel

/-- A command's word runs as the next step (E2 step 1, on the reference reset state). -/
theorem test_step_fetches : (next? (step (State.reset.withFetchWord 72 0x09C0800000DEADBEEF))).map (fun t => t.ext[10]?) =
    some (some [0xDEADBEEF]) := by decide +kernel

/-! A word for each REGISTER row: the command it decodes to, and the operation its access selects in the reference
registry at the reference offsets (R57). -/

theorem test_word_intc : operationOf tinyConfig 0x08C020100000000000 = some .intcAck ∧
    operationOf tinyConfig 0x09C020100400000005 = some (.intcEnable 5) := by decide +kernel
theorem test_word_ct : operationOf tinyConfig 0x08C021000000000000 = some (.ctCtrlR 0) ∧
    operationOf tinyConfig 0x09C021010000000001 = some (.ctCtrlW 1 1) ∧
    operationOf tinyConfig 0x08C021000400000000 = some (.ctReloadR 0) ∧
    operationOf tinyConfig 0x09C021010400000A00 = some (.ctReloadW 1 0xA00) ∧
    operationOf tinyConfig 0x08C021010800000000 = some (.ctValueR 1) := by decide +kernel
theorem test_word_clk : operationOf tinyConfig 0x08C024000000000000 = some (.clkValueR .narrow) ∧
    operationOf tinyConfig 0x08C024001000000000 = some (.clkValueR .wide) := by decide +kernel
theorem test_word_oc : operationOf tinyConfig 0x08C025001000000000 = some (.ocCompareR .narrow 1) ∧
    operationOf tinyConfig 0x09C0250000000003FF = some (.ocArm .narrow 0 0x3FF) ∧
    operationOf tinyConfig 0x08C026000400000000 = some (.ocStatusR .wide 0) ∧
    operationOf tinyConfig 0x09C025000400000000 = some (.ocClear .narrow 0 0) := by decide +kernel
theorem test_word_sdma : operationOf tinyConfig 0x08C030000800000000 = some (.sdmaRreg 0 .count) ∧
    operationOf tinyConfig 0x09C030000000001000 = some (.sdmaWreg 0 .src 0x1000) ∧
    operationOf tinyConfig 0x09C030000400008000 = some (.sdmaWreg 0 .dst 0x8000) ∧
    operationOf tinyConfig 0x09C030000C00000001 = some (.sdmaStart 0 1) := by decide +kernel
theorem test_word_pdma : operationOf tinyConfig 0x08C040001000000000 = some (.pdmaRreg 0 .xfer) ∧
    operationOf tinyConfig 0x08C040001400000000 = some (.pdmaRreg 0 .status) ∧
    operationOf tinyConfig 0x09C040000800000010 = some (.pdmaWreg 0 .count 16) ∧
    operationOf tinyConfig 0x09C040000C00000001 = some (.pdmaStart 0 1) := by decide +kernel
theorem test_word_ext : operationOf tinyConfig 0x04C080000200000000 = some (.extRead 10 0) ∧
    operationOf tinyConfig 0x01C0800001000001AB = some (.extWrite 10 0 0xAB) ∧
    operationOf tinyConfig 0x08C090000000000000 = some (.extRead 11 0x900000) := by decide +kernel
theorem test_word_default : operationOf tinyConfig 0x00C100000300000000 = some (.defaultRead 1 0xC1000003) ∧
    operationOf tinyConfig 0x09C100000011223344 = some (.defaultWrite 4 0xC1000000 0x11223344) := by decide +kernel
theorem test_word_mismatch : operationOf tinyConfig 0x08C021000C00000000 = some (.mismatchRead 1 0xC) ∧
    operationOf tinyConfig 0x09C024000000000005 = some (.mismatchWrite 3 0 5) ∧
    operationOf tinyConfig 0x08C030000C00000000 = some (.mismatchRead 8 0xC) := by decide +kernel

/-- The second-level encoder writes the words above's commands (R57). -/
theorem test_encode_access : encodeAccess tinyConfig (.ocArm .wide 0 7) = some (.writeW 0xC0260000 7) ∧
    encodeAccess tinyConfig (.pdmaRreg 0 .status) = some (.readW 0xC0400014) ∧
    encodeAccess tinyConfig (.ctValueR 2) = none ∧ encodeAccess tinyConfig .tick = none := by decide +kernel

/-! ### One step of each instruction -/

/-- ECHO holding 0xDEADBEEF (the start of 95_test_vectors 2.2). -/
def echoing : State := { tiny with ext := tiny.ext.set 10 [0xDEADBEEF] }

/-- 2.2: `R.B scratch+0x02` reads the low byte, with no lane shift. -/
theorem test_readB : sees (.readB 0xC0800002) echoing State.reply = some (some 0xEF) := by decide +kernel
/-- 2.2: `R.H scratch+0x02`. -/
theorem test_readH : sees (.readH 0xC0800002) echoing State.reply = some (some 0xBEEF) := by decide +kernel
/-- 2.2: `R.W 0xC0240004` lies between clkN and clkW. -/
theorem test_readW : sees (.readW 0xC0240004) tiny State.reply = some (some 0x12345678) := by decide +kernel
/-- 2.2: `R.W 0x00001000` is refused. -/
theorem test_readW_outside : sees (.readW 0x00001000) tiny State.fault = some (some (.refused, .outsideAperture)) := by
  decide +kernel
/-- 2.2: `W.B scratch+0x01, 0x1AB`. -/
theorem test_writeB : sees (.writeB 0xC0800001 0x1AB) echoing (fun t => t.ext[10]?) = some (some [0xAB]) := by
  decide +kernel
/-- 2.2: `W.H scratch+0x02, 0xCAFE`. -/
theorem test_writeH : sees (.writeH 0xC0800002 0xCAFE) echoing (fun t => t.ext[10]?) = some (some [0xCAFE]) := by
  decide +kernel
/-- 2.2: `W.W 0xC1000000, 0x11223344` stores 44 33 22 11. -/
theorem test_writeW : sees (.writeW 0xC1000000 0x11223344) tiny State.backing =
    some [(0x01000000, 0x44), (0x01000001, 0x33), (0x01000002, 0x22), (0x01000003, 0x11)] := by decide +kernel
/-- 2.4: one tick from reset, and the wide clock's wrap. -/
theorem test_tick : sees .tick { tiny with clk := ⟨0xFFF00, 0xFFFFFC00⟩ } (fun t => (t.clk, t.ticks)) = some (⟨0, 0⟩, 1) := by
  decide +kernel
/-- 2.10: a word with rsv = 1. -/
theorem test_illegal : sees (.illegal 0x10C020100000000000) tiny State.fault = some (some (.refused, .badCommand)) := by
  decide +kernel
/-- R90's example with REASON_SHIFT = 4: 5 is shifted, and the line falls. -/
theorem test_intcAck : sees .intcAck { tiny with activeId := 5, irqLine := true, cfg := { tinyConfig with reasonShift := 4 } }
    (fun t => (t.reply, t.activeId, t.irqLine)) = some (some 0x50, 0, false) := by decide +kernel
/-- R86: the last id, and the first past it. -/
theorem test_intcEnable : sees (.intcEnable 0x3F) tiny (·.enabled.getD 0x3F false) = some true ∧
    sees (.intcEnable 0x40) tiny State.enabled = some tiny.enabled := by decide +kernel
/-- R106: bit 0 is the enable. -/
theorem test_ctCtrlR : sees (.ctCtrlR 1) { tiny with ct := [⟨false, 0, 0⟩, ⟨true, 7, 9⟩] } State.reply = some (some 1) := by
  decide +kernel
/-- R103: bits [31:1] are ignored, so an even value stops. -/
theorem test_ctCtrlW : sees (.ctCtrlW 1 0xFFFFFFFE) { tiny with ct := [⟨false, 0, 0⟩, ⟨true, 7, 9⟩] } State.ct =
    some [⟨false, 0, 0⟩, ⟨false, 0, 9⟩] := by decide +kernel
theorem test_ctReloadR : sees (.ctReloadR 1) { tiny with ct := [⟨false, 0, 0⟩, ⟨true, 7, 9⟩] } State.reply = some (some 9) := by
  decide +kernel
/-- R107's example: the slot is not restarted. -/
theorem test_ctReloadW : sees (.ctReloadW 0 2560) { tiny with ct := [⟨true, 5, 9⟩, ⟨false, 0, 0⟩] } State.ct =
    some [⟨true, 5, 2560⟩, ⟨false, 0, 0⟩] := by decide +kernel
theorem test_ctValueR : sees (.ctValueR 1) { tiny with ct := [⟨false, 0, 0⟩, ⟨true, 7, 9⟩] } State.reply = some (some 7) := by
  decide +kernel
theorem test_clkValueR : sees (.clkValueR .wide) { tiny with clk := ⟨0x500, 0x1400⟩ } State.reply = some (some 0x1400) := by
  decide +kernel
/-- 2.6: the value read is the one after rounding. -/
theorem test_ocCompareR : sees (.ocCompareR .narrow 1)
    { tiny with oc := ⟨[⟨false, 0, false⟩, ⟨true, 0x600, false⟩], [⟨false, 0, false⟩]⟩ } State.reply = some (some 0x600) := by
  decide +kernel
/-- 2.6: 0x3FF snaps forward from clock 0x500, and 0x901 rounds to 0xA00. -/
theorem test_ocArm : sees (.ocArm .narrow 0 0x3FF) { tiny with clk := ⟨0x500, 0x1400⟩ } (fun t => t.oc.narrow[0]?) =
      some (some ⟨true, 0x600, false⟩) ∧
    sees (.ocArm .narrow 1 0x901) { tiny with clk := ⟨0x500, 0x1400⟩ } (fun t => t.oc.narrow[1]?) =
      some (some ⟨true, 0xA00, false⟩) := by decide +kernel
/-- R115's example: armed and fired reads 3. -/
theorem test_ocStatusR : sees (.ocStatusR .wide 0) { tiny with oc := ⟨[], [⟨true, 0, true⟩]⟩ } State.reply = some (some 3) ∧
    sees (.ocStatusR .wide 0) { tiny with oc := ⟨[], [⟨true, 0, false⟩]⟩ } State.reply = some (some 2) := by
  decide +kernel
/-- R117: 0 clears too, and the slot stays armed. -/
theorem test_ocClear : sees (.ocClear .narrow 1 0) { tiny with oc := ⟨[⟨true, 1, true⟩, ⟨true, 2, true⟩], []⟩ } State.oc =
    some ⟨[⟨true, 1, true⟩, ⟨true, 2, false⟩], []⟩ := by decide +kernel
theorem test_sdmaRreg : sees (.sdmaRreg 0 .dst) { tiny with sdma := [⟨1, 2, 3⟩] } State.reply = some (some 2) := by
  decide +kernel
theorem test_sdmaWreg : sees (.sdmaWreg 0 .count 20000) { tiny with sdma := [⟨1, 2, 3⟩] } State.sdma =
    some [⟨1, 2, 20000⟩] := by decide +kernel
/-- 2.7 row 1: the overlapping copy replicates, and the masked completion id is scheduled 1. -/
theorem test_sdmaStart : sees (.sdmaStart 0 0)
    { tiny with sdma := [⟨0x1000, 0x1002, 8⟩],
                ram := [(0x1001, 1), (0x1002, 2), (0x1003, 3), (0x1004, 4), (0x1005, 5), (0x1006, 6), (0x1007, 7),
                  (0x1008, 8), (0x1009, 9), (0x100A, 10), (0x100B, 11)] }
    (fun t => ((List.range 12).map fun i => Memory.get t.ram (0x1000 + i), t.scheduled.getD 0x2F 0)) =
    some ([0, 1, 0, 1, 2, 3, 2, 3, 6, 7, 10, 11], 1) := by decide +kernel
/-- 2.7: a ROM destination is refused. -/
theorem test_sdmaStart_rom : sees (.sdmaStart 0 1) { tiny with sdma := [⟨0x4000, 0xF0000000, 8⟩] } State.fault =
    some (some (.refused, .dmaRegion)) := by decide +kernel
/-- R133: STATUS of a busy OUT channel. -/
theorem test_pdmaRreg : sees (.pdmaRreg 0 .status) { tiny with pdma := [⟨1, 2, 8, .outward, true, 4, 3⟩] } State.reply =
      some (some 3) ∧
    sees (.pdmaRreg 0 .xfer) { tiny with pdma := [⟨1, 2, 8, .outward, true, 4, 3⟩] } State.reply = some (some 4) := by
  decide +kernel
/-- 2.8: a write while busy is ignored. -/
theorem test_pdmaWreg : sees (.pdmaWreg 0 .dst 99) tiny State.pdma = some [⟨0, 99, 0, .inward, false, 0, 0⟩] ∧
    sees (.pdmaWreg 0 .count 99) { tiny with pdma := [⟨1, 2, 8, .inward, true, 4, 3⟩] } State.pdma =
      some [⟨1, 2, 8, .inward, true, 4, 3⟩] := by decide +kernel
/-- P4 step 5; 2.8: COUNT 6 is refused. -/
theorem test_pdmaStart : sees (.pdmaStart 0 0) { tiny with pdma := [⟨0, 0x3000, 16, .outward, false, 9, 9⟩] } State.pdma =
      some [⟨0, 0x3000, 16, .inward, true, 0, 3⟩] ∧
    sees (.pdmaStart 0 0) { tiny with pdma := [⟨0, 0x3000, 6, .inward, false, 0, 0⟩] } State.fault =
      some (some (.refused, .pdmaAlign)) := by decide +kernel
/-- D42: ECHO at an offset other than 0 reads 0; CONST reads its parameter everywhere. -/
theorem test_extRead : sees (.extRead 10 4) echoing State.reply = some (some 0) ∧
    sees (.extRead 11 4) echoing State.reply = some (some 0x12345678) := by decide +kernel
/-- D42: ECHO ignores a write at another offset. -/
theorem test_extWrite : sees (.extWrite 10 4 7) echoing State.ext = some echoing.ext := by decide +kernel
/-- 2.2: a read returns 0 whatever is stored; size 3 is refused. -/
theorem test_defaultRead : sees (.defaultRead 4 0xC1000000) { tiny with backing := [(0x01000000, 0x44)] } State.reply =
      some (some 0) ∧
    sees (.defaultRead 3 0xC1000000) tiny State.fault = some (some (.refused, .accessSize)) := by decide +kernel
/-- R77: the bytes past the aperture's end are dropped. -/
theorem test_defaultWrite : sees (.defaultWrite 4 0xDFFFFFFE 0x11223344) tiny State.backing =
    some [(0x1FFFFFFE, 0x44), (0x1FFFFFFF, 0x33)] := by decide +kernel
theorem test_mismatchRead : sees (.mismatchRead 0 8) tiny State.reply = some (some 0) := by decide +kernel
theorem test_mismatchWrite : sees (.mismatchWrite 3 0 5) tiny id = some tiny := by decide +kernel
/-- R69: an entry is appended; 2.10: a start that is no multiple of 4 stops setup. -/
theorem test_register : sees (.register ⟨"last", 0xC1000000, 0xC1000003, .ext .echo 0⟩) tiny
      (fun t => (t.cfg.registry.length, t.ext[12]?)) = some (13, some [0]) ∧
    sees (.register ⟨"bad", 0xC1000002, 0xC1000003, .ext .echo 0⟩) tiny State.fault = some (some (.fatal, .setup)) := by
  decide +kernel
/-- R88: the periodic id is re-armed with the period, 2560 >> 8. -/
theorem test_activate : sees (.activate 0x0A) { tiny with ct := [⟨false, 0, 2560⟩, ⟨false, 0, 0⟩] }
    (fun t => (t.activeId, t.irqLine, t.scheduled.getD 0x0A 0)) = some (0x0A, true, 10) := by decide +kernel
/-- 2.3: a masked trigger is forced to 1; id 0 and id N_IRQ are fatal. -/
theorem test_trigger : sees (.trigger 5 3) tiny (fun t => t.scheduled.getD 5 0) = some 1 ∧
    sees (.trigger 0 0) tiny State.fault = some (some (.fatal, .triggerIdZero)) ∧
    sees (.trigger 0x40 0) tiny State.fault = some (some (.fatal, .triggerIdRange)) := by decide +kernel
/-- 2.3: an enabled trigger overwrites a pending count, and with delay 0 it activates. -/
theorem test_trigger_enabled :
    sees (.trigger 9 2) { tiny with enabled := tiny.enabled.set 9 true, scheduled := tiny.scheduled.set 9 5 }
      (fun t => t.scheduled.getD 9 0) = some 2 ∧
    sees (.trigger 9 0) { tiny with enabled := tiny.enabled.set 9 true } (fun t => (t.activeId, t.enabled.getD 9 true)) =
      some (9, false) := by decide +kernel
theorem test_period : sees .period { tiny with ct := [⟨false, 0, 2815⟩, ⟨false, 0, 0⟩] } State.reply = some (some 10) := by
  decide +kernel
/-- 2.3: the higher of two pending ids activates, and a count of 2 falls to 1 without activating. -/
theorem test_serviceTick : sees .serviceTick
    { tiny with enabled := ((tiny.enabled.set 3 true).set 7 true).set 9 true,
                scheduled := ((tiny.scheduled.set 3 1).set 7 1).set 9 2 }
    (fun t => (t.activeId, t.scheduled.getD 3 0, t.scheduled.getD 7 9, t.scheduled.getD 9 0)) = some (7, 1, 0, 1) := by
  decide +kernel
theorem test_clockStep : sees .clockStep tiny State.clk = some ⟨0x100, 0x400⟩ := by decide +kernel
/-- 2.5: starting a running slot keeps its value; 2.3: starting the system slot with reload 0 activates 0x0A. -/
theorem test_start : sees (.start 1) { tiny with ct := [⟨false, 0, 0⟩, ⟨true, 1280, 2560⟩] } State.ct =
      some [⟨false, 0, 0⟩, ⟨true, 1280, 2560⟩] ∧
    sees (.start 0) { tiny with enabled := tiny.enabled.set 0x0A true } (fun t => (t.activeId, t.scheduled.getD 0x0A 9)) =
      some (0x0A, 0) := by decide +kernel
/-- 2.5: stop zeroes the value and keeps the reload. -/
theorem test_stop : sees (.stop 1) { tiny with ct := [⟨false, 0, 0⟩, ⟨true, 1280, 2560⟩] } State.ct =
    some [⟨false, 0, 0⟩, ⟨false, 0, 2560⟩] := by decide +kernel
/-- E5: 2560 is reached (not above the reload), 2816 resets; 2.5: the addition wraps. -/
theorem test_countdownStep : sees .countdownStep { tiny with ct := [⟨true, 2304, 2560⟩, ⟨true, 2560, 2560⟩] } State.ct =
      some [⟨true, 2560, 2560⟩, ⟨true, 0, 2560⟩] ∧
    sees .countdownStep { tiny with ct := [⟨true, 0xFFFFFF00, 0xFFFFFFFF⟩] } State.ct = some [⟨true, 0, 0xFFFFFFFF⟩] := by
  decide +kernel
/-- 2.6 at clock 0: reduced modulo 2^20; half the domain away is behind. -/
theorem test_setCompare : sees (.setCompare .narrow 0 0x100001) tiny (fun t => t.oc.narrow[0]?) =
      some (some ⟨true, 0x100, false⟩) ∧
    sees (.setCompare .narrow 0 0x80000) tiny (fun t => t.oc.narrow[0]?) = some (some ⟨true, 0x100, false⟩) := by
  decide +kernel
/-- R116: exact equality of an armed slot. -/
theorem test_ocCheck : sees .ocCheck
    { tiny with clk := ⟨0x300, 0⟩, oc := ⟨[⟨true, 0x300, false⟩, ⟨true, 0x200, false⟩], [⟨false, 0, false⟩]⟩ } State.oc =
    some ⟨[⟨true, 0x300, true⟩, ⟨true, 0x200, false⟩], [⟨false, 0, false⟩]⟩ := by decide +kernel
/-- 2.6, grouping: the two narrow slots activate 0x18 once, and the wide family schedules 0x1C. -/
theorem test_ocRaise : sees .ocRaise
    { tiny with clk := ⟨0x300, 0xC00⟩, enabled := (tiny.enabled.set 0x18 true).set 0x1C true,
                oc := ⟨[⟨true, 0x300, true⟩, ⟨true, 0x300, true⟩], [⟨true, 0xC00, true⟩]⟩ }
    (fun t => (t.activeId, t.scheduled.getD 0x18 9, t.scheduled.getD 0x1C 0)) = some (0x18, 0, 1) := by decide +kernel
/-- 2.7 row 2: with dst below src the copy is a true move. -/
theorem test_sdmaCopy : sees (.sdmaCopy 0x1002 0x1000 8)
    { tiny with ram := [(0x1001, 1), (0x1002, 2), (0x1003, 3), (0x1004, 4), (0x1005, 5), (0x1006, 6), (0x1007, 7),
                  (0x1008, 8), (0x1009, 9), (0x100A, 10), (0x100B, 11)] }
    (fun t => (List.range 12).map fun i => Memory.get t.ram (0x1000 + i)) =
    some [2, 3, 4, 5, 6, 7, 8, 9, 8, 9, 10, 11] := by decide +kernel
/-- P4, tick 1: the first chunk. -/
theorem test_pdmaStep_in : sees .pdmaStep
    { tiny with pdma := [⟨0, 0x3000, 16, .inward, true, 0, 3⟩],
                draws := [⟨true, [], false⟩, ⟨true, [0x11, 0x22, 0x33, 0x44, 0x55, 0x66, 0x77, 0x88], false⟩] }
    (fun t => (t.ram, t.pdma)) =
    some ([(0x3000, 0x11), (0x3001, 0x22), (0x3002, 0x33), (0x3003, 0x44), (0x3004, 0x55), (0x3005, 0x66),
      (0x3006, 0x77), (0x3007, 0x88)], [⟨0, 0x3000, 16, .inward, true, 8, 2⟩]) := by decide +kernel
/-- 2.8: an OUT chunk; R134: the completing tick raises both ids. -/
theorem test_pdmaStep_out : sees .pdmaStep
    { tiny with pdma := [⟨0x5000, 0, 4, .outward, true, 0, 1⟩],
                ram := [(0x5000, 0x50), (0x5001, 0x51), (0x5002, 0x52), (0x5003, 0x53)],
                draws := [⟨true, [], false⟩, ⟨true, [], false⟩] }
    (fun t => (t.devOut, t.pdma, t.scheduled.getD 0x32 0, t.scheduled.getD 0x33 0)) =
    some ([(0, [0x50, 0x51, 0x52, 0x53])], [⟨0x5000, 0, 4, .outward, false, 4, 0⟩], 1, 1) := by decide +kernel
theorem test_rearm : sees .rearm tiny id = some tiny := by decide +kernel

/-! ### Witnesses: states and operands that meet the hypotheses of each statement together

A witness named after a statement is that statement's. The others serve several: witness_unfaulted those whose hypotheses
are an unset fault, the invariant or the shapes; test_wf_reference ResetMeetsTheRunInvariant;
witness_EchoAndConstHandlers the last clause of ResetLeavesTheTable; witness_step StepKeepsTheRunInvariant (with
witness_count_below_transferred) and StepKeepsTheConfiguration; witness_aperture AccessRunsItsOperation and
AccessChecksRefuse, with witness_no_entry for the clauses of an address no entry contains;
witness_timer_units TimerReadsReturnTheirFields, StartEnablesTheSlot, StopZeroesTheSlot and ReloadAndStatusWrites;
witness_arming ArmingSetsTheCompare, SnappedSlotFiresNextTick and ArmedSlotFiresAfterItsDelta; witness_dma_units
DmaReadsReturnTheirFields and DmaWritesSetOneField; witness_copy, with witness_dma_units, CopyMovesTheBytes and
SyncStartCopiesAndTriggers; witness_DrawsServe PolledStepServesEveryChannel and TickCompletes; witness_polled_chunks
PolledInChunkLandsInMemory and PolledOutChunkReachesTheDevice. -/

/-- `tiny` with a word presented. -/
def given (w : BusWord) (s : State) : State := { s with inbox := [w] }

/-- `tiny` with an interrupt active. -/
def busyIntc : State := { tiny with activeId := 5, irqLine := true }

/-- `tiny` with a narrow clock that wraps every four ticks, at 0x200, and slots at rest. -/
def shortClock : State := State.resetOf { tinyConfig with width := ⟨10, 32⟩ }

/-- `tiny` with one busy polled channel and two draws. -/
def polling (p : PolledDma) (ready bad : Bool) : State :=
  { tiny with pdma := [p], draws := [⟨ready, [], bad⟩, ⟨true, [1, 2, 3, 4, 5, 6, 7, 8], false⟩] }

theorem tiny_inv : tiny.Inv := inv_of_ok (by decide +kernel)

/-- The statements whose one hypothesis is that no fault is set, or that a state's shapes are its configuration's. -/
theorem witness_unfaulted : tiny.fault = none ∧ tiny.Inv ∧ tiny.enabled.length = tiny.cfg.nIrq ∧
    tiny.scheduled.length = tiny.cfg.nIrq := ⟨rfl, tiny_inv, by decide +kernel, by decide +kernel⟩

theorem witness_CommandWordRoundTrip :
    (Instr.readB 0xFFFFFFFF).wellFormed tinyConfig = true ∧
      encode (.readB 0xFFFFFFFF) = some (0x00FFFFFFFF00000000 : BusWord) ∧
    (Instr.writeW 0 0xFFFFFFFF).wellFormed tinyConfig = true ∧
      encode (.writeW 0 0xFFFFFFFF) = some (0x0900000000FFFFFFFF : BusWord) ∧
    (Instr.illegal 0x0CC020100000000000).wellFormed tinyConfig = true ∧
      encode (.illegal 0x0CC020100000000000) = some (0x0CC020100000000000 : BusWord) := by decide +kernel

/-- One word for each branch, the last bit that decides it set alone. -/
theorem witness_IllegalWordStopsWithItsCode : tiny.fault = none ∧
    ([0x100000000000000000, 0x030000000000000000, 0x060000000000000000, 0x020000000100000000, 0x020000000000000001,
      0x0C0000000000000000, 0x0D0000000000000000, 0x000000000000000001].all fun w : BusWord =>
        decode w == .illegal w) = true ∧
    ([0x000000000000000000, 0x010000000000000001, 0x020000000000000000].all fun w : BusWord =>
        decode w != .illegal w) = true := by decide +kernel

theorem witness_StepRunsTheDecodedCommand :
    (given 0x02_0000_0000_0000_0000 tiny).fault = none ∧ (given 0x02_0000_0000_0000_0000 tiny).inbox = 0x02_0000_0000_0000_0000 :: [] ∧
      Instr.tick.wellFormed tinyConfig = true ∧ encode .tick = some (0x02_0000_0000_0000_0000 : BusWord) := by
  decide +kernel

theorem witness_FaultedStateHasNoStep :
    { tiny with fault := some (.fatal, .setup) }.fault = some (FaultKind.fatal, FaultCode.setup) ∧
    { tiny with fault := some (.refused, .badCommand) }.fault = some (FaultKind.refused, FaultCode.badCommand) ∧
    tiny.fault = none ∧ tiny.inbox = [] := by decide +kernel

theorem witness_FaultDiscardsTheStep : tiny.fault = none ∧
    ∃ t, exec (.trigger 0 0) tiny = .next t ∧ t.fault ≠ none :=
  ⟨rfl, (next_with (fun t => t.fault.isSome) (by decide +kernel)).imp fun t h => ⟨h.1, by
    intro h'; rw [h'] at h; exact absurd h.2 (by decide)⟩⟩

theorem witness_SetupOutcome : tinyConfig.wellFormed = true ∧ { tinyConfig with nIrq := 1 }.wellFormed = false := by
  decide +kernel

theorem witness_RegisterAppendsAnEntry : tiny.fault = none ∧ tiny.started = false ∧
    { tiny with started := true }.started = true ∧
    (let e : Entry := ⟨"e", 4, 4, .ct 1⟩;
      e.start ≤ e.last ∧ e.start.toNat % 4 = 0 ∧ tinyConfig.paramLegal e.handler = true) ∧
    (⟨"e", 4, 3, .ct 1⟩ : Entry).last < (⟨"e", 4, 3, .ct 1⟩ : Entry).start ∧
    (⟨"e", 5, 6, .ct 1⟩ : Entry).start.toNat % 4 ≠ 0 ∧ tinyConfig.paramLegal (.ct 2) = false := by decide +kernel

/-- A step of a state that meets the invariant: a TICK, and a word that is refused. -/
theorem witness_step : (given 0x020000000000000000 tiny).Inv ∧
    (∃ t, step (given 0x020000000000000000 tiny) = .next t ∧ t.fault = none) ∧
    ∃ t, step (given 0x030000000000000000 tiny) = .next t ∧ t.fault = some (.refused, .badCommand) :=
  ⟨inv_of_ok (by decide +kernel),
    (next_with (fun t => t.fault == none) (by decide +kernel)).imp fun _ h => ⟨h.1, by simpa using h.2⟩,
    (next_with (fun t => t.fault == some (.refused, .badCommand)) (by decide +kernel)).imp fun _ h =>
      ⟨h.1, by simpa using h.2⟩⟩

/-- R31 item 4 holds in `tiny`; a COUNT of 8 written to an idle channel that moved 16 bytes breaks it (R131). -/
theorem witness_count_below_transferred : WithinCount tiny ∧
    (let s := given 0x09C040000800000008 { tiny with pdma := [⟨0, 0, 16, .inward, false, 16, 0⟩] };
      s.Inv ∧ WithinCount s ∧ ((next? (step s)).any fun t => t.pdma == [⟨0, 0, 8, .inward, false, 16, 0⟩])) :=
  ⟨by unfold WithinCount; decide +kernel, inv_of_ok (by decide +kernel), by unfold WithinCount; decide +kernel,
    by decide +kernel⟩

theorem witness_OnlyAReasonReadEndsAnInterrupt : busyIntc.activeId ≠ 0 ∧
    (given 0x08C020100000000000 busyIntc).inbox = 0x08C020100000000000 :: [] ∧
    ∃ t, step (given 0x08C020100000000000 busyIntc) = .next t ∧ t.activeId ≠ busyIntc.activeId :=
  ⟨by decide, rfl, (next_with (fun t => t.activeId != busyIntc.activeId) (by decide +kernel)).imp fun _ h =>
    ⟨h.1, by simpa using h.2⟩⟩

/-- E3, bus level: a START of a zero-length copy activates the enabled completion id. -/
theorem witness_OnlyActivationClearsAnEnable :
    (given 0x09C030000C00000001 { tiny with enabled := tiny.enabled.set 0x2F true }).isEnabled 0x2F = true ∧
    ∃ t, step (given 0x09C030000C00000001 { tiny with enabled := tiny.enabled.set 0x2F true }) = .next t ∧
      t.isEnabled 0x2F = false :=
  ⟨by decide +kernel, (next_with (fun t => !t.isEnabled 0x2F) (by decide +kernel)).imp fun _ h =>
    ⟨h.1, by simpa using h.2⟩⟩

/-- A set flag before a STATUS write, and before a TICK. -/
theorem witness_OnlyAStatusWriteClearsTriggered :
    (let s := { tiny with oc := ⟨[⟨false, 0, false⟩, ⟨true, 0x100, true⟩], [⟨false, 0, false⟩]⟩ };
      (s.oc.get .narrow)[1]? = some ⟨true, 0x100, true⟩ ∧
      ((next? (step (given 0x09C025001400000000 s))).any fun t => (t.oc.get .narrow)[1]? == some ⟨true, 0x100, false⟩) ∧
      (next? (step (given 0x020000000000000000 s))).any fun t => (t.oc.get .narrow)[1]? == some ⟨true, 0x100, true⟩) := by
  decide +kernel

/-- Steps that are no TICK, and one that is. -/
theorem witness_OnlyATickMovesTheClocks : (decode 0x08C020100000000000 == .tick) = false ∧
    ((next? (step (given 0x08C020100000000000 tiny))).any fun t => t.ticks == 0) ∧ (decode 0x020000000000000000 == .tick) ∧
    ((next? (step (given 0x020000000000000000 tiny))).any fun t => t.ticks == 1 && t.fault == none) := by decide +kernel

/-- A START write, and a default write at the aperture's last byte. -/
theorem witness_OnlyDmaWritesMemory :
    ((next? (step (given 0x09C030000C00000001 { tiny with sdma := [⟨0, 0x10, 4⟩], ram := [(0, 9)] }))).any fun t =>
      t.ram == [(0, 9), (0x10, 9)]) ∧
    ((next? (step (given 0x01DFFFFFFF000000AB tiny))).any fun t => t.backing == [(0x1FFFFFFF, 0xAB)]) := by decide +kernel

/-- An entry of each kind, at a role's offset and at an unassigned one. -/
theorem witness_RolesSelectTheirOperations : tinyConfig.offs.wellFormed = true ∧
    tinyConfig.lookup (normAddr 0xC0201007) = some (0, ⟨"intc", 0xC0201000, 0xC0201FFF, .intc 0⟩) ∧
    tinyConfig.lookup (normAddr 0xC0210108) = some (2, ⟨"ct1", 0xC0210100, 0xC021010F, .ct 1⟩) ∧
    tinyConfig.lookup (normAddr 0xC0240003) = some (3, ⟨"clkN", 0xC0240000, 0xC0240003, .clk .narrow⟩) ∧
    tinyConfig.lookup (normAddr 0xC0260004) = some (7, ⟨"ocW0", 0xC0260000, 0xC0260007, .oc .wide 0⟩) ∧
    tinyConfig.lookup (normAddr 0xC030000F) = some (8, ⟨"dma0", 0xC0300000, 0xC030000F, .sdma 0⟩) ∧
    tinyConfig.lookup (normAddr 0xC0400014) = some (9, ⟨"pdma0", 0xC0400000, 0xC0400017, .pdma 0⟩) ∧
    tinyConfig.lookup (normAddr 0xC0800FFF) = some (10, ⟨"scratch", 0xC0800000, 0xC0800FFF, .ext .echo 0⟩) := by
  decide +kernel

theorem witness_OperationEncodingSelectsIt :
    encodeAccess tinyConfig (.ctValueR 1) = some (.readW 0xC0210108) ∧ tinyConfig.wellFormed = true ∧
    resolve tinyConfig .read 4 0xC0210108 0 = .ctValueR 1 ∧
    resolve tinyConfig .write 4 0xC0210105 7 = .ctReloadW 1 7 := by decide +kernel

/-- The aperture's first and last address are inside, their neighbours outside. -/
theorem witness_aperture : InAperture tiny.cfg 0xC0000000 ∧ InAperture tiny.cfg 0xDFFFFFFF ∧
    ¬ InAperture tiny.cfg 0xBFFFFFFF ∧ ¬ InAperture tiny.cfg 0xE0000000 ∧ tiny.fault = none ∧
    busAccess (.writeH 0xC0000000 1) = some (.write, 2, 0xC0000000, 1) := by
  unfold InAperture; decide +kernel

/-- An address of the aperture that no entry contains, and its neighbour below that one does. -/
theorem witness_no_entry : InAperture tiny.cfg 0xC1000003 ∧ tiny.cfg.lookup (normAddr 0xC1000003) = none ∧
    tiny.cfg.lookup (normAddr 0xC0FFFFFF) ≠ none := by
  unfold InAperture; decide +kernel

theorem tiny_noShim (op : Instr) : NoShim tiny.cfg op := by
  intro e ent n p h1 h2
  have h : tiny.cfg.registry.all (fun e => match e.handler with | .ext (.shim _) _ => false | _ => true) = true := by
    decide +kernel
  have := List.all_eq_true.1 h ent (List.mem_of_getElem? h1)
  rw [h2] at this
  cases this

theorem witness_ReadsInTheApertureComplete : tiny.Inv ∧ tiny.fault = none ∧
    busAccess (.readB 0xDFFFFFFF) = some (.read, 1, 0xDFFFFFFF, 0) ∧ InAperture tiny.cfg 0xDFFFFFFF ∧
    NoShim tiny.cfg (resolve tiny.cfg .read 1 0xDFFFFFFF 0) :=
  ⟨tiny_inv, rfl, rfl, witness_aperture.2.1, tiny_noShim _⟩

theorem witness_WritesInTheApertureComplete : tiny.Inv ∧ tiny.fault = none ∧
    busAccess (.writeW 0xC0210000 1) = some (.write, 4, 0xC0210000, 1) ∧ InAperture tiny.cfg 0xC0210000 ∧
    NoShim tiny.cfg (resolve tiny.cfg .write 4 0xC0210000 1) ∧
    ∀ c wv, resolve tiny.cfg .write 4 0xC0210000 1 ≠ .sdmaStart c wv ∧
      resolve tiny.cfg .write 4 0xC0210000 1 ≠ .pdmaStart c wv := by
  have h : resolve tiny.cfg .write 4 0xC0210000 1 = .ctCtrlW 0 1 := by decide +kernel
  refine ⟨tiny_inv, rfl, rfl, by unfold InAperture; decide +kernel, tiny_noShim _, fun c wv => ?_⟩
  rw [h]
  exact ⟨(fun h => by cases h), fun h => by cases h⟩

theorem witness_SubWordAccessUsesNoLane : tiny.cfg.wellFormed = true ∧ InAperture tiny.cfg 0xC0800003 ∧
    (∃ t, exec (.readW (normAddr 0xC0800003)) echoing = .next t ∧ t.reply = some 0xDEADBEEF) ∧
    tiny.cfg.lookup (normAddr 0xC0800003) ≠ none :=
  ⟨by decide +kernel, by unfold InAperture; decide +kernel,
    (next_with (fun t => t.reply == some 0xDEADBEEF) (by decide +kernel)).imp fun _ h => ⟨h.1, by simpa using h.2⟩,
    by decide +kernel⟩

/-- A default write whose last bytes fall past the aperture; a core entry. -/
theorem witness_DefaultAndMismatchEffect : tiny.fault = none ∧ InAperture tiny.cfg 0xDFFFFFFE ∧
    Memory.wf tiny.backing = true ∧ tiny.cfg.registry[0]? = some ⟨"intc", 0xC0201000, 0xC0201FFF, .intc 0⟩ ∧
    ∀ h p, Handler.intc 0 ≠ .ext h p :=
  ⟨rfl, by unfold InAperture; decide +kernel, by decide, by decide +kernel, fun h p h' => by cases h'⟩

theorem witness_EchoAndConstHandlers : tiny.fault = none ∧
    tiny.cfg.registry[10]? = some ⟨"scratch", 0xC0800000, 0xC0800FFF, .ext .echo 0⟩ ∧ tiny.ext[10]? = some [0] ∧
    tiny.cfg.registry[11]? = some ⟨"catchall", 0xC0000000, 0xC0FFFFFF, .ext .const 0x12345678⟩ ∧ tiny.ext[11]? = some [] := by
  decide +kernel

theorem witness_ShimCallsRunInOrder :
    (let s := { tiny with cfg := { tinyConfig with registry := [⟨"shim", 0xC0000000, 0xC0000003, .ext (.shim 0) 7⟩], nShims := 1 },
                          ext := [[3]] };
      s.fault = none ∧ s.cfg.registry[0]? = some ⟨"shim", 0xC0000000, 0xC0000003, .ext (.shim 0) 7⟩ ∧ s.ext[0]? = some [3]) := by
  decide +kernel

/-- The first number past each list of units; a core entry, an external one, and an absent one. -/
theorem witness_OperandNamingNoUnitIsRefused : tiny.ct[2]? = none ∧ (tiny.oc.get .narrow)[2]? = none ∧
    (tiny.oc.get .wide)[1]? = none ∧ tiny.sdma[1]? = none ∧ tiny.pdma[1]? = none ∧
    (∀ ent, tiny.cfg.registry[0]? = some ent → ∀ h p, ent.handler ≠ .ext h p) ∧
    (∀ ent, tiny.cfg.registry[10]? = some ent → ∃ h p, ent.handler = .ext h p) ∧
    tiny.cfg.registry[12]? = none ∧ (0x40 : U32).toNat = tiny.cfg.nIrq := by
  refine ⟨by decide +kernel, by decide +kernel, by decide +kernel, by decide +kernel, by decide +kernel, ?_, ?_,
    by decide +kernel, by decide +kernel⟩
  · intro ent h h' p hh
    have h0 : tiny.cfg.registry[0]? = some ⟨"intc", 0xC0201000, 0xC0201FFF, .intc 0⟩ := by decide +kernel
    rw [h0, Option.some.injEq] at h
    subst h
    cases hh
  · intro ent h
    have h0 : tiny.cfg.registry[10]? = some ⟨"scratch", 0xC0800000, 0xC0800FFF, .ext .echo 0⟩ := by decide +kernel
    rw [h0, Option.some.injEq] at h
    subst h
    exact ⟨_, _, rfl⟩

theorem witness_ActivateAndPeriod : 1 ≤ (1 : U32).toNat ∧ (0x3F : U32).toNat < tiny.cfg.nIrq ∧
    tiny.ct[tiny.cfg.sysTimerSlot]? = some ⟨false, 0, 0⟩ := by decide +kernel

/-- Id 63, the highest, is ready beside id 1; or nothing is. -/
theorem witness_ServiceActivatesTheHighestReadyId :
    (∀ id, ¬ Ready tiny id) ∧
    (let s := { tiny with enabled := (tiny.enabled.set 1 true).set 63 true, scheduled := (tiny.scheduled.set 1 1).set 63 1 };
      s.fault = none ∧ s.enabled.length = s.cfg.nIrq ∧ s.scheduled.length = s.cfg.nIrq ∧ s.activeId = 0 ∧ Ready s 63 ∧
        ∀ j, 63 < j → ¬ Ready s j) := by
  constructor
  · rintro id ⟨-, h1, -, h2⟩
    have h3 : ∀ i, i < 64 → tiny.enabled.getD i false = false := by decide +kernel
    rw [h3 id h1] at h2
    cases h2
  · refine ⟨rfl, by decide +kernel, by decide +kernel, rfl, by unfold Ready; decide +kernel, ?_⟩
    rintro j h1 ⟨-, h2, -⟩
    have : j < 64 := h2
    omega

theorem witness_MaskedPendingIdSurvivesATick :
    (let s := { tiny with scheduled := tiny.scheduled.set 63 1 };
      s.Inv ∧ s.fault = none ∧ s.isEnabled 63 = false ∧ s.scheduledAt 63 = 1 ∧ ∃ t, exec .tick s = .next t ∧ t.fault = none) :=
  ⟨inv_of_ok (by decide +kernel), rfl, by decide +kernel, by decide +kernel,
    (next_with (fun t => t.fault == none) (by decide +kernel)).imp fun _ h => ⟨h.1, by simpa using h.2⟩⟩

theorem tiny_quiet : (∀ f, ∀ o ∈ tiny.oc.get f, o.active = false) ∧ Idle tiny :=
  ⟨fun f => by cases f <;> decide +kernel, by unfold Idle; decide +kernel⟩

theorem witness_DelayedTriggerTakesItsTicks :
    (let s := { tiny with enabled := tiny.enabled.set 5 true, scheduled := tiny.scheduled.set 5 3 };
      s.Inv ∧ s.fault = none ∧ s.isEnabled 5 = true ∧ s.scheduledAt 5 = 3 ∧ s.activeId = 0 ∧
        (∀ j, j ≠ 5 → s.scheduledAt j = 0) ∧ (∀ f, ∀ o ∈ s.oc.get f, o.active = false) ∧ Idle s) := by
  refine ⟨inv_of_ok (by decide +kernel), rfl, by decide +kernel, by decide +kernel, rfl, fun j hj => ?_, tiny_quiet.1,
    tiny_quiet.2⟩
  have h : ∀ i, i < 64 → i ≠ 5 → (tiny.scheduled.set 5 3).getD i 0 = 0 := by decide +kernel
  by_cases hl : j < 64
  · exact h j hl hj
  · show (tiny.scheduled.set 5 3).getD j 0 = 0
    have h1 : (tiny.scheduled.set 5 3).length = 64 := by decide +kernel
    rw [List.getD_eq_getElem?_getD, List.getElem?_eq_none (by omega)]
    rfl

/-- The timers' units of `tiny`, the last of each. -/
theorem witness_timer_units : tiny.ct[1]? = some ⟨false, 0, 0⟩ ∧ tiny.ct[0]? = some ⟨false, 0, 0⟩ ∧
    tiny.cfg.sysTimerSlot = 0 ∧ 1 ≤ tiny.cfg.periodicIrq ∧ tiny.cfg.periodicIrq < tiny.cfg.nIrq ∧
    (tiny.oc.get .narrow)[1]? = some ⟨false, 0, false⟩ ∧ (tiny.oc.get .wide)[0]? = some ⟨false, 0, false⟩ ∧
    (0xFFFFFFFF : U32).toNat % 2 = 1 ∧ (0xFFFFFFFE : U32).toNat % 2 = 0 := by decide +kernel

/-- E5's slot, and a reload below the step. -/
theorem witness_CountdownSequence :
    (let s := { tiny with ct := [⟨true, 0, 2560⟩, ⟨true, 0, 100⟩] };
      s.fault = none ∧ s.ct[0]? = some ⟨true, 0, 2560⟩ ∧ s.ct[1]? = some ⟨true, 0, 100⟩ ∧ 1 ≤ s.cfg.ctStep.toNat ∧
        (2560 / s.cfg.ctStep.toNat + 1) * s.cfg.ctStep.toNat < 2 ^ 32 ∧
        (100 / s.cfg.ctStep.toNat + 1) * s.cfg.ctStep.toNat < 2 ^ 32) := by decide +kernel

/-- At clock 0x200 of a domain of 0x400: ahead, at the clock, and just behind. -/
theorem witness_arming :
    (let s := { shortClock with clk := ⟨0x200, 0⟩ };
      s.Inv ∧ s.fault = none ∧ Idle s ∧ s.cfg.domainOk .narrow = true ∧ ClockOk s.cfg .narrow (s.clk.get .narrow) ∧
        (s.oc.get .narrow)[0]? = some ⟨false, 0, false⟩ ∧ 0 < armDelta s .narrow 0x201 ∧ armDelta s .narrow 0x200 = 0 ∧
        armDelta s .narrow 0x100 < 0 ∧ (∃ t, exec (.ocArm .narrow 0 0x201) s = .next t ∧ t.fault = none) ∧
        ∃ t u, exec (.ocArm .narrow 0 0x100) s = .next t ∧ exec .tick t = .next u ∧ u.fault = none) := by
  have hi : State.Inv { shortClock with clk := ⟨0x200, 0⟩ } := inv_of_ok (by decide +kernel)
  refine ⟨hi, rfl, by unfold Idle; decide +kernel, by decide +kernel, hi.clockOk .narrow, by decide +kernel,
    by decide +kernel, by decide +kernel, by decide +kernel, ?_, ?_⟩
  · exact (next_with (fun t => t.fault == none) (by decide +kernel)).imp fun _ h => ⟨h.1, by simpa using h.2⟩
  · obtain ⟨t, h1, h2⟩ := next_with (o := exec (.ocArm .narrow 0 0x100) { shortClock with clk := ⟨0x200, 0⟩ })
      (fun t => (next? (exec .tick t)).any fun u => u.fault == none) (by decide +kernel)
    obtain ⟨u, h3, h4⟩ := next_with (fun u => u.fault == none) h2
    exact ⟨t, u, h1, h3, by simpa using h4⟩

theorem witness_dma_units : tiny.sdma[0]? = some ⟨0, 0, 0⟩ ∧ tiny.cfg.sdmaIrq[0]? = some 0x2F ∧
    tiny.pdma[0]? = some ⟨0, 0, 0, .inward, false, 0, 0⟩ ∧
    { tiny with pdma := [⟨0, 0, 8, .inward, true, 0, 3⟩] }.pdma[0]? = some ⟨0, 0, 8, .inward, true, 0, 3⟩ := by
  decide +kernel

/-- A copy to RAM's last byte from ROM's last mirror, one that overlaps, and one that leaves RAM. -/
theorem witness_copy : CanRead tiny.cfg 0xFFFFFFF8 8 ∧ CanWrite tiny.cfg 0x00FFFFF8 8 ∧ CanRead tiny.cfg 0x1000 8 ∧
    CanWrite tiny.cfg 0x1002 8 ∧ ¬ CanWrite tiny.cfg 0x00FFFFFC 8 ∧ ¬ CanRead tiny.cfg 0xC0000000 4 := by
  have h1 : tiny.cfg.ramBase.toNat = 0 ∧ tiny.cfg.ramSize.toNat = 0x01000000 ∧ tiny.cfg.romBase.toNat = 0xF0000000 ∧
      tiny.cfg.romLimit.toNat = 0xFFFFFFFF ∧ tiny.cfg.romSize.toNat = 0x01000000 := by decide +kernel
  obtain ⟨h1, h2, h3, h4, h5⟩ := h1
  unfold CanRead CanWrite
  rw [h1, h2, h3, h4, h5]
  refine ⟨.inr ⟨by omega, fun x _ _ => .inr (by omega)⟩, .inr ⟨by omega, fun x _ _ => by omega⟩,
    .inr ⟨by omega, fun x _ _ => .inl (by omega)⟩, .inr ⟨by omega, fun x _ _ => by omega⟩, ?_, ?_⟩
  · rintro (h | ⟨-, h⟩)
    · omega
    · have := h 0x01000000 (by omega) (by omega); omega
  · rintro (h | ⟨-, h⟩)
    · omega
    · have := h 0xC0000000 (by omega) (by omega); omega

/-- A START's clauses: busy, a count that is no whole number of words, an unusable range, and one that starts. -/
theorem witness_PolledStartOutcome : (6 : U32).toNat % 4 ≠ 0 ∧ (8 : U32).toNat % 4 = 0 ∧ (1 : U32).toNat % 2 = 1 ∧
    ¬ CanWrite tiny.cfg 0x00FFFFFC 8 ∧ CanWrite tiny.cfg 0x00FFFFF8 8 ∧
    { tiny with pdma := [⟨0, 0, 8, .inward, true, 0, 3⟩] }.pdma[0]? = some ⟨0, 0, 8, .inward, true, 0, 3⟩ :=
  ⟨by decide, by decide, by decide, witness_copy.2.2.2.2.1, witness_copy.2.1, by decide +kernel⟩

/-- An address inside the channel's next chunk, its neighbours outside; and a state with no channel busy. -/
theorem witness_DrawsServe : (polling ⟨0, 0x3000, 8, .inward, true, 0, 3⟩ true false).Inv ∧
    (polling ⟨0, 0x3000, 8, .inward, true, 0, 3⟩ true false).fault = none ∧
    DrawsServe (polling ⟨0, 0x3000, 8, .inward, true, 0, 3⟩ true false) ∧
    InNextChunk tiny.cfg ⟨0, 0x3000, 8, .inward, true, 0, 3⟩ 0x3007 ∧
    (∀ p ∈ (polling ⟨0, 0x3000, 8, .inward, true, 0, 3⟩ true false).pdma, ¬ InNextChunk tiny.cfg p 0x3008) ∧
    (polling ⟨0, 0x3000, 8, .inward, false, 8, 0⟩ true false).Inv ∧
    Idle (polling ⟨0, 0x3000, 8, .inward, false, 8, 0⟩ true false) ∧
    DrawsServe (polling ⟨0, 0x3000, 8, .inward, false, 8, 0⟩ true false) :=
  ⟨inv_of_ok (by decide +kernel), rfl, by unfold DrawsServe; decide +kernel, by unfold InNextChunk; decide +kernel,
    by unfold InNextChunk; decide +kernel, inv_of_ok (by decide +kernel), by unfold Idle; decide +kernel,
    by unfold DrawsServe; decide +kernel⟩

/-- Two polled channels, the second busy and alone, and two draws. -/
def secondBusy (p : PolledDma) (ready : Bool) : State :=
  { State.resetOf { tinyConfig with pdmaIrq := [⟨0x32, 0⟩, ⟨0x34, 0x35⟩] } with
    pdma := [⟨0, 0, 0, .inward, false, 0, 0⟩, p]
    draws := [⟨ready, [], false⟩, ⟨true, [1, 2, 3, 4, 5, 6, 7, 8], false⟩] }

theorem polling_lone (p : PolledDma) (ready bad : Bool) (h : p.busy = true) : LoneBusy (polling p ready bad) 0 p := by
  refine ⟨rfl, h, fun j q hj hq => ?_⟩
  match j, hj, hq with
  | _ + 1, _, hq => cases hq

theorem secondBusy_lone (p : PolledDma) (ready : Bool) (h : p.busy = true) : LoneBusy (secondBusy p ready) 1 p := by
  refine ⟨rfl, h, fun j q hj hq => ?_⟩
  match j, hj, hq with
  | 0, _, hq => cases hq; rfl
  | 1, hj, _ => exact absurd rfl hj
  | _ + 2, _, hq => cases hq

/-- The last chunk of an IN transfer and of an OUT transfer, ready and not, on channel 0 and on channel 1. -/
theorem witness_polled_chunks : ∀ r : Bool,
    (polling ⟨0, 0x3000, 12, .inward, true, 8, 3⟩ r false).Inv ∧
    LoneBusy (polling ⟨0, 0x3000, 12, .inward, true, 8, 3⟩ r false) 0 ⟨0, 0x3000, 12, .inward, true, 8, 3⟩ ∧
    (secondBusy ⟨0x3000, 0, 12, .outward, true, 8, 3⟩ r).Inv ∧
    LoneBusy (secondBusy ⟨0x3000, 0, 12, .outward, true, 8, 3⟩ r) 1 ⟨0x3000, 0, 12, .outward, true, 8, 3⟩ ∧
    (8 : U32).toNat < (12 : U32).toNat ∧
    (polling ⟨0, 0x3000, 12, .inward, true, 8, 3⟩ r false).draws =
      ⟨r, [], false⟩ :: ⟨true, [1, 2, 3, 4, 5, 6, 7, 8], false⟩ :: [] ∧
    (secondBusy ⟨0x3000, 0, 12, .outward, true, 8, 3⟩ r).draws =
      ⟨r, [], false⟩ :: ⟨true, [1, 2, 3, 4, 5, 6, 7, 8], false⟩ :: [] := by
  intro r
  refine ⟨?_, polling_lone _ _ _ rfl, ?_, secondBusy_lone _ _ rfl, by decide, rfl, rfl⟩ <;> cases r <;>
    exact inv_of_ok (by decide +kernel)

/-- Waits that run out at this step, that have run out before, and that do not; with a driver id, and without one; all
data moved before, the last chunk of exactly PDMA_CHUNK left, and one word more than a chunk left. -/
theorem witness_PolledCompletionRaisesItsIds :
    (∀ w ∈ [(1 : BitVec 32).toNat, (2 : BitVec 32).toNat, (0x80000000 : BitVec 32).toNat],
      (polling ⟨0, 0x3000, 8, .inward, true, 8, BitVec.ofNat 32 w⟩ true false).Inv ∧
      (secondBusy ⟨0, 0x3000, 8, .inward, true, 0, BitVec.ofNat 32 w⟩ true).Inv ∧
      LoneBusy (secondBusy ⟨0, 0x3000, 8, .inward, true, 0, BitVec.ofNat 32 w⟩ true) 1
        ⟨0, 0x3000, 8, .inward, true, 0, BitVec.ofNat 32 w⟩ ∧
      (polling ⟨0, 0x3000, 12, .inward, true, 0, BitVec.ofNat 32 w⟩ true false).Inv) ∧
    tiny.cfg.pdmaIrq[0]? = some ⟨0x32, 0x33⟩ ∧ tiny.cfg.pdmaChunk = 8 ∧
    (secondBusy ⟨0, 0x3000, 8, .inward, true, 8, 1⟩ true).cfg.pdmaIrq[0]? = some ⟨0x32, 0⟩ ∧
    (secondBusy ⟨0, 0x3000, 8, .inward, true, 8, 1⟩ true).cfg.pdmaIrq[1]? = some ⟨0x34, 0x35⟩ ∧
    (waitAfter ⟨0, 0x3000, 8, .inward, true, 8, 1⟩).toInt ≤ 0 ∧
    (waitAfter ⟨0, 0x3000, 8, .inward, true, 8, 0x80000000⟩).toInt ≤ 0 ∧
    0 < (waitAfter ⟨0, 0x3000, 8, .inward, true, 8, 2⟩).toInt := by
  refine ⟨fun w hw => ?_, rfl, rfl, rfl, rfl, by decide +kernel, by decide +kernel, by decide +kernel⟩
  simp only [List.mem_cons, List.not_mem_nil, or_false] at hw
  rcases hw with rfl | rfl | rfl <;>
    exact ⟨inv_of_ok (by decide +kernel), inv_of_ok (by decide +kernel), secondBusy_lone _ _ rfl,
      inv_of_ok (by decide +kernel)⟩

/-- Channel 1 is the first with data left, after a busy channel that has none; the first or the second answer is
impossible. -/
theorem witness_ImpossibleBackendIsFatal :
    (let s := { State.resetOf { tinyConfig with pdmaIrq := [⟨0x32, 0⟩, ⟨0x34, 0x35⟩] } with
        pdma := [⟨0, 0x3000, 8, .inward, true, 8, 3⟩, ⟨0, 0x3000, 8, .inward, true, 0, 3⟩]
        draws := [⟨true, [], true⟩] };
      s.Inv ∧ s.fault = none ∧ s.pdma[1]? = some ⟨0, 0x3000, 8, .inward, true, 0, 3⟩ ∧ (0 : U32).toNat < (8 : U32).toNat ∧
        (∀ j q, j < 1 → s.pdma[j]? = some q → q.busy = true → q.transferred = q.count) ∧
        (drawAt s 0).impossible = true) ∧
    (let s := { tiny with pdma := [⟨0x5000, 0, 8, .outward, true, 0, 3⟩], draws := [⟨true, [], false⟩, ⟨true, [], true⟩] };
      s.Inv ∧ s.fault = none ∧ (drawAt s 0).ready = true ∧ (drawAt s 1).impossible = true) := by
  refine ⟨⟨inv_of_ok (by decide +kernel), rfl, rfl, by decide, fun j q hj hq _ => ?_, rfl⟩,
    inv_of_ok (by decide +kernel), rfl, rfl, rfl⟩
  obtain rfl : j = 0 := by omega
  cases hq
  rfl

/-- The tick's steps, each from the state the one before it left. -/
theorem witness_TickRunsItsStepsInOrder : ∃ a b c d e f g : State, tiny.fault = none ∧ exec .serviceTick tiny = .next a ∧
    exec .clockStep a = .next b ∧ exec .countdownStep b = .next c ∧ exec .ocCheck c = .next d ∧
    exec .ocRaise d = .next e ∧ e.fault = none ∧ exec .pdmaStep e = .next f ∧ f.fault = none ∧
    exec .rearm { f with ticks := f.ticks + 1 } = .next g := by
  obtain ⟨a, h1, k⟩ := next_with (o := exec .serviceTick tiny) (fun a => (next? (exec .clockStep a)).any fun b =>
    (next? (exec .countdownStep b)).any fun c => (next? (exec .ocCheck c)).any fun d => (next? (exec .ocRaise d)).any fun e =>
      e.fault == none && (next? (exec .pdmaStep e)).any fun f => f.fault == none &&
        (next? (exec .rearm { f with ticks := f.ticks + 1 })).any fun _ => true) (by decide +kernel)
  obtain ⟨b, h2, k⟩ := next_with _ k
  obtain ⟨c, h3, k⟩ := next_with _ k
  obtain ⟨d, h4, k⟩ := next_with _ k
  obtain ⟨e, h5, k⟩ := next_with _ k
  rw [Bool.and_eq_true] at k
  obtain ⟨f, h6, k'⟩ := next_with _ k.2
  rw [Bool.and_eq_true] at k'
  obtain ⟨g, h7, -⟩ := next_with _ k'.2
  exact ⟨a, b, c, d, e, f, g, rfl, h1, h2, h3, h4, h5, by simpa using k.1, h6, by simpa using k'.1, h7⟩

end Sys2Proof.Tests
end

section
/-! PROOF. No step changes the configuration (00_scope R5, 40_dispatch R82). -/

namespace Sys2Proof.Machine

/-- A faulting step keeps the configuration whatever the operation had done to it, so only completion matters (R152). -/
theorem perform_keeps_cfg {op : State → Res} (hop : ∀ {s t : State}, op s = .ok t → t.cfg = s.cfg) {s t : State}
    (h : perform op s = .next t) : t.cfg = s.cfg := by
  obtain ⟨-, hok | ⟨code, -, rfl⟩⟩ := perform_next.1 h
  · exact (hop hok).trans (State.begun_cfg s)
  · rw [takeFault_cfg, State.begun_cfg]

/-- What a word decodes to keeps the configuration. `register`, the one operation that extends the registry, has no word
(R60). -/
theorem exec_decode_keeps_cfg {w : BusWord} {s t : State} (h : exec (decode w) s = .next t) : t.cfg = s.cfg := by
  rcases exec_decode w s with ⟨mode, size, a, v, haccess, -⟩ | ⟨-, htick⟩ | ⟨-, code, hillegal⟩
  · rw [haccess] at h
    exact perform_keeps_cfg (fun hok => (access_keeps hok).cfg) h
  · rw [htick] at h
    exact perform_keeps_cfg (fun hok => (onTick_moves hok).cfg) h
  · rw [hillegal] at h
    exact perform_keeps_cfg (fun hraised => by cases hraised) h

/-- Settles O13: taking the word from the inbox keeps the configuration, and so does what the word decodes to. -/
theorem stepKeepsTheConfiguration : Obligations.StepKeepsTheConfiguration := by
  intro s t h
  obtain ⟨-, w, rest, -, hexec⟩ := step_next.1 h
  exact (exec_decode_keeps_cfg hexec).trans (State.fetched_cfg s rest)

end Sys2Proof.Machine
end

section
/-! PROOF. What a register operation can have changed, said once for every operation an access selects, and what one
step is: an access, a tick or a fault. -/

namespace Sys2Proof.Machine

open Sys2Proof.Claims

/-! ### The register operations (40_dispatch R78) -/

/-- What the register operation `op` may change besides the Interrupt Controller: one slot, channel or handler's own
state, or one memory. -/
inductive UnitChange (op : Instr) (s : State) : State → Prop
  | same : UnitChange op s s
  | countdown (k : Nat) (x : Countdown) : UnitChange op s (s.setCt k x)
  | arm (d : Domain) (k : Nat) (wv : U32) (o : OutputCompare) (hop : op = .ocArm d k wv)
      (hslot : (s.oc.get d)[k]? = some o) :
      UnitChange op s (s.setOc d k { o with compare := armedCompare s.cfg d (s.clk.get d) wv, active := true })
  | clear (d : Domain) (k : Nat) (wv : U32) (o : OutputCompare) (hop : op = .ocClear d k wv)
      (hslot : (s.oc.get d)[k]? = some o) : UnitChange op s (s.setOc d k { o with triggered := false })
  | syncField (c : Nat) (x : SyncDma) : UnitChange op s (s.setSdma c x)
  | copy (c : Nat) (wv : U32) (x : SyncDma) (u : State) (hop : op = .sdmaStart c wv)
      (hcopy : sdmaCopy x.src x.dst x.count s = .ok u) : UnitChange op s u
  | polledField (c : Nat) (f : DmaField) (wv : U32) (p : PolledDma) (hop : op = .pdmaWreg c f wv)
      (hchannel : s.pdma[c]? = some p) (hidle : p.busy = false) : UnitChange op s (s.setPdma c (p.put f wv))
  | polledStart (c : Nat) (wv : U32) (p : PolledDma) (haligned : p.count.toNat % 4 = 0)
      (hregion : p.regionOk s.cfg (startDir wv) = true) :
      UnitChange op s (s.setPdma c (p.started s.cfg (startDir wv)))
  | handler (e : Nat) (x : ExtState) : UnitChange op s (s.setExt e x)
  | store (size : Nat) (addr value : U32) (hop : op = .defaultWrite size addr value) :
      UnitChange op s (s.setBacking (s.storeBacking addr value size size s.backing))

/-- Everything a register operation that completes can have done: acknowledged the active interrupt (R90), or changed
its unit and then made Interrupt Controller requests; and it may have answered. -/
inductive RegisterEffect (op : Instr) (s t : State) : Prop
  | acknowledged (hop : op = .intcAck) (r : Option U32) (ht : t = { acknowledge s with reply := r })
  | changed (u v : State) (r : Option U32) (hunit : UnitChange op s u) (hintc : IntcMoves u v)
      (ht : t = { v with reply := r })

namespace RegisterEffect

variable {op : Instr} {s t u : State}

theorem of_unit (h : UnitChange op s t) : RegisterEffect op s t := .changed t t t.reply h (.refl t) rfl

theorem of_intc (h : UnitChange op s u) (k : IntcMoves u t) : RegisterEffect op s t := .changed u t t.reply h k rfl

theorem of_reply (v : U32) : RegisterEffect op s (s.setReply v) := .changed s s (some v) .same (.refl s) rfl

theorem truncReply (h : RegisterEffect op s t) (n : Nat) : RegisterEffect op s (t.truncReply n) := by
  cases h with
  | acknowledged hop r ht => exact .acknowledged hop (r.map (truncBytes n)) (by rw [ht]; rfl)
  | changed u v r hunit hintc ht => exact .changed u v (r.map (truncBytes n)) hunit hintc (by rw [ht]; rfl)

end RegisterEffect

theorem ctCtrlW_effect {op : Instr} {k : Nat} {wv : U32} {s t : State} (h : ctCtrlW k wv s = .ok t) :
    RegisterEffect op s t := by
  unfold ctCtrlW at h
  split at h
  · obtain ⟨x, -, hstart⟩ := startCt_ok h
    exact .of_intc (.countdown k _) hstart
  · obtain ⟨x, -, h⟩ := withCt_ok h
    cases h
    exact .of_unit (.countdown k _)

theorem pdmaWreg_effect {c : Nat} {f : DmaField} {wv : U32} {s t : State} (h : pdmaWreg c f wv s = .ok t) :
    RegisterEffect (.pdmaWreg c f wv) s t := by
  obtain ⟨p, hchannel, h⟩ := withPdma_ok h
  split at h
  · cases h
    exact .of_unit .same
  · cases h
    exact .of_unit (.polledField c f wv p rfl hchannel (Bool.eq_false_iff.2 ‹_›))

theorem pdmaStart_effect {op : Instr} {c : Nat} {wv : U32} {s t : State} (h : pdmaStart c wv s = .ok t) :
    RegisterEffect op s t := by
  obtain ⟨p, -, h⟩ := withPdma_ok h
  split at h
  · cases h
  split at h
  · cases h
  split at h
  · cases h
    exact .of_unit (.polledStart c wv p (Decidable.not_not.1 ‹_›) ‹_›)
  · cases h

/-- Every register operation has its effect; the internal operations and the commands are none (R60, R66). -/
theorem runOp_effect {op : Instr} {s t : State} (h : runOp op s = .ok t) : RegisterEffect op s t := by
  cases op <;> simp only [runOp] at h
  case intcAck => cases h; exact .acknowledged rfl _ rfl
  case intcEnable => cases h; exact .of_intc .same (enableId_moves _ _)
  case ctCtrlR => obtain ⟨_, -, h⟩ := withCt_ok h; cases h; exact .of_reply _
  case ctCtrlW => exact ctCtrlW_effect h
  case ctReloadR => obtain ⟨_, -, h⟩ := withCt_ok h; cases h; exact .of_reply _
  case ctReloadW => obtain ⟨_, -, h⟩ := withCt_ok h; cases h; exact .of_unit (.countdown _ _)
  case ctValueR => obtain ⟨_, -, h⟩ := withCt_ok h; cases h; exact .of_reply _
  case clkValueR => cases h; exact .of_reply _
  case ocCompareR => obtain ⟨_, -, h⟩ := withOc_ok h; cases h; exact .of_reply _
  case ocArm => obtain ⟨_, hslot, rfl⟩ := setCompare_ok h; exact .of_unit (.arm _ _ _ _ rfl hslot)
  case ocStatusR => obtain ⟨_, -, h⟩ := withOc_ok h; cases h; exact .of_reply _
  case ocClear => obtain ⟨_, hslot, h⟩ := withOc_ok h; cases h; exact .of_unit (.clear _ _ _ _ rfl hslot)
  case sdmaRreg => obtain ⟨_, -, h⟩ := withSdma_ok h; cases h; exact .of_reply _
  case sdmaWreg => obtain ⟨_, -, h⟩ := withSdma_ok h; cases h; exact .of_unit (.syncField _ _)
  case sdmaStart =>
    obtain ⟨x, u, -, hcopy, htrigger⟩ := sdmaStart_ok h
    exact .of_intc (.copy _ _ x u rfl hcopy) htrigger
  case pdmaRreg => obtain ⟨_, -, h⟩ := withPdma_ok h; cases h; exact .of_reply _
  case pdmaWreg => exact pdmaWreg_effect h
  case pdmaStart => exact pdmaStart_effect h
  case extRead =>
    obtain ⟨x, u, r, hcalls, rfl⟩ := extRead_ok h
    exact .changed _ u (some r) (.handler _ x) hcalls rfl
  case extWrite => obtain ⟨x, hcalls⟩ := extWrite_ok h; exact .of_intc (.handler _ x) hcalls
  case defaultRead => unfold defaultRead at h; split at h <;> cases h; exact .of_reply _
  case defaultWrite => unfold defaultWrite at h; split at h <;> cases h; exact .of_unit (.store _ _ _ rfl)
  case mismatchRead => unfold mismatchRead at h; split at h <;> cases h; exact .of_reply _
  case mismatchWrite => unfold mismatchWrite at h; split at h <;> cases h; exact .of_unit .same
  all_goals cases h

/-- An access has the effect of the operation it resolves to (R67). -/
theorem access_effect {mode : Mode} {size : Nat} {addr value : U32} {s t : State}
    (h : access mode size addr value s = .ok t) : RegisterEffect (resolve s.cfg mode size addr value) s t := by
  obtain ⟨-, u, hrun, rfl⟩ := access_ok h
  exact (runOp_effect hrun).truncReply size

/-- A copy touches RAM alone (R124). -/
theorem sdmaCopy_ram {src dst n : U32} {s u : State} (h : sdmaCopy src dst n s = .ok u) : u = { s with ram := u.ram } :=
  (copyLoop_ram h).1

namespace UnitChange

variable {op : Instr} {s u : State}

/-- A change of a unit leaves the Interrupt Controller alone. -/
theorem intc (h : UnitChange op s u) : IntcChange s u := by
  cases h with
  | copy c wv x u hop hcopy => rw [sdmaCopy_ram hcopy]; exact IntcChange.of_eq rfl rfl rfl rfl rfl
  | _ => exact IntcChange.of_eq rfl rfl rfl rfl rfl

/-- RAM is written by a synchronous START alone (R37, R123). -/
theorem ram (h : UnitChange op s u) : u.ram = s.ram ∨ ∃ c wv, op = .sdmaStart c wv := by
  cases h with
  | copy c wv x u hop hcopy => exact .inr ⟨c, wv, hop⟩
  | _ => exact .inl rfl

/-- The backing store is written by the default handler alone (R77). -/
theorem backing (h : UnitChange op s u) : u.backing = s.backing ∨ ∃ n a v, op = .defaultWrite n a v := by
  cases h with
  | copy c wv x u hop hcopy => rw [sdmaCopy_ram hcopy]; exact .inl rfl
  | store size addr value hop => exact .inr ⟨size, addr, value, hop⟩
  | _ => exact .inl rfl

end UnitChange

namespace RegisterEffect

variable {op : Instr} {s t : State}

theorem ram (h : RegisterEffect op s t) : t.ram = s.ram ∨ ∃ c wv, op = .sdmaStart c wv := by
  cases h with
  | acknowledged hop r ht => rw [ht, acknowledge_eq]; exact .inl rfl
  | changed u v r hunit hintc ht => rw [ht]; exact hunit.ram.imp_left hintc.ram.trans

theorem backing (h : RegisterEffect op s t) : t.backing = s.backing ∨ ∃ n a v, op = .defaultWrite n a v := by
  cases h with
  | acknowledged hop r ht => rw [ht, acknowledge_eq]; exact .inl rfl
  | changed u v r hunit hintc ht => rw [ht]; exact hunit.backing.imp_left hintc.backing.trans

/-- A register operation masks an id only by activating it while nothing was active (R11, R88). -/
theorem masks (h : RegisterEffect op s t) (id : Nat) (hon : s.isEnabled id = true) (hoff : t.isEnabled id = false) :
    s.activeId = 0 ∧ t.activeId = id := by
  cases h with
  | acknowledged hop r ht =>
    rw [ht, acknowledge_eq] at hoff
    exact absurd (hon.symm.trans hoff) Bool.noConfusion
  | changed u v r hunit hintc ht =>
    subst ht
    obtain ⟨hidle, -, hactive⟩ := (hunit.intc.trans hintc.toIntcChange).masks id hon hoff
    exact ⟨hidle, hactive⟩

end RegisterEffect

/-! ### The step -/

/-- The state in which the command of a step runs: its word is taken and nothing is returned yet. -/
def State.underway (s : State) (rest : List BusWord) : State := (s.fetched rest).begun

/-- Everything a step that has a next state can have done: an access of the presented command, a tick, or a fault. -/
inductive StepEffect (s : State) (w : BusWord) (rest : List BusWord) (t : State) : Prop
  | access (mode : Mode) (size : Nat) (a v : U32) (hbus : busAccess (decode w) = some (mode, size, a, v))
      (hok : access mode size a v (s.underway rest) = .ok t)
  | tick (htick : decode w = .tick) (hok : onTick (s.underway rest) = .ok t)
  | faulted (code : FaultCode) (ht : t = takeFault code (s.underway rest))

/-- A word's command is the bus access it names, the tick, or the refusal of an illegal word. -/
theorem meaning_decode (w : BusWord) :
    (∃ mode size a v, busAccess (decode w) = some (mode, size, a, v) ∧
      meaning (decode w) = Machine.access mode size a v) ∨
    decode w = .tick ∨ ∀ s, ∃ code, meaning (decode w) s = .error (.raised code) := by
  rcases decode_cases w with ⟨a, h⟩ | ⟨a, h⟩ | ⟨a, h⟩ | ⟨a, v, h⟩ | ⟨a, v, h⟩ | ⟨a, v, h⟩ | h | ⟨h, code, hcode⟩
  · exact .inl ⟨.read, 1, a, 0, by rw [h]; exact ⟨rfl, rfl⟩⟩
  · exact .inl ⟨.read, 2, a, 0, by rw [h]; exact ⟨rfl, rfl⟩⟩
  · exact .inl ⟨.read, 4, a, 0, by rw [h]; exact ⟨rfl, rfl⟩⟩
  · exact .inl ⟨.write, 1, a, v, by rw [h]; exact ⟨rfl, rfl⟩⟩
  · exact .inl ⟨.write, 2, a, v, by rw [h]; exact ⟨rfl, rfl⟩⟩
  · exact .inl ⟨.write, 4, a, v, by rw [h]; exact ⟨rfl, rfl⟩⟩
  · exact .inr (.inl h)
  · exact .inr (.inr fun s => ⟨code, by simp only [h, meaning, hcode]⟩)

theorem step_effect {s t : State} {w : BusWord} {rest : List BusWord} (hi : s.inbox = w :: rest)
    (h : step s = .next t) : StepEffect s w rest t := by
  obtain ⟨hf, -⟩ := step_next.1 h
  rw [step_run hf hi, exec_next] at h
  obtain ⟨-, hok | ⟨code, -, ht⟩⟩ := h
  · rcases meaning_decode w with ⟨mode, size, a, v, hbus, hm⟩ | htick | hraised
    · exact .access mode size a v hbus (by rwa [hm] at hok)
    · exact .tick htick (by rwa [htick] at hok)
    · obtain ⟨code, hcode⟩ := hraised (s.fetched rest).begun
      rw [hok] at hcode
      cases hcode
  · exact .faulted code ht

/-- The operation an access of the presented command resolves to is the one the command selects. -/
theorem selects_resolve {c : Config} {i : Instr} {mode : Mode} {size : Nat} {a v : U32}
    (h : busAccess i = some (mode, size, a, v)) : Selects c i (resolve c mode size a v) := ⟨mode, size, a, v, h, rfl⟩

end Sys2Proof.Machine
end

section
/-! PROOF. What each part of a step keeps of the run invariant (10_state R31), and of item 4 for every channel. -/

namespace Sys2Proof.Machine

open Sys2Proof.Claims

/-! ### The channels of the polled engine (43_dma R131, R132, R134) -/

/-- Every polled channel of `t` is one of `s`, or it meets its invariant with item 4 of R31. -/
def PolledKept (s t : State) : Prop :=
  ∀ q ∈ t.pdma, q ∈ s.pdma ∨ (PolledOk s.cfg q ∧ q.transferred.toNat ≤ q.count.toNat)

theorem PolledKept.of_eq {s t : State} (h : t.pdma = s.pdma) : PolledKept s t := fun _ hq => .inl (h ▸ hq)

theorem PolledKept.of_set {s t : State} {c : Nat} {r : PolledDma} (h : t.pdma = s.pdma.set c r)
    (hr : PolledOk s.cfg r) (hle : r.transferred.toNat ≤ r.count.toNat) : PolledKept s t := fun q hq => by
  rw [h] at hq
  rcases List.mem_or_eq_of_mem_set hq with hq | rfl
  · exact .inl hq
  · exact .inr ⟨hr, hle⟩

theorem PolledKept.trans {s t u : State} (hcfg : t.cfg = s.cfg) (h : PolledKept s t) (k : PolledKept t u) :
    PolledKept s u := fun q hq => by
  rcases k q hq with hq | hq
  · exact h q hq
  · exact .inr (hcfg ▸ hq)

theorem PolledKept.polledOk {s t : State} (h : PolledKept s t) (hs : ∀ p ∈ s.pdma, PolledOk s.cfg p) :
    ∀ q ∈ t.pdma, PolledOk s.cfg q := fun q hq => (h q hq).elim (hs q) And.left

theorem PolledKept.within {s t : State} (h : PolledKept s t) (hs : WithinCount s) : WithinCount t :=
  fun q hq => (h q hq).elim (hs q) And.right

/-- R137: a busy channel that moves one chunk stays within its count and on whole words. -/
theorem PolledOk.moved {c : Config} {p : PolledDma} (hchunk : c.pdmaChunk % 4 = 0) (hp : PolledOk c p)
    (hbusy : p.busy = true) (hlt : p.transferred < p.count) :
    PolledOk c { p with transferred := p.transferred + BitVec.ofNat 32 (chunkSize c p) } := by
  obtain ⟨hadd, hle⟩ := chunk_advances (c := c) hlt
  refine ⟨?_, fun _ => by rw [hadd]; exact hle, hp.wordCount, hp.region⟩
  have haligned := hp.aligned
  have hcount := hp.wordCount hbusy
  rw [hadd, chunkSize]
  omega

/-- The step of one channel keeps a busy channel within its count (R134). -/
theorem pdmaChannel_polledKept {c : Nat} {s t : State} (hchunk : s.cfg.pdmaChunk % 4 = 0)
    (hs : ∀ p ∈ s.pdma, PolledOk s.cfg p) (h : pdmaChannel c s = .ok t) : PolledKept s t := by
  obtain ⟨p, hchannel, ⟨-, rfl⟩ | ⟨hbusy, q, r, u, hmove, hq, hr, hintc⟩⟩ := pdmaChannel_ok h
  · exact .of_eq rfl
  · have hp := hs p (List.mem_of_getElem? hchannel)
    have hqOk : q.busy = true ∧ PolledOk s.cfg q := by
      rcases hq with rfl | ⟨hlt, rfl⟩
      · exact ⟨hbusy, hp⟩
      · exact ⟨hbusy, hp.moved hchunk hbusy hlt⟩
    obtain ⟨hqbusy, hqOk⟩ := hqOk
    have hpdma : t.pdma = s.pdma.set c r := by rw [hintc.pdma, State.setPdma_pdma, hmove.frame]
    rw [hr] at hpdma
    exact .of_set hpdma
      ⟨hqOk.aligned, fun _ => hqOk.bounded hqbusy, fun _ => hqOk.wordCount hqbusy, fun _ => hqOk.region hqbusy⟩
      (hqOk.bounded hqbusy)

theorem pdmaChannels_polledKept {l : List Nat} {s t : State} (hchunk : s.cfg.pdmaChunk % 4 = 0)
    (hs : ∀ p ∈ s.pdma, PolledOk s.cfg p) (h : pdmaChannels l s = .ok t) : PolledKept s t := by
  induction l generalizing s with
  | nil => cases h; exact .of_eq rfl
  | cons c l ih =>
    obtain ⟨u, hfirst, hrest⟩ := res_bind_eq_ok.1 h
    have hcfg := (pdmaChannel_moves hfirst).cfg
    have hkept := pdmaChannel_polledKept hchunk hs hfirst
    exact hkept.trans hcfg (ih (by rwa [hcfg]) (by rw [hcfg]; exact hkept.polledOk hs) hrest)

/-- The raises and the engines before them leave the channels to the polled step (R141). -/
theorem onTick_polledKept {s t : State} (hs : s.Inv) (h : onTick s = .ok t) : PolledKept s t := by
  obtain ⟨a, b, hraise, hpolled, rfl⟩ := onTick_ok.1 h
  have hcfg : a.cfg = s.cfg := ((tickEngines_intc s).trans (ocRaise_moves hraise).toIntcChange).cfg
  have hpdma : a.pdma = s.pdma := by
    rw [(ocRaise_moves hraise).pdma, tickEngines_eq]
    exact (serviceTick_moves s).pdma
  obtain ⟨-, -, -, -, -, -, -, hchunk, -⟩ := Config.scalars_of_wellFormed hs.cfgOk
  have hkept : PolledKept a b :=
    pdmaChannels_polledKept (by rwa [hcfg]) (by rw [hcfg, hpdma]; exact hs.polledOk) hpolled
  exact (PolledKept.of_eq hpdma).trans hcfg hkept

/-- R131: a write to a transfer register of an idle channel keeps what an idle channel owes. -/
theorem PolledOk.put {c : Config} {p : PolledDma} (hp : PolledOk c p) (hidle : p.busy = false) (f : DmaField)
    (wv : U32) : PolledOk c (p.put f wv) := by
  have hnot : ¬ (p.put f wv).busy = true := by cases f <;> simp [PolledDma.put, hidle]
  refine ⟨?_, (absurd · hnot), (absurd · hnot), (absurd · hnot)⟩
  cases f <;> exact hp.aligned

/-- R132: a channel as START leaves it, where the checks of START passed. -/
theorem PolledOk.started {c : Config} {p : PolledDma} {dir : Dir} (haligned : p.count.toNat % 4 = 0)
    (hregion : p.regionOk c dir = true) : PolledOk c (p.started c dir) where
  aligned := rfl
  bounded _ := Nat.zero_le _
  wordCount _ := haligned
  region _ := by cases dir <;> exact hregion

/-! ### The register operations -/

/-- Interrupt Controller requests keep the invariant. -/
theorem IntcMoves.inv {s t : State} (h : IntcMoves s t) (hs : s.Inv) : t.Inv := by
  rw [h.frame]
  exact { hs with
    enabledLength := h.enabledLength.trans hs.enabledLength
    scheduledLength := h.scheduledLength.trans hs.scheduledLength
    activeRange := h.range hs.activeRange
    line := h.line hs.line }

/-- R90: with the active id reset the line is low. -/
theorem acknowledge_inv {s : State} (hs : s.Inv) : (acknowledge s).Inv := by
  obtain ⟨hids, -⟩ := Config.scalars_of_wellFormed hs.cfgOk
  have hline := hs.line
  rw [acknowledge_eq]
  exact { hs with
    activeRange := show 0 < s.cfg.nIrq by omega
    line := by by_cases h0 : s.activeId = 0 <;> simp [h0, hline] }

/-- A slot list with one slot replaced, in either family, keeps its shape and the range of its compares (R17). -/
theorem setOc_inv {s : State} (hs : s.Inv) (d : Domain) (k : Nat) {o : OutputCompare}
    (ho : o.compare.toNat < 2 ^ s.cfg.width.get d) : (s.setOc d k o).Inv :=
  { hs with
    ocLength := fun d' => by
      by_cases hd : d' = d
      · subst hd; simpa using hs.ocLength d'
      · simpa [PerDomain_get_set_other _ _ _ _ hd] using hs.ocLength d'
    compareOk := fun d' x hx => by
      by_cases hd : d' = d
      · subst hd
        rw [State.setOc_oc, PerDomain_get_set_same] at hx
        rcases List.mem_or_eq_of_mem_set hx with hx | rfl
        · exact hs.compareOk d' x hx
        · exact ho
      · rw [State.setOc_oc, PerDomain_get_set_other _ _ _ _ hd] at hx
        exact hs.compareOk d' x hx }

theorem setPdma_inv {s : State} (hs : s.Inv) (c : Nat) {p : PolledDma} (hp : PolledOk s.cfg p) : (s.setPdma c p).Inv :=
  { hs with
    pdmaLength := (List.length_set ..).trans hs.pdmaLength
    polledOk := fun q hq => (List.mem_or_eq_of_mem_set hq).elim (hs.polledOk q) (· ▸ hp) }

theorem sdmaCopy_inv {src dst n : U32} {s u : State} (hs : s.Inv) (h : sdmaCopy src dst n s = .ok u) : u.Inv := by
  obtain ⟨hframe, hwf, hbelow⟩ := copyLoop_ram h
  rw [hframe]
  exact { hs with
    ramWf := hwf hs.ramWf
    ramBelow := hbelow hs.ramBelow }

theorem UnitChange.inv {op : Instr} {s u : State} (h : UnitChange op s u) (hs : s.Inv) : u.Inv := by
  cases h with
  | same => exact hs
  | countdown k x => exact { hs with ctLength := (List.length_set ..).trans hs.ctLength }
  | arm d k wv o hop hslot => exact setOc_inv hs d k (armedCompare_lt (Config.domainOk_of_wellFormed hs.cfgOk d) _ _)
  | clear d k wv o hop hslot => exact setOc_inv hs d k (hs.compareOk d o (List.mem_of_getElem? hslot))
  | syncField c x => exact { hs with sdmaLength := (List.length_set ..).trans hs.sdmaLength }
  | copy c wv x u hop hcopy => exact sdmaCopy_inv hs hcopy
  | polledField c f wv p hop hchannel hidle =>
    exact setPdma_inv hs c ((hs.polledOk p (List.mem_of_getElem? hchannel)).put hidle f wv)
  | polledStart c wv p haligned hregion => exact setPdma_inv hs c (.started haligned hregion)
  | handler e x => exact { hs with extLength := (List.length_set ..).trans hs.extLength }
  | store size addr value hop =>
    obtain ⟨hwf, hbelow⟩ := storeBacking_ok s addr value size size s.backing hs.backingWf hs.backingBelow
    exact { hs with
      backingWf := hwf
      backingBelow := hbelow }

theorem RegisterEffect.inv {op : Instr} {s t : State} (h : RegisterEffect op s t) (hs : s.Inv) : t.Inv := by
  cases h with
  | acknowledged hop r ht => rw [ht]; exact { acknowledge_inv hs with }
  | changed u v r hunit hintc ht => rw [ht]; exact { hintc.inv (hunit.inv hs) with }

/-- R131: the one register operation that can leave an idle channel with more transferred than its count. -/
def CountBelow (op : Instr) (s : State) : Prop :=
  ∃ c wv p, op = .pdmaWreg c .count wv ∧ s.pdma[c]? = some p ∧ p.busy = false ∧ wv.toNat < p.transferred.toNat

/-- R131: of the transfer registers only COUNT bears on item 4. -/
theorem put_within {p : PolledDma} {f : DmaField} {wv : U32} (hp : p.transferred.toNat ≤ p.count.toNat)
    (hcount : f = .count → p.transferred.toNat ≤ wv.toNat) :
    (p.put f wv).transferred.toNat ≤ (p.put f wv).count.toNat := by
  cases f with
  | src => exact hp
  | dst => exact hp
  | count => exact hcount rfl

theorem setPdma_within {s : State} (hs : WithinCount s) (c : Nat) {p : PolledDma}
    (hp : p.transferred.toNat ≤ p.count.toNat) : WithinCount (s.setPdma c p) :=
  fun q hq => (List.mem_or_eq_of_mem_set hq).elim (hs q) (· ▸ hp)

theorem UnitChange.within {op : Instr} {s u : State} (h : UnitChange op s u) (hs : WithinCount s) :
    WithinCount u ∨ CountBelow op s := by
  cases h with
  | polledField c f wv p hop hchannel hidle =>
    by_cases hbelow : f = .count ∧ wv.toNat < p.transferred.toNat
    · obtain ⟨rfl, hlt⟩ := hbelow
      exact .inr ⟨c, wv, p, hop, hchannel, hidle, hlt⟩
    · refine .inl (setPdma_within hs c (put_within (hs p (List.mem_of_getElem? hchannel)) fun hf => ?_))
      exact Nat.le_of_not_lt fun hlt => hbelow ⟨hf, hlt⟩
  | polledStart c wv p haligned hregion => exact .inl (setPdma_within hs c (Nat.zero_le _))
  | copy c wv x u hop hcopy => rw [sdmaCopy_ram hcopy]; exact .inl hs
  | _ => exact .inl hs

theorem RegisterEffect.within {op : Instr} {s t : State} (h : RegisterEffect op s t) (hs : WithinCount s) :
    WithinCount t ∨ CountBelow op s := by
  cases h with
  | acknowledged hop r ht => rw [ht, acknowledge_eq]; exact .inl hs
  | changed u v r hunit hintc ht =>
    rw [ht]
    exact (hunit.within hs).imp_left fun hu q hq => hu q (hintc.pdma ▸ hq)

/-! ### The tick -/

/-- R16, R100: the clocks after a tick are in range and on their steps. -/
theorem TickMoves.clockOk {s t : State} (h : TickMoves s t) (hs : s.Inv) (d : Domain) :
    ClockOk s.cfg d (t.clk.get d) := by
  obtain ⟨-, hbelow, haligned⟩ :=
    clockNext_ok (Config.domainOk_of_wellFormed hs.cfgOk d) (s.clk.get d) (hs.clockOk d).aligned
  rw [h.clk]
  cases d <;> exact ⟨hbelow, haligned⟩

/-- R116: a tick marks slots and changes no compare. -/
theorem TickMoves.compareOk {s t : State} (h : TickMoves s t) (hs : s.Inv) (d : Domain) :
    ∀ o ∈ t.oc.get d, o.compare.toNat < 2 ^ s.cfg.width.get d := fun o ho => by
  rw [h.oc d] at ho
  obtain ⟨x, hx, rfl⟩ := List.mem_map.1 ho
  split <;> exact hs.compareOk d x hx

theorem onTick_inv {s t : State} (hs : s.Inv) (h : onTick s = .ok t) : t.Inv := by
  have m := onTick_moves h
  have hcfg := m.cfg
  exact {
    cfgOk := by rw [hcfg]; exact hs.cfgOk
    enabledLength := by rw [hcfg, m.enabledLength, hs.enabledLength]
    scheduledLength := by rw [hcfg, m.scheduledLength, hs.scheduledLength]
    activeRange := by rw [hcfg]; exact m.range hs.activeRange
    line := m.line hs.line
    ctLength := by rw [hcfg, m.ct, List.length_map, hs.ctLength]
    clockOk := by rw [hcfg]; exact m.clockOk hs
    ocLength := fun d => by rw [hcfg, m.oc d, List.length_map, hs.ocLength]
    compareOk := by rw [hcfg]; exact m.compareOk hs
    sdmaLength := by rw [hcfg, m.sdma, hs.sdmaLength]
    pdmaLength := by rw [hcfg, m.pdmaLength, hs.pdmaLength]
    polledOk := by rw [hcfg]; exact (onTick_polledKept hs h).polledOk hs.polledOk
    extLength := by rw [hcfg, m.ext, hs.extLength]
    ramWf := m.wf hs.ramWf
    ramBelow := by rw [hcfg]; exact m.below hs.ramBelow
    romWf := by rw [m.rom]; exact hs.romWf
    romBelow := by rw [hcfg, m.rom]; exact hs.romBelow
    backingWf := by rw [m.backing]; exact hs.backingWf
    backingBelow := by rw [hcfg, m.backing]; exact hs.backingBelow }

/-! ### Reset (70_reset R171) -/

/-- R6: a well-formed image is in canonical form and inside its region. -/
theorem imageBytes_ok {size : U32} {image : Option Image} (h : imageOk size image = true) :
    Memory.wf (imageBytes image) = true ∧ Memory.below size.toNat (imageBytes image) = true := by
  cases image with
  | none => cases h
  | some i =>
    simp only [imageOk, Bool.and_eq_true, decide_eq_true_eq] at h
    obtain ⟨⟨hsize, hwf⟩, hbelow⟩ := h
    exact ⟨hwf, hsize ▸ hbelow⟩

theorem resetOf_oc (c : Config) (d : Domain) :
    (State.resetOf c).oc.get d = List.replicate (c.nOc d) ⟨false, 0, false⟩ := by cases d <;> rfl

theorem resetOf_clk (c : Config) (d : Domain) : (State.resetOf c).clk.get d = 0 := by cases d <;> rfl

/-- At reset every polled channel is idle with nothing transferred. -/
theorem resetOf_polled {c : Config} {p : PolledDma} (hp : p ∈ (State.resetOf c).pdma) :
    p = ⟨0, 0, 0, .inward, false, 0, 0⟩ := List.eq_of_mem_replicate hp

theorem resetOf_within (c : Config) : WithinCount (State.resetOf c) := fun p hp => by
  rw [resetOf_polled hp]

theorem resetOf_inv {c : Config} (hc : c.wellFormed = true) : (State.resetOf c).Inv := by
  obtain ⟨hids, -⟩ := Config.scalars_of_wellFormed hc
  obtain ⟨-, -, -, -, -, -, -, hram, hrom⟩ := Config.wellFormed_parts hc
  obtain ⟨hramWf, hramBelow⟩ := imageBytes_ok hram
  obtain ⟨hromWf, hromBelow⟩ := imageBytes_ok hrom
  exact {
    cfgOk := hc
    enabledLength := List.length_replicate
    scheduledLength := List.length_replicate
    activeRange := show 0 < c.nIrq by omega
    line := rfl
    ctLength := List.length_replicate
    clockOk := fun d => by rw [resetOf_clk]; exact ⟨Nat.two_pow_pos _, Nat.zero_mod _⟩
    ocLength := fun d => by rw [resetOf_oc]; exact List.length_replicate
    compareOk := fun d o ho => by
      rw [resetOf_oc] at ho
      rw [List.eq_of_mem_replicate ho]
      exact Nat.two_pow_pos _
    sdmaLength := List.length_replicate
    pdmaLength := List.length_replicate
    polledOk := fun p hp => by
      rw [resetOf_polled hp]
      exact ⟨rfl, Bool.noConfusion, Bool.noConfusion, Bool.noConfusion⟩
    extLength := List.length_map ..
    ramWf := hramWf
    ramBelow := hramBelow
    romWf := hromWf
    romBelow := hromBelow
    backingWf := rfl
    backingBelow := rfl }

end Sys2Proof.Machine
end

section
/-! PROOF. The statements about the state: its invariant at reset and over a step, what a step may change of the enable
bits, the clocks and the memories, the states without a step, and the operands that name no unit. -/

namespace Sys2Proof.Machine

open Sys2Proof.Claims

/-! ### The run invariant -/

/-- Presenting a command changes no field the invariant speaks of. -/
theorem underway_inv {s : State} (hs : s.Inv) (rest : List BusWord) : (s.underway rest).Inv := { hs with }

/-- A fault is recorded beside the fields the invariant speaks of (R152). -/
theorem takeFault_inv {s : State} (hs : s.Inv) (code : FaultCode) : (takeFault code s).Inv := { hs with }

theorem StepEffect.inv {s t : State} {w : BusWord} {rest : List BusWord} (h : StepEffect s w rest t) (hs : s.Inv) :
    t.Inv := by
  cases h with
  | access mode size a v hbus hok => exact (access_effect hok).inv (underway_inv hs rest)
  | tick htick hok => exact onTick_inv (underway_inv hs rest) hok
  | faulted code ht => rw [ht]; exact takeFault_inv (underway_inv hs rest) code

/-- Item 4 for every channel is kept, but for the COUNT write that the presented command selects (R131). -/
theorem StepEffect.within {s t : State} {w : BusWord} {rest : List BusWord} (h : StepEffect s w rest t) (hs : s.Inv)
    (hw : WithinCount s) : WithinCount t ∨ ∃ op, Selects s.cfg (decode w) op ∧ CountBelow op s := by
  cases h with
  | access mode size a v hbus hok =>
    exact ((access_effect hok).within hw).imp_right fun hc => ⟨_, selects_resolve hbus, hc⟩
  | tick htick hok => exact .inl ((onTick_polledKept (underway_inv hs rest) hok).within hw)
  | faulted code ht => rw [ht]; exact .inl hw

/-- Settles O12: an access, a tick and a fault each keep the invariant, and of the register operations only the COUNT
write breaks item 4. -/
theorem stepKeepsTheRunInvariant : Obligations.StepKeepsTheRunInvariant := by
  intro s t hs h
  obtain ⟨-, w, rest, hinbox, -⟩ := step_next.1 h
  have heffect := step_effect hinbox h
  refine ⟨heffect.inv hs, fun hw => (heffect.within hs hw).imp_right ?_⟩
  rintro ⟨_, hselects, c, wv, p, rfl, hchannel, hidle, hlt⟩
  exact ⟨w, rest, c, wv, p, hinbox, hselects, hchannel, hidle, hlt⟩

theorem reference_wellFormed : Config.reference.wellFormed = true := by decide +kernel

/-- Settles O11: the reference configuration is well-formed, and every well-formed one resets into the invariant. -/
theorem resetMeetsTheRunInvariant : Obligations.ResetMeetsTheRunInvariant :=
  ⟨⟨resetOf_inv reference_wellFormed, resetOf_within Config.reference⟩, fun c hc => ⟨resetOf_inv hc, resetOf_within c⟩⟩

/-! ### What a step may change -/

/-- Settles O18: by what the step did. An access writes what its register operation may, a tick writes RAM alone, and a
fault writes nothing. -/
theorem onlyDmaWritesMemory : Obligations.OnlyDmaWritesMemory := by
  intro s t w rest hinbox h
  cases step_effect hinbox h with
  | access mode size a v hbus hok =>
    have heffect := access_effect hok
    have hselects := selects_resolve (c := s.cfg) hbus
    refine ⟨(access_keeps hok).rom, heffect.ram.imp_right fun ⟨c, wv, hop⟩ => .inr ⟨c, wv, hop ▸ hselects⟩,
      heffect.backing.imp_right fun ⟨n, a', v', hop⟩ => ⟨n, a', v', hop ▸ hselects⟩⟩
  | tick htick hok => exact ⟨(onTick_moves hok).rom, .inr (.inl htick), .inl (onTick_moves hok).backing⟩
  | faulted code ht => rw [ht]; exact ⟨rfl, .inl rfl, .inl rfl⟩

/-- Settles O15: the requests of an access and of a tick mask an id only by activating it. -/
theorem onlyActivationClearsAnEnable : Obligations.OnlyActivationClearsAnEnable := by
  intro s t id h hon hoff
  obtain ⟨-, w, rest, hinbox, -⟩ := step_next.1 h
  cases step_effect hinbox h with
  | access mode size a v hbus hok => exact (access_effect hok).masks id hon hoff
  | tick htick hok =>
    obtain ⟨hidle, -, hactive⟩ := (onTick_moves hok).masks id hon hoff
    exact ⟨hidle, hactive⟩
  | faulted code ht =>
    rw [ht] at hoff
    exact absurd (hon.symm.trans hoff) Bool.noConfusion

/-- R16, R100: a tick advances the clock of each domain. -/
theorem TickMoves.advances {s t : State} (h : TickMoves s t) (d : Domain) : t.clk.get d = advanced s d := by
  rw [h.clk]
  cases d <;> rfl

/-- Settles O17: an access and a fault keep the clocks and the count, and a tick that completes advances them. -/
theorem onlyATickMovesTheClocks : Obligations.OnlyATickMovesTheClocks := by
  intro s t w rest hinbox h
  cases step_effect hinbox h with
  | access mode size a v hbus hok =>
    refine ⟨fun _ => ⟨(access_keeps hok).clk, (access_keeps hok).ticks⟩, fun htick _ => ?_⟩
    rw [htick] at hbus
    cases hbus
  | tick htick hok =>
    exact ⟨(absurd htick ·), fun _ _ => ⟨(onTick_moves hok).advances, (onTick_moves hok).ticks⟩⟩
  | faulted code ht =>
    rw [ht]
    exact ⟨fun _ => ⟨rfl, rfl⟩, fun _ hf => by rw [takeFault_fault] at hf; cases hf⟩

/-! ### States without a step, operands without a unit -/

theorem step_halted {s : State} {kind : FaultKind} {code : FaultCode} (hf : s.fault = some (kind, code)) :
    step s = halted kind code := by
  unfold step; rw [hf]

theorem exec_halted {s : State} {kind : FaultKind} {code : FaultCode} (hf : s.fault = some (kind, code)) (i : Instr) :
    exec i s = halted kind code := by
  rw [exec_eq, perform_halted hf]

theorem step_noCommand {s : State} (hf : s.fault = none) (hi : s.inbox = []) : step s = .fault .noCommand := by
  unfold step; rw [hf, hi]

/-- Settles O6: a faulted state halts the step and every operation, as the kind of its fault says. -/
theorem faultedStateHasNoStep : Obligations.FaultedStateHasNoStep := by
  refine ⟨fun s kind code hf i => ?_, fun s => step_noCommand⟩
  rw [step_halted hf, exec_halted hf]
  constructor
  · rintro rfl
    exact ⟨rfl, rfl⟩
  · rintro rfl
    exact ⟨rfl, rfl⟩

/-! An operation on a unit looks it up first, and is refused where there is none (assumption 12). -/

section

variable {i : Instr} {s : State} (hf : s.fault = none)
include hf

theorem exec_withCt_none {k : Nat} {f : Countdown → State → Res} (hk : s.ct[k]? = none)
    (hi : meaning i = withCt k f) : exec i s = .refused .noSuchUnit :=
  exec_outside hf (by rw [hi]; simp [withCt, hk])

theorem exec_withOc_none {d : Domain} {k : Nat} {f : OutputCompare → State → Res} (hk : (s.oc.get d)[k]? = none)
    (hi : meaning i = withOc d k f) : exec i s = .refused .noSuchUnit :=
  exec_outside hf (by rw [hi]; simp [withOc, hk])

theorem exec_withSdma_none {c : Nat} {f : SyncDma → State → Res} (hc : s.sdma[c]? = none)
    (hi : meaning i = withSdma c f) : exec i s = .refused .noSuchUnit :=
  exec_outside hf (by rw [hi]; simp [withSdma, hc])

theorem exec_withPdma_none {c : Nat} {f : PolledDma → State → Res} (hc : s.pdma[c]? = none)
    (hi : meaning i = withPdma c f) : exec i s = .refused .noSuchUnit :=
  exec_outside hf (by rw [hi]; simp [withPdma, hc])

/-- An entry that is no EXT entry has no external handler to run (R73). -/
theorem exec_withExt_none {e : Nat} {f : ExtHandler → U32 → ExtState → State → Res}
    (he : ∀ ent, s.cfg.registry[e]? = some ent → ∀ x p, ent.handler ≠ .ext x p)
    (hi : meaning i = withExt e f) : exec i s = .refused .noSuchUnit := by
  refine exec_outside hf ((congrFun hi _).trans ?_)
  unfold withExt
  split
  · exact absurd rfl (he _ ‹_› _ _)
  · rfl

/-- CTRL starts or stops the slot, and either looks it up (R103). -/
theorem exec_ctCtrlW_none {k : Nat} (hk : s.ct[k]? = none) (wv : U32) :
    exec (.ctCtrlW k wv) s = .refused .noSuchUnit := by
  by_cases hbit : wv.getLsbD 0 = true
  · calc exec (.ctCtrlW k wv) s = exec (.start k) s := perform_congr (if_pos hbit)
      _ = .refused .noSuchUnit := exec_withCt_none hf hk rfl
  · calc exec (.ctCtrlW k wv) s = exec (.stop k) s := perform_congr (if_neg hbit)
      _ = .refused .noSuchUnit := exec_withCt_none hf hk rfl

end

/-- An entry of kind EXT is no core entry (R59). -/
theorem isCore_eq_false {c : Config} {e : Nat}
    (h : ∀ ent, c.registry[e]? = some ent → ∃ x p, ent.handler = .ext x p) : c.isCore e = false := by
  unfold Config.isCore
  split
  · rfl
  · rename_i ent hcore hent
    obtain ⟨x, p, hx⟩ := h ent hent
    obtain ⟨label, start, last, handler⟩ := ent
    subst hx
    exact absurd rfl (hcore label start last x p)
  · rfl

/-- An id outside 1 to N_IRQ-1 has no state to activate (R11). -/
theorem idOk_eq_false {c : Config} {id : Nat} (h : id = 0 ∨ c.nIrq ≤ id) : c.idOk id = false := by
  rw [Bool.eq_false_iff, Ne, Config.idOk_iff]
  omega

/-- Settles O30: each operation looks its unit up first and is refused where there is none. -/
theorem operandNamingNoUnitIsRefused : Obligations.OperandNamingNoUnitIsRefused := by
  intro s hf
  refine ⟨fun k hk wv => ?_, fun d k hk wv => ?_, fun c hc f wv => ?_, fun c hc f r wv => ?_, fun e he off wv => ?_,
    fun e he off wv => ?_, fun id hid => ?_⟩
  · simp only [List.forall_mem_cons]
    exact ⟨exec_withCt_none hf hk rfl, exec_ctCtrlW_none hf hk wv, exec_withCt_none hf hk rfl,
      exec_withCt_none hf hk rfl, exec_withCt_none hf hk rfl, exec_withCt_none hf hk rfl,
      exec_withCt_none hf hk rfl, List.forall_mem_nil _⟩
  · simp only [List.forall_mem_cons]
    exact ⟨exec_withOc_none hf hk rfl, exec_withOc_none hf hk rfl, exec_withOc_none hf hk rfl,
      exec_withOc_none hf hk rfl, exec_withOc_none hf hk rfl, List.forall_mem_nil _⟩
  · simp only [List.forall_mem_cons]
    exact ⟨exec_withSdma_none hf hc rfl, exec_withSdma_none hf hc rfl, exec_withSdma_none hf hc rfl,
      List.forall_mem_nil _⟩
  · simp only [List.forall_mem_cons]
    exact ⟨exec_withPdma_none hf hc rfl, exec_withPdma_none hf hc rfl, exec_withPdma_none hf hc rfl,
      List.forall_mem_nil _⟩
  · simp only [List.forall_mem_cons]
    exact ⟨exec_withExt_none hf he rfl, exec_withExt_none hf he rfl, List.forall_mem_nil _⟩
  · simp only [List.forall_mem_cons]
    have hcore := isCore_eq_false he
    exact ⟨exec_outside hf (by simp [meaning, mismatchRead, hcore]),
      exec_outside hf (by simp [meaning, mismatchWrite, hcore]), List.forall_mem_nil _⟩
  · have hno := idOk_eq_false hid
    exact exec_outside hf (by simp [meaning, hno])

end Sys2Proof.Machine
end

section
/-! PROOF. The bus access path of the memory map (20_memory R35 to R40): the checks that refuse an access, and an access
of fewer than four bytes, which runs the operation of the word access of its register. -/

namespace Sys2Proof.Machine

open Sys2Proof.Claims

/-! ### The checks of an access (20_memory R35, 40_dispatch R67) -/

theorem sizeOk_iff {n : Nat} : sizeOk n = true ↔ n = 1 ∨ n = 2 ∨ n = 4 := by
  simp [sizeOk, or_assoc]

theorem checkAccess_of_inAperture {c : Config} {n : Nat} {a : U32} (hn : sizeOk n = true) (ha : InAperture c a) :
    checkAccess c n a = none :=
  checkAccess_none.2 ⟨hn, (inAperture_iff c a.toNat).2 ha⟩

/-- The size is checked before the aperture. -/
theorem checkAccess_of_size {c : Config} {n : Nat} {a : U32} (hn : sizeOk n = false) :
    checkAccess c n a = some .accessSize := by
  simp [checkAccess, hn]

theorem checkAccess_of_not_inAperture {c : Config} {n : Nat} {a : U32} (hn : sizeOk n = true)
    (ha : ¬ InAperture c a) : checkAccess c n a = some .outsideAperture := by
  have hout : c.inAperture a.toNat = false := Bool.eq_false_iff.2 fun h => ha ((inAperture_iff c a.toNat).1 h)
  simp [checkAccess, hn, hout]

theorem access_refused {mode : Mode} {n : Nat} {a v : U32} {s : State} {code : FaultCode}
    (h : checkAccess s.cfg n a = some code) : access mode n a v s = .error (.raised code) := by
  unfold access; rw [h]

theorem defaultRead_refused {n : Nat} {a : U32} {s : State} {code : FaultCode}
    (h : checkAccess s.cfg n a = some code) : defaultRead n a s = .error (.raised code) := by
  unfold defaultRead; rw [h]

theorem defaultWrite_refused {n : Nat} {a v : U32} {s : State} {code : FaultCode}
    (h : checkAccess s.cfg n a = some code) : defaultWrite n a v s = .error (.raised code) := by
  unfold defaultWrite; rw [h]

/-- The operation of a bus command is the access it names. -/
theorem meaning_busAccess {i : Instr} {mode : Mode} {n : Nat} {a v : U32}
    (h : busAccess i = some (mode, n, a, v)) : meaning i = access mode n a v := by
  unfold busAccess at h
  split at h <;> cases h <;> rfl

/-- A failed check stops a bus access, and a default operation run on its own, with the check's code (assumption 25). -/
theorem exec_refused {s : State} {i : Instr} {mode : Mode} {n : Nat} {a v : U32} {code : FaultCode}
    (hf : s.fault = none) (hi : busAccess i = some (mode, n, a, v) ∨ i = .defaultRead n a ∨ i = .defaultWrite n a v)
    (hcheck : checkAccess s.cfg n a = some code) : exec i s = .next (faulted code.kind code s) := by
  refine exec_raised code hf ?_
  rcases hi with hbus | rfl | rfl
  · rw [meaning_busAccess hbus]
    exact access_refused hcheck
  · exact defaultRead_refused hcheck
  · exact defaultWrite_refused hcheck

/-- Settles O23: the size is checked first, then the aperture, and the first check that fails gives the code. -/
theorem accessChecksRefuse : Obligations.AccessChecksRefuse := by
  intro s i mode n a v hf hi
  refine ⟨fun hsize => ?_, fun hsize hout => ?_⟩
  · exact exec_refused hf hi (checkAccess_of_size (Bool.eq_false_iff.2 fun h => by have := sizeOk_iff.1 h; omega))
  · exact exec_refused hf hi (checkAccess_of_not_inAperture (sizeOk_iff.2 hsize) hout)

/-! ### An access whose checks pass (40_dispatch R67) -/

theorem access_of_check {mode : Mode} {n : Nat} {a v : U32} {s : State} (h : checkAccess s.cfg n a = none) :
    access mode n a v s = (runOp (resolve s.cfg mode n a v) s >>= fun t => .ok (t.truncReply n)) := by
  unfold access; rw [h]; rfl

/-- The value of a word access is its own low four bytes. -/
theorem truncBytes_word (v : U32) : truncBytes 4 v = v := by
  unfold truncBytes
  rw [Nat.mod_eq_of_lt v.isLt, BitVec.ofNat_toNat, BitVec.setWidth_eq]

theorem State.truncReply_word (s : State) : s.truncReply 4 = s := by
  have hreply : s.reply.map (truncBytes 4) = s.reply := by rw [funext truncBytes_word]; exact Option.map_id'
  rw [State.truncReply, hreply]

theorem State.truncReply_of_silent {s : State} (h : s.reply = none) (n : Nat) : s.truncReply n = s := by
  have hreply : s.reply.map (truncBytes n) = s.reply := by rw [h]; rfl
  rw [State.truncReply, hreply]

/-- R6, R40: a well-formed aperture starts at a word, so an address in it has its word in it. -/
theorem inAperture_normAddr {c : Config} {a : U32} (hc : c.wellFormed = true) (ha : InAperture c a) :
    InAperture c (normAddr a) := by
  obtain ⟨-, -, -, -, -, -, -, -, hbase, -⟩ := Config.scalars_of_wellFormed hc
  obtain ⟨hlow, hhigh⟩ := ha
  unfold InAperture
  rw [normAddr_toNat]
  omega

/-! ### The register of an access (20_memory R40, 40_dispatch R67) -/

/-- A read of an entry reads the register of its word, whatever its size. -/
theorem resolve_read_entry {c : Config} {n : Nat} {a v : U32} (h : c.lookup (normAddr a) ≠ none) :
    resolve c .read n a v = resolve c .read 4 (normAddr a) v := by
  obtain ⟨⟨i, e⟩, hentry⟩ := Option.ne_none_iff_exists'.1 h
  simp only [resolve, normAddr_normAddr, hentry]

/-- A write to an entry writes its low bytes, zero-extended, to the register of its word. -/
theorem resolve_write_entry {c : Config} {n : Nat} {a v : U32} (h : c.lookup (normAddr a) ≠ none) :
    resolve c .write n a v = resolve c .write 4 (normAddr a) (truncBytes n v) := by
  obtain ⟨⟨i, e⟩, hentry⟩ := Option.ne_none_iff_exists'.1 h
  simp only [resolve, normAddr_normAddr, hentry, truncBytes_word]

theorem resolve_read_default {c : Config} {n : Nat} {a v : U32} (h : c.lookup (normAddr a) = none) :
    resolve c .read n a v = .defaultRead n a := by
  simp only [resolve, h]

theorem resolve_write_default {c : Config} {n : Nat} {a v : U32} (h : c.lookup (normAddr a) = none) :
    resolve c .write n a v = .defaultWrite n a v := by
  simp only [resolve, h]

/-- R77: the default handler reads 0, whatever the size and the address. -/
theorem defaultRead_of_check {n : Nat} {a : U32} {s : State} (h : checkAccess s.cfg n a = none) :
    defaultRead n a s = .ok (s.setReply 0) := by
  unfold defaultRead; rw [h]

/-- A read in the aperture runs as the word read of its register does: at an entry it is the same operation, and the
default handler reads 0 at either address. -/
theorem runOp_resolve_read_word {n : Nat} {a v : U32} {s : State} (hc : s.cfg.wellFormed = true)
    (ha : InAperture s.cfg a) (hn : sizeOk n = true) :
    runOp (resolve s.cfg .read n a v) s = runOp (resolve s.cfg .read 4 (normAddr a) v) s := by
  by_cases hentry : s.cfg.lookup (normAddr a) = none
  · have hword : s.cfg.lookup (normAddr (normAddr a)) = none := by rwa [normAddr_normAddr]
    rw [resolve_read_default hentry, resolve_read_default hword]
    calc defaultRead n a s = .ok (s.setReply 0) := defaultRead_of_check (checkAccess_of_inAperture hn ha)
      _ = defaultRead 4 (normAddr a) s :=
        (defaultRead_of_check (checkAccess_of_inAperture rfl (inAperture_normAddr hc ha))).symm
  · rw [resolve_read_entry hentry]

/-- A read in the aperture is the word read of its register, with the result cut to its low bytes. -/
theorem access_read_word {n : Nat} {a v : U32} {s : State} (hc : s.cfg.wellFormed = true) (ha : InAperture s.cfg a)
    (hn : sizeOk n = true) :
    access .read n a v s = (access .read 4 (normAddr a) v s >>= fun t => .ok (t.truncReply n)) := by
  rw [access_of_check (checkAccess_of_inAperture hn ha),
    access_of_check (checkAccess_of_inAperture rfl (inAperture_normAddr hc ha)), runOp_resolve_read_word hc ha hn]
  cases runOp (resolve s.cfg .read 4 (normAddr a) v) s with
  | error e => rfl
  | ok t => simp only [res_bind_ok, State.truncReply_word]

/-! ### A WRITE returns nothing (30_encoding R52) -/

/-- The operations a WRITE selects (R57, R59, R77). -/
inductive WriteOp : Instr → Prop
  | intcEnable (wv : U32) : WriteOp (.intcEnable wv)
  | ctCtrlW (k : Nat) (wv : U32) : WriteOp (.ctCtrlW k wv)
  | ctReloadW (k : Nat) (wv : U32) : WriteOp (.ctReloadW k wv)
  | ocArm (d : Domain) (k : Nat) (wv : U32) : WriteOp (.ocArm d k wv)
  | ocClear (d : Domain) (k : Nat) (wv : U32) : WriteOp (.ocClear d k wv)
  | sdmaWreg (c : Nat) (f : DmaField) (wv : U32) : WriteOp (.sdmaWreg c f wv)
  | sdmaStart (c : Nat) (wv : U32) : WriteOp (.sdmaStart c wv)
  | pdmaWreg (c : Nat) (f : DmaField) (wv : U32) : WriteOp (.pdmaWreg c f wv)
  | pdmaStart (c : Nat) (wv : U32) : WriteOp (.pdmaStart c wv)
  | extWrite (e : Nat) (off wv : U32) : WriteOp (.extWrite e off wv)
  | defaultWrite (n : Nat) (a v : U32) : WriteOp (.defaultWrite n a v)
  | mismatchWrite (e : Nat) (off wv : U32) : WriteOp (.mismatchWrite e off wv)

theorem writeOp_isWrite (o : Offsets) (i : Nat) (e : Entry) (off wv : U32) : WriteOp (writeOp o i e off wv) := by
  unfold writeOp
  cases e.handler with
  | clk d => exact .mismatchWrite i off wv
  | ext h p => exact .extWrite i off wv
  | _ => dsimp only; split <;> constructor

theorem resolve_isWrite (c : Config) (n : Nat) (a v : U32) : WriteOp (resolve c .write n a v) := by
  cases hentry : c.lookup (normAddr a) with
  | none => rw [resolve_write_default hentry]; exact .defaultWrite n a v
  | some ie => simp only [resolve, hentry]; exact writeOp_isWrite ..

theorem ctCtrlW_reply {k : Nat} {wv : U32} {s t : State} (h : ctCtrlW k wv s = .ok t) : t.reply = s.reply := by
  unfold ctCtrlW at h
  split at h
  · obtain ⟨x, -, hstart⟩ := startCt_ok h
    exact hstart.reply
  · obtain ⟨x, -, h⟩ := withCt_ok h
    cases h
    rfl

theorem pdmaWreg_reply {c : Nat} {f : DmaField} {wv : U32} {s t : State} (h : pdmaWreg c f wv s = .ok t) :
    t.reply = s.reply := by
  obtain ⟨p, -, h⟩ := withPdma_ok h
  split at h <;> cases h <;> rfl

theorem pdmaStart_reply {c : Nat} {wv : U32} {s t : State} (h : pdmaStart c wv s = .ok t) : t.reply = s.reply := by
  obtain ⟨p, -, h⟩ := withPdma_ok h
  split at h
  · cases h
  split at h
  · cases h
  split at h <;> cases h
  rfl

/-- A write operation that completes returns nothing of its own. -/
theorem runOp_write_reply {op : Instr} (hop : WriteOp op) {s t : State} (h : runOp op s = .ok t) :
    t.reply = s.reply := by
  cases hop <;> simp only [runOp] at h
  case intcEnable => cases h; exact (enableId_moves _ _).reply
  case ctCtrlW => exact ctCtrlW_reply h
  case ctReloadW => obtain ⟨_, -, h⟩ := withCt_ok h; cases h; rfl
  case ocArm => obtain ⟨_, -, rfl⟩ := setCompare_ok h; rfl
  case ocClear => obtain ⟨_, -, h⟩ := withOc_ok h; cases h; rfl
  case sdmaWreg => obtain ⟨_, -, h⟩ := withSdma_ok h; cases h; rfl
  case sdmaStart =>
    obtain ⟨_, u, -, hcopy, htrigger⟩ := sdmaStart_ok h
    rw [htrigger.reply, sdmaCopy_ram hcopy]
  case pdmaWreg => exact pdmaWreg_reply h
  case pdmaStart => exact pdmaStart_reply h
  case extWrite => obtain ⟨_, hcalls⟩ := extWrite_ok h; exact hcalls.reply
  case defaultWrite => unfold defaultWrite at h; split at h <;> cases h; rfl
  case mismatchWrite => unfold mismatchWrite at h; split at h <;> cases h; rfl

/-- A write in the aperture is the operation it resolves to: there is no result to cut. -/
theorem access_write {n : Nat} {a v : U32} {s : State} (ha : InAperture s.cfg a) (hn : sizeOk n = true)
    (hr : s.reply = none) : access .write n a v s = runOp (resolve s.cfg .write n a v) s := by
  rw [access_of_check (checkAccess_of_inAperture hn ha)]
  cases hrun : runOp (resolve s.cfg .write n a v) s with
  | error e => rfl
  | ok t =>
    have hsilent : t.reply = none := (runOp_write_reply (resolve_isWrite s.cfg n a v) hrun).trans hr
    rw [res_bind_ok, State.truncReply_of_silent hsilent]

/-- A write to an entry is the word write of its low bytes. -/
theorem access_write_word {n : Nat} {a v : U32} {s : State} (hc : s.cfg.wellFormed = true) (ha : InAperture s.cfg a)
    (hn : sizeOk n = true) (hr : s.reply = none) (hentry : s.cfg.lookup (normAddr a) ≠ none) :
    access .write n a v s = access .write 4 (normAddr a) (truncBytes n v) s := by
  rw [access_write ha hn hr, access_write (inAperture_normAddr hc ha) rfl hr, resolve_write_entry hentry]

/-- Where no entry contains the address, a write is the default handler's, at its own address and size (R77). -/
theorem access_write_default {n : Nat} {a v : U32} {s : State} (ha : InAperture s.cfg a) (hn : sizeOk n = true)
    (hr : s.reply = none) (hentry : s.cfg.lookup (normAddr a) = none) :
    access .write n a v s = defaultWrite n a v s := by
  rw [access_write ha hn hr, resolve_write_default hentry]
  rfl

/-! ### Byte and halfword commands (40_dispatch R70, R71, R74, R75) -/

/-- A step that answers still answers, with the low bytes, when its result is cut; a fault has no result (R152). -/
theorem perform_truncReply {f g : State → Res} {n : Nat} {s t : State}
    (hg : g s.begun = (f s.begun >>= fun u => .ok (u.truncReply n))) (h : perform f s = .next t) :
    perform g s = .next (t.truncReply n) := by
  obtain ⟨hf, hok | ⟨code, hraised, rfl⟩⟩ := perform_next.1 h
  · exact perform_ok hf (by rw [hg, hok]; rfl)
  · exact perform_raised hf (by rw [hg, hraised]; rfl)

/-- Settles O26: a read is the word read of its register with the result cut, and a write runs the operation of the word
write of its low bytes, or the default handler's own. -/
theorem subWordAccessUsesNoLane : Obligations.SubWordAccessUsesNoLane := by
  intro s t a v hc ha
  refine ⟨fun hread => ⟨?_, ?_⟩, fun hentry => ⟨?_, ?_⟩, fun hentry => ⟨?_, ?_⟩⟩
  · exact perform_truncReply (n := 1) (access_read_word (s := s.begun) hc ha rfl) hread
  · exact perform_truncReply (n := 2) (access_read_word (s := s.begun) hc ha rfl) hread
  · exact perform_congr (access_write_word (s := s.begun) hc ha rfl rfl hentry)
  · exact perform_congr (access_write_word (s := s.begun) hc ha rfl rfl hentry)
  · exact perform_congr (access_write_default (s := s.begun) ha rfl rfl hentry)
  · exact perform_congr (access_write_default (s := s.begun) ha rfl rfl hentry)

end Sys2Proof.Machine
end

section
/-! PROOF. The first level of decoding (30_encoding R53, R54, R66): the words of the commands, the checks that make a
word illegal, and the step that runs a word's command. -/

namespace Sys2Proof.Machine

open Sys2Proof.Claims

/-! ### The word of a command (30_encoding R53) -/

/-- An instruction's word decodes to it: the seven commands and ILLEGAL have one, a REGISTER or INTERNAL row has none
(R60). -/
theorem decode_encode (i : Instr) : Laws.WordRoundTrip.Statement i := by
  cases i with
  | readB a => exact Laws.WordRoundTrip.readB a
  | readH a => exact Laws.WordRoundTrip.readH a
  | readW a => exact Laws.WordRoundTrip.readW a
  | writeB a v => exact Laws.WordRoundTrip.writeB a v
  | writeH a v => exact Laws.WordRoundTrip.writeH a v
  | writeW a v => exact Laws.WordRoundTrip.writeW a v
  | tick => exact Laws.WordRoundTrip.tick
  | illegal w => exact Laws.WordRoundTrip.illegal w
  | _ => exact Laws.WordRoundTrip.of_none rfl

/-- Settles O1: the round trip of each constructor's word. -/
theorem commandWordRoundTrip : Obligations.CommandWordRoundTrip := fun c i => decode_encode i c

/-- Settles O5: the word at the head of the inbox decodes to the command it encodes. -/
theorem stepRunsTheDecodedCommand : Obligations.StepRunsTheDecodedCommand := by
  intro s c i w rest hf hinbox hi hw
  rw [step_run hf hinbox, decode_encode i c w hi hw]
  rfl

/-- R53: a word is its header byte, its address and its value. -/
theorem bcw_of_header {w : BusWord} {h : BitVec 8} (hh : w.toNat / 2 ^ 64 = h.toNat) :
    bcw h (bcwAddr w) (bcwValue w) = w := by
  obtain ⟨-, -, -, haddr, hvalue⟩ := bcw_fields_toNat w
  apply BitVec.eq_of_toNat_eq
  rw [bcw_toNat, haddr, hvalue]
  omega

/-- R53: the word whose number is `n` is the command whose header, address and value make up `n`. -/
theorem decode_number {i : Instr} {n : Nat} (h : BitVec 8) (a v : U32) (hi : i.wellFormed Config.reference = true)
    (hw : encode i = some (bcw h a v)) (hn : n = h.toNat * 2 ^ 64 + a.toNat * 2 ^ 32 + v.toNat) :
    decode (BitVec.ofNat 72 n) = i := by
  rw [hn, ← bcw_toNat, BitVec.ofNat_toNat, BitVec.setWidth_eq]
  exact decode_encode i _ _ hi hw

/-- Settles O3: each number is that of the word the encoder builds for the command. -/
theorem headerTable : Obligations.HeaderTable := by
  refine ⟨fun a v => ⟨?_, ?_, ?_, ?_, ?_, ?_⟩, ?_, ?_, ?_, ?_, ?_⟩
  · exact decode_number 0x00 a 0 rfl rfl (Nat.add_zero _).symm
  · exact decode_number 0x04 a 0 rfl rfl (Nat.add_zero _).symm
  · exact decode_number 0x08 a 0 rfl rfl (Nat.add_zero _).symm
  · exact decode_number 0x01 a v rfl rfl rfl
  · exact decode_number 0x05 a v rfl rfl rfl
  · exact decode_number 0x09 a v rfl rfl rfl
  · exact decode_number 0x02 0 0 rfl rfl rfl
  · exact decode_number 0x08 0xC0201000 0 rfl rfl rfl
  · exact decode_number 0x09 0xC0210004 0xA00 rfl rfl rfl
  · exact decode_number 0x00 0xC0800002 0 rfl rfl rfl
  · exact decode_number 0x05 0xC0800002 0xCAFE rfl rfl rfl

/-! ### The checks of a word (30_encoding R54) -/

/-- R54's checks, over the word's fields as numbers. -/
theorem illegalReason_numbers (w : BusWord) : illegalReason w =
    if w.toNat / 2 ^ 68 ≠ 0 ∨ w.toNat / 2 ^ 64 % 4 = 3 then some .badCommand
    else if w.toNat / 2 ^ 64 % 4 = 2 ∧
        (w.toNat / 2 ^ 66 % 4 ≠ 0 ∨ w.toNat / 2 ^ 32 % 2 ^ 32 ≠ 0 ∨ w.toNat % 2 ^ 32 ≠ 0) then some .badCommand
    else if (w.toNat / 2 ^ 64 % 4 = 0 ∨ w.toNat / 2 ^ 64 % 4 = 1) ∧ w.toNat / 2 ^ 66 % 4 = 3 then some .accessSize
    else if w.toNat / 2 ^ 64 % 4 = 0 ∧ w.toNat % 2 ^ 32 ≠ 0 then some .badCommand
    else none := by
  obtain ⟨hrsv, hsz, hk, haddr, hvalue⟩ := bcw_fields_toNat w
  have hk4 : (bcwK w).toNat < 4 := (bcwK w).isLt
  rw [← hrsv, ← hsz, ← hk, ← haddr, ← hvalue]
  simp only [illegalReason, ne_eq, ← BitVec.toNat_inj]
  grind

/-- The header byte of a word that no check of R54 refuses, and the fields that are 0 with it: each of the sixteen
header bytes with no reserved bit is tried. -/
theorem header_of_illegalReason_none {w : BusWord} (h : illegalReason w = none) :
    (w.toNat / 2 ^ 64 = 2 ∧ bcwAddr w = 0 ∧ bcwValue w = 0) ∨
      ((w.toNat / 2 ^ 64 = 0 ∨ w.toNat / 2 ^ 64 = 4 ∨ w.toNat / 2 ^ 64 = 8) ∧ bcwValue w = 0) ∨
      w.toNat / 2 ^ 64 = 1 ∨ w.toNat / 2 ^ 64 = 5 ∨ w.toNat / 2 ^ 64 = 9 := by
  obtain ⟨-, -, -, haddr, hvalue⟩ := bcw_fields_toNat w
  have hrsv : w.toNat / 2 ^ 68 = w.toNat / 2 ^ 64 / 16 := by omega
  have hsz : w.toNat / 2 ^ 66 = w.toNat / 2 ^ 64 / 4 := by omega
  rw [illegalReason_numbers, hrsv, hsz, ← haddr, ← hvalue] at h
  simp only [← BitVec.toNat_inj, BitVec.ofNat_eq_ofNat, BitVec.toNat_zero]
  generalize w.toNat / 2 ^ 64 = header at h ⊢
  split_ifs at h
  have hheader : header < 16 := by omega
  interval_cases header <;> simp_all

/-- R54, R66: a word that no check refuses is the word of one of the seven commands. -/
theorem command_of_illegalReason_none {w : BusWord} (h : illegalReason w = none) :
    ∃ i, encode i = some w ∧ (∀ c, i.wellFormed c = true) ∧ ∀ u, i ≠ .illegal u := by
  obtain ⟨hhead, haddr, hvalue⟩ | ⟨hhead | hhead | hhead, hvalue⟩ | hhead | hhead | hhead :=
    header_of_illegalReason_none h
  · refine ⟨.tick, ?_, fun _ => rfl, nofun⟩
    rw [← bcw_of_header (h := 0x02) hhead, haddr, hvalue]
    rfl
  · exact ⟨.readB (bcwAddr w), by rw [encode, ← hvalue, bcw_of_header hhead], fun _ => rfl, nofun⟩
  · exact ⟨.readH (bcwAddr w), by rw [encode, ← hvalue, bcw_of_header hhead], fun _ => rfl, nofun⟩
  · exact ⟨.readW (bcwAddr w), by rw [encode, ← hvalue, bcw_of_header hhead], fun _ => rfl, nofun⟩
  · exact ⟨.writeB (bcwAddr w) (bcwValue w), by rw [encode, bcw_of_header hhead], fun _ => rfl, nofun⟩
  · exact ⟨.writeH (bcwAddr w) (bcwValue w), by rw [encode, bcw_of_header hhead], fun _ => rfl, nofun⟩
  · exact ⟨.writeW (bcwAddr w) (bcwValue w), by rw [encode, bcw_of_header hhead], fun _ => rfl, nofun⟩

/-- Settles O2: a word that a check refuses decodes to ILLEGAL of itself, and any other is a command's word. -/
theorem everyWordIsOneCommand : Obligations.EveryWordIsOneCommand := by
  intro c w
  cases h : illegalReason w with
  | some code =>
    rw [decode_of_some h]
    exact ⟨Option.isSome_iff_exists.2 ⟨code, h⟩, rfl⟩
  | none =>
    obtain ⟨i, hw, hi, -⟩ := command_of_illegalReason_none h
    rw [decode_encode i c w (hi c) hw]
    exact ⟨hi c, hw⟩

/-- R54, R152: a refused word is ILLEGAL, and running it records the refusal with the code of its check. -/
theorem illegal_stops {s : State} {w : BusWord} {code : FaultCode} (hf : s.fault = none)
    (h : illegalReason w = some code) :
    decode w = .illegal w ∧ exec (.illegal w) s = .next (faulted code.kind code s) :=
  ⟨decode_of_some h, exec_raised code hf (by simp only [meaning, h])⟩

/-- A word that no check refuses decodes to a command. -/
theorem decode_ne_illegal {w : BusWord} (h : illegalReason w = none) (u : BusWord) : decode w ≠ .illegal u := by
  obtain ⟨i, hw, hi, hlegal⟩ := command_of_illegalReason_none h
  rw [decode_encode i Config.reference w (hi _) hw]
  exact hlegal u

/-- Settles O4: the numbers decide the check that applies, and the check decides the outcome. -/
theorem illegalWordStopsWithItsCode : Obligations.IllegalWordStopsWithItsCode := by
  intro s w hf
  dsimp only
  have hreason := illegalReason_numbers w
  split_ifs at hreason ⊢
  · exact illegal_stops hf hreason
  · exact illegal_stops hf hreason
  · exact illegal_stops hf hreason
  · exact illegal_stops hf hreason
  · exact decode_ne_illegal hreason

end Sys2Proof.Machine
end

section
/-! PROOF. The second level of decoding (30_encoding R55 to R59): the operation each role selects, and the bus command
that selects an operation. -/

namespace Sys2Proof.Machine

open Sys2Proof.Claims

/-! ### The role of each offset (30_encoding R57) -/

/-- R57: the offsets of one kind are distinct. -/
theorem nodup_of_offsetsOk {l : List U32} (h : offsetsOk l = true) : l.Nodup := by
  simp only [offsetsOk, Bool.and_eq_true, decide_eq_true_eq] at h
  exact h.1

/-- The distinctness of the offsets of every kind that has more than one. -/
theorem Offsets.nodup_of_wellFormed {o : Offsets} (h : o.wellFormed = true) :
    [o.intcReason, o.intcEnable].Nodup ∧ [o.ctCtrl, o.ctReload, o.ctValue].Nodup ∧
      [o.ocCompare, o.ocStatus].Nodup ∧ [o.sdmaSrc, o.sdmaDst, o.sdmaCount, o.sdmaStart].Nodup ∧
      [o.pdmaSrc, o.pdmaDst, o.pdmaCount, o.pdmaStart, o.pdmaXfer, o.pdmaStatus].Nodup := by
  simp only [Offsets.wellFormed, Bool.and_eq_true] at h
  obtain ⟨⟨⟨⟨⟨hintc, hct⟩, -⟩, hoc⟩, hsdma⟩, hpdma⟩ := h
  exact ⟨nodup_of_offsetsOk hintc, nodup_of_offsetsOk hct, nodup_of_offsetsOk hoc, nodup_of_offsetsOk hsdma,
    nodup_of_offsetsOk hpdma⟩

section

variable {o : Offsets} (ho : o.wellFormed = true)
include ho

theorem ctRole_offsets : ctRole o o.ctCtrl = some .ctrl ∧ ctRole o o.ctReload = some .reload ∧
    ctRole o o.ctValue = some .value ∧ ∀ off, off ∉ [o.ctCtrl, o.ctReload, o.ctValue] → ctRole o off = none := by
  have h := (Offsets.nodup_of_wellFormed ho).2.1
  simp only [List.nodup_cons, List.mem_cons, not_or] at h
  grind [ctRole]

theorem ocRole_offsets : ocRole o o.ocCompare = some .compare ∧ ocRole o o.ocStatus = some .status ∧
    ∀ off, off ∉ [o.ocCompare, o.ocStatus] → ocRole o off = none := by
  have h := (Offsets.nodup_of_wellFormed ho).2.2.1
  simp only [List.nodup_cons, List.mem_cons, not_or] at h
  grind [ocRole]

theorem sdmaRole_offsets : sdmaRole o o.sdmaSrc = some (.field .src) ∧ sdmaRole o o.sdmaDst = some (.field .dst) ∧
    sdmaRole o o.sdmaCount = some (.field .count) ∧ sdmaRole o o.sdmaStart = some .start ∧
    ∀ off, off ∉ [o.sdmaSrc, o.sdmaDst, o.sdmaCount, o.sdmaStart] → sdmaRole o off = none := by
  have h := (Offsets.nodup_of_wellFormed ho).2.2.2.1
  simp only [List.nodup_cons, List.mem_cons, not_or] at h
  grind [sdmaRole]

theorem pdmaRole_offsets : pdmaRole o o.pdmaSrc = some (.field .src) ∧ pdmaRole o o.pdmaDst = some (.field .dst) ∧
    pdmaRole o o.pdmaCount = some (.field .count) ∧ pdmaRole o o.pdmaStart = some .start ∧
    pdmaRole o o.pdmaXfer = some .xfer ∧ pdmaRole o o.pdmaStatus = some .status ∧
    ∀ off, off ∉ [o.pdmaSrc, o.pdmaDst, o.pdmaCount, o.pdmaStart, o.pdmaXfer, o.pdmaStatus] →
      pdmaRole o off = none := by
  have h := (Offsets.nodup_of_wellFormed ho).2.2.2.2
  simp only [List.nodup_cons, List.mem_cons, not_or] at h
  grind [pdmaRole]

end

/-! ### The operation a role selects (30_encoding R57, R59) -/

/-- A READ of an entry selects its read operation at the offset of the normalised address. -/
theorem resolve_read_of_lookup {c : Config} {n i : Nat} {a v : U32} {e : Entry}
    (h : c.lookup (normAddr a) = some (i, e)) :
    resolve c .read n a v = readOp c.offs i e (normAddr a - e.start) := by
  simp only [resolve, h]

/-- A WRITE to an entry selects its write operation at that offset, with the normalised value. -/
theorem resolve_write_of_lookup {c : Config} {n i : Nat} {a v : U32} {e : Entry}
    (h : c.lookup (normAddr a) = some (i, e)) :
    resolve c .write n a v = writeOp c.offs i e (normAddr a - e.start) (truncBytes n v) := by
  simp only [resolve, h]

/-- Settles O20: the role of the offset in the entry's kind decides the operation. -/
theorem rolesSelectTheirOperations : Obligations.RolesSelectTheirOperations := by
  intro c i e n a v ho hentry
  dsimp only
  rw [resolve_read_of_lookup hentry, resolve_write_of_lookup hentry]
  simp only [truncBytes]
  generalize normAddr a - e.start = off
  generalize BitVec.ofNat 32 (v.toNat % 2 ^ (8 * n)) = wv
  refine ⟨fun p hk => ?_, fun k hk => ?_, fun d hk => ?_, fun d k hk => ?_, fun ch hk => ?_, fun ch hk => ?_,
    fun x p hk => ?_⟩
  all_goals simp only [readOp, writeOp, hk]
  · have hne : c.offs.intcReason ≠ c.offs.intcEnable := by simpa using (Offsets.nodup_of_wellFormed ho).1
    unfold intcRole
    constructor
    · split_ifs <;> rfl
    · split_ifs with hreason henable
      · exact absurd (hreason.symm.trans henable) hne
      all_goals rfl
  · obtain ⟨hctrl, hreload, hvalue, hnone⟩ := ctRole_offsets ho
    exact ⟨by rintro rfl; simp [hctrl], by rintro rfl; simp [hreload], by rintro rfl; simp [hvalue],
      fun h => by simp [hnone off h]⟩
  · unfold clkRole
    refine ⟨?_, trivial⟩
    split_ifs <;> rfl
  · obtain ⟨hcompare, hstatus, hnone⟩ := ocRole_offsets ho
    exact ⟨by rintro rfl; simp [hcompare], by rintro rfl; simp [hstatus], fun h => by simp [hnone off h]⟩
  · obtain ⟨hsrc, hdst, hcount, hstart, hnone⟩ := sdmaRole_offsets ho
    exact ⟨by rintro rfl; simp [hsrc], by rintro rfl; simp [hdst], by rintro rfl; simp [hcount],
      by rintro rfl; simp [hstart], fun h => by simp [hnone off h]⟩
  · obtain ⟨hsrc, hdst, hcount, hstart, hxfer, hstatus, hnone⟩ := pdmaRole_offsets ho
    exact ⟨by rintro rfl; simp [hsrc, DmaField.reg], by rintro rfl; simp [hdst, DmaField.reg],
      by rintro rfl; simp [hcount, DmaField.reg], by rintro rfl; simp [hstart], by rintro rfl; simp [hxfer],
      by rintro rfl; simp [hstatus], fun h => by simp [hnone off h]⟩
  · exact ⟨trivial, trivial⟩

/-! ### The bus command of an operation (30_encoding R57) -/

/-- The read operation at an offset has that offset and direction as its bus form. -/
theorem busForm_readOp (o : Offsets) (i : Nat) (e : Entry) (off : U32) :
    busForm o (readOp o i e off) = some (.read, off, 0) := by
  unfold readOp
  cases e.handler with
  | intc p => unfold intcRole; split_ifs <;> simp [busForm, *]
  | ct k => unfold ctRole; split_ifs <;> simp [busForm, *]
  | clk d => unfold clkRole; split_ifs <;> simp [busForm, *]
  | oc d k => unfold ocRole; split_ifs <;> simp [busForm, *]
  | sdma ch => unfold sdmaRole; split_ifs <;> simp [busForm, *]
  | pdma ch => unfold pdmaRole; split_ifs <;> simp [busForm, DmaField.reg, *]
  | ext x p => rfl

/-- The write operation at an offset has that offset, direction and value as its bus form. -/
theorem busForm_writeOp (o : Offsets) (i : Nat) (e : Entry) (off wv : U32) :
    busForm o (writeOp o i e off wv) = some (.write, off, wv) := by
  unfold writeOp
  cases e.handler with
  | intc p => unfold intcRole; split_ifs <;> simp [busForm, *]
  | ct k => unfold ctRole; split_ifs <;> simp [busForm, *]
  | clk d => rfl
  | oc d k => unfold ocRole; split_ifs <;> simp [busForm, *]
  | sdma ch => unfold sdmaRole; split_ifs <;> simp [busForm, *]
  | pdma ch => unfold pdmaRole; split_ifs <;> simp [busForm, *]
  | ext x p => rfl

/-- The bus form of the operation a 4-byte access selects is the access's own. -/
theorem busForm_resolve {c : Config} {mode : Mode} {i : Nat} {a v : U32} {e : Entry}
    (hentry : c.lookup (normAddr a) = some (i, e)) (hv : mode = .read → v = 0) :
    busForm c.offs (resolve c mode 4 a v) = some (mode, normAddr a - e.start, v) := by
  cases mode with
  | read => rw [resolve_read_of_lookup hentry, busForm_readOp, hv rfl]
  | write => rw [resolve_write_of_lookup hentry, busForm_writeOp, truncBytes_word]

/-- A 4-byte access is the one at its word's address. -/
theorem resolve_normAddr {c : Config} {mode : Mode} {a v : U32} (hentry : c.lookup (normAddr a) ≠ none) :
    resolve c mode 4 (normAddr a) v = resolve c mode 4 a v := by
  cases mode with
  | read => exact (resolve_read_entry hentry).symm
  | write => rw [resolve_write_entry (n := 4) hentry, truncBytes_word]

/-- The 4-byte bus command of a direction, an address and a value. -/
def wordCommand (a v : U32) : Mode → Instr
  | .read => .readW a
  | .write => .writeW a v

/-- What the second-level encoder answers: a command for the operation's bus form through an entry that serves it. -/
theorem encodeAccess_of_busForm {c : Config} {op : Instr} {mode : Mode} {off wv : U32}
    (h : busForm c.offs op = some (mode, off, wv)) : encodeAccess c op =
      c.registry.findSome? fun e =>
        if resolve c mode 4 (e.start + off) wv = op then some (wordCommand (e.start + off) wv mode) else none := by
  simp only [encodeAccess, h]
  cases mode <;> rfl

/-- A word command selects what its access resolves to; a READ's value plays no part in it. -/
theorem selects_wordCommand (c : Config) (mode : Mode) (a v : U32) :
    Selects c (wordCommand a v mode) (resolve c mode 4 a v) := by
  cases mode with
  | read => exact ⟨.read, 4, a, 0, rfl, rfl⟩
  | write => exact ⟨.write, 4, a, v, rfl, rfl⟩

/-- The encoder keeps only a command that selects the operation. -/
theorem encodeAccess_selects {c : Config} {op b : Instr} (h : encodeAccess c op = some b) : Selects c b op := by
  cases hform : busForm c.offs op with
  | none => simp [encodeAccess, hform] at h
  | some form =>
    obtain ⟨mode, off, wv⟩ := form
    rw [encodeAccess_of_busForm hform] at h
    obtain ⟨e, -, hb⟩ := List.exists_of_findSome?_eq_some h
    split at hb
    · rename_i hop
      cases hb
      exact hop ▸ selects_wordCommand c mode (e.start + off) wv
    · cases hb

/-- The entry an access runs through serves the operation it selects, so the encoder finds a command. -/
theorem encodeAccess_resolve {c : Config} {mode : Mode} {i : Nat} {a v : U32} {e : Entry}
    (hentry : c.lookup (normAddr a) = some (i, e)) (hv : mode = .read → v = 0) :
    ∃ b, encodeAccess c (resolve c mode 4 a v) = some b := by
  have hmem : e ∈ c.registry := (Config.lookup_some hentry).2.1
  have haddr : e.start + (normAddr a - e.start) = normAddr a := by
    rw [BitVec.add_comm, BitVec.sub_add_cancel]
  have hserves : resolve c mode 4 (e.start + (normAddr a - e.start)) v = resolve c mode 4 a v := by
    rw [haddr, resolve_normAddr (by rw [hentry]; exact Option.some_ne_none _)]
  rw [encodeAccess_of_busForm (busForm_resolve hentry hv), ← Option.isSome_iff_exists, List.findSome?_isSome_iff]
  exact ⟨e, hmem, by rw [if_pos hserves]; rfl⟩

/-- Settles O21: the encoder answers only commands that select the operation, and the entry of an access that selects it
gives one. -/
theorem operationEncodingSelectsIt : Obligations.OperationEncodingSelectsIt := by
  refine fun c op => ⟨fun b => encodeAccess_selects, fun _ mode addr value i e hentry hop hv => ?_⟩
  rw [← hop]
  exact encodeAccess_resolve hentry hv

end Sys2Proof.Machine
end

section
/-! PROOF. A bus command in the aperture runs the operation it selects (40_dispatch R67, R77, R78), which completes
where no shim answers and no transfer starts (30_encoding R59, 60_exceptions R153). -/

namespace Sys2Proof.Machine

open Sys2Proof.Claims

/-! ### The operations a bus access selects (30_encoding R57, R59, 40_dispatch R77) -/

/-- The operations a READ selects. -/
inductive ReadOp : Instr → Prop
  | intcAck : ReadOp .intcAck
  | ctCtrlR (k : Nat) : ReadOp (.ctCtrlR k)
  | ctReloadR (k : Nat) : ReadOp (.ctReloadR k)
  | ctValueR (k : Nat) : ReadOp (.ctValueR k)
  | clkValueR (d : Domain) : ReadOp (.clkValueR d)
  | ocCompareR (d : Domain) (k : Nat) : ReadOp (.ocCompareR d k)
  | ocStatusR (d : Domain) (k : Nat) : ReadOp (.ocStatusR d k)
  | sdmaRreg (c : Nat) (f : DmaField) : ReadOp (.sdmaRreg c f)
  | pdmaRreg (c : Nat) (r : PdmaReg) : ReadOp (.pdmaRreg c r)
  | extRead (e : Nat) (off : U32) : ReadOp (.extRead e off)
  | defaultRead (n : Nat) (a : U32) : ReadOp (.defaultRead n a)
  | mismatchRead (e : Nat) (off : U32) : ReadOp (.mismatchRead e off)

theorem readOp_isRead (o : Offsets) (i : Nat) (e : Entry) (off : U32) : ReadOp (readOp o i e off) := by
  unfold readOp
  cases e.handler with
  | ext h p => exact .extRead i off
  | _ => dsimp only; split <;> constructor

theorem resolve_isRead (c : Config) (n : Nat) (a v : U32) : ReadOp (resolve c .read n a v) := by
  cases hentry : c.lookup (normAddr a) with
  | none => rw [resolve_read_default hentry]; exact .defaultRead n a
  | some ie => simp only [resolve, hentry]; exact readOp_isRead ..

theorem ReadOp.meaning_eq {op : Instr} (h : ReadOp op) : meaning op = runOp op := by cases h <;> rfl

theorem WriteOp.meaning_eq {op : Instr} (h : WriteOp op) : meaning op = runOp op := by cases h <;> rfl

/-- The operands of the operation an entry's kind selects are the entry's legal parameter or its index (R56). -/
theorem readOp_wellFormed {c : Config} {i : Nat} {e : Entry} (he : c.registry[i]? = some e)
    (hparam : c.paramLegal e.handler = true) (off : U32) : (readOp c.offs i e off).wellFormed c = true := by
  obtain ⟨label, start, last, handler⟩ := e
  cases handler with
  | ext h p => simp [readOp, Instr.wellFormed, Config.isExt, he]
  | _ =>
    dsimp only [readOp]
    split <;> simp_all [Instr.wellFormed, Config.paramLegal, Config.isCore]

theorem writeOp_wellFormed {c : Config} {i : Nat} {e : Entry} (he : c.registry[i]? = some e)
    (hparam : c.paramLegal e.handler = true) (off wv : U32) : (writeOp c.offs i e off wv).wellFormed c = true := by
  obtain ⟨label, start, last, handler⟩ := e
  cases handler with
  | ext h p => simp [writeOp, Instr.wellFormed, Config.isExt, he]
  | clk d => simp [writeOp, Instr.wellFormed, Config.isCore, he]
  | _ =>
    dsimp only [writeOp]
    split <;> simp_all [Instr.wellFormed, Config.paramLegal, Config.isCore]

/-- R56, R69: an access in the aperture of a well-formed configuration selects an operation whose operands name what the
configuration has. -/
theorem resolve_wellFormed {c : Config} {mode : Mode} {n : Nat} {a v : U32} (hc : c.wellFormed = true)
    (hn : sizeOk n = true) (ha : InAperture c a) : (resolve c mode n a v).wellFormed c = true := by
  have hin : c.inAperture a.toNat = true := (inAperture_iff c a.toNat).2 ha
  cases hentry : c.lookup (normAddr a) with
  | none => cases mode <;> simp [resolve, hentry, Instr.wellFormed, hn, hin]
  | some ie =>
    obtain ⟨i, e⟩ := ie
    obtain ⟨he, hmem, -⟩ := Config.lookup_some hentry
    obtain ⟨-, -, hparam⟩ := Config.entry_of_wellFormed hc hmem
    cases mode with
    | read => rw [resolve_read_of_lookup hentry]; exact readOp_wellFormed he hparam _
    | write => rw [resolve_write_of_lookup hentry]; exact writeOp_wellFormed he hparam _ _

/-! ### A bus command runs the operation it selects (40_dispatch R67, R78) -/

/-- R39: a bus command has one of the three sizes. -/
theorem sizeOk_of_busAccess {i : Instr} {mode : Mode} {n : Nat} {a v : U32}
    (h : busAccess i = some (mode, n, a, v)) : sizeOk n = true := by
  unfold busAccess at h
  split at h <;> cases h <;> rfl

/-- Cutting the result of an operation cuts the reply of the step that runs it; a fault has none to cut (R152). -/
theorem perform_bind_truncReply (f : State → Res) (n : Nat) (s : State) :
    perform (fun u => f u >>= fun t => .ok (t.truncReply n)) s = truncated n (perform f s) := by
  unfold perform
  cases hf : s.fault with
  | some fault => obtain ⟨kind, code⟩ := fault; cases kind <;> rfl
  | none =>
    dsimp only
    cases f s.begun with
    | ok t => rfl
    | error e => cases e <;> rfl

/-- A READ is the operation it selects, with the result cut to its size. -/
theorem exec_read {s : State} {i : Instr} {n : Nat} {a v : U32} (hi : busAccess i = some (.read, n, a, v))
    (ha : InAperture s.cfg a) : exec i s = truncated n (exec (resolve s.cfg .read n a v) s) := by
  rw [exec_eq, exec_eq, meaning_busAccess hi, (resolve_isRead ..).meaning_eq, ← perform_bind_truncReply]
  exact perform_congr (access_of_check (s := s.begun) (checkAccess_of_inAperture (sizeOk_of_busAccess hi) ha))

/-- A WRITE is the operation it selects. -/
theorem exec_write {s : State} {i : Instr} {n : Nat} {a v : U32} (hi : busAccess i = some (.write, n, a, v))
    (ha : InAperture s.cfg a) : exec i s = exec (resolve s.cfg .write n a v) s := by
  rw [exec_eq, exec_eq, meaning_busAccess hi, (resolve_isWrite ..).meaning_eq]
  exact perform_congr (access_write (s := s.begun) ha (sizeOk_of_busAccess hi) rfl)

/-- A word read returns the whole result. -/
theorem exec_readW {s : State} {a : U32} (ha : InAperture s.cfg a) :
    exec (.readW a) s = exec (resolve s.cfg .read 4 a 0) s := by
  rw [exec_read rfl ha]
  cases exec (resolve s.cfg .read 4 a 0) s with
  | next t => exact congrArg Host.Outcome.next t.truncReply_word
  | fault r => rfl
  | refused r => rfl

/-- Settles O22: a bus command in the aperture is the operation it selects, and an access that no entry contains selects
the default handler's. -/
theorem accessRunsItsOperation : Obligations.AccessRunsItsOperation := by
  refine ⟨fun s i mode n a v hi ha => ⟨?_, ?_⟩, fun s a v ha => ⟨exec_readW ha, exec_write rfl ha⟩,
    fun c n a v hentry => ⟨resolve_read_default hentry, resolve_write_default hentry⟩⟩
  · rintro rfl
    exact exec_read hi ha
  · rintro rfl
    exact exec_write hi ha

/-! ### The units of a state that meets the run invariant (10_state R11 to R21) -/

section

variable {s : State} (hs : s.Inv)
include hs

theorem exists_ct {k : Nat} (hk : k < s.cfg.nCt) : ∃ t, s.ct[k]? = some t :=
  ⟨_, List.getElem?_eq_getElem (hs.ctLength.symm ▸ hk)⟩

theorem exists_oc {d : Domain} {k : Nat} (hk : k < s.cfg.nOc d) : ∃ o, (s.oc.get d)[k]? = some o :=
  ⟨_, List.getElem?_eq_getElem ((hs.ocLength d).symm ▸ hk)⟩

theorem exists_sdma {c : Nat} (hc : c < s.cfg.nSdma) : ∃ x, s.sdma[c]? = some x :=
  ⟨_, List.getElem?_eq_getElem (hs.sdmaLength.symm ▸ hc)⟩

theorem exists_pdma {c : Nat} (hc : c < s.cfg.nPdma) : ∃ p, s.pdma[c]? = some p :=
  ⟨_, List.getElem?_eq_getElem (hs.pdmaLength.symm ▸ hc)⟩

/-- R21, R73: an EXT entry that routes to no shim routes to ECHO or CONST, and has its own state. -/
theorem withExt_leaf {e : Nat} (hext : s.cfg.isExt e = true)
    (hleaf : ∀ ent n p, s.cfg.registry[e]? = some ent → ent.handler ≠ .ext (.shim n) p) :
    ∃ h p x, (h = .echo ∨ h = .const) ∧ ∀ f, withExt e f s = f h p x s := by
  unfold Config.isExt at hext
  split at hext
  · rename_i label start last h p hent
    have he : e < s.ext.length := by
      rw [hs.extLength]
      exact (List.getElem?_eq_some_iff.1 hent).1
    refine ⟨h, p, s.ext[e], ?_, fun f => by simp [withExt, hent, he]⟩
    cases h with
    | echo => exact .inl rfl
    | const => exact .inr rfl
    | shim n => exact absurd rfl (hleaf _ n p hent)
  · cases hext

end

/-! ### Completion (60_exceptions R153) -/

/-- Starting the system slot triggers the periodic id, which has state (R6, R104). -/
theorem startCt_completes {k : Nat} {s : State} (hs : s.Inv) (hk : k < s.cfg.nCt) : ∃ t, startCt k s = .ok t := by
  obtain ⟨x, hx⟩ := exists_ct hs hk
  obtain ⟨hlow, hhigh⟩ := Config.periodic_of_wellFormed hs.cfgOk
  simp only [startCt, withCt_some hx]
  split
  · exact trigger_completes _ hlow hhigh
  · exact ⟨_, rfl⟩

theorem ctCtrlW_completes {k : Nat} (wv : U32) {s : State} (hs : s.Inv) (hk : k < s.cfg.nCt) :
    ∃ t, ctCtrlW k wv s = .ok t := by
  unfold ctCtrlW
  split
  · exact startCt_completes hs hk
  · obtain ⟨x, hx⟩ := exists_ct hs hk
    exact ⟨_, withCt_some hx⟩

/-- A transfer register takes a write, or ignores it while the channel is busy (R131). -/
theorem pdmaWreg_completes {c : Nat} (f : DmaField) (wv : U32) {s : State} (hs : s.Inv) (hc : c < s.cfg.nPdma) :
    ∃ t, pdmaWreg c f wv s = .ok t := by
  obtain ⟨p, hp⟩ := exists_pdma hs hc
  simp only [pdmaWreg, withPdma_some hp]
  split <;> exact ⟨_, rfl⟩

/-- A read operation on a unit the state has answers, where no shim is asked. -/
theorem runOp_read_completes {op : Instr} {s : State} (hop : ReadOp op) (hs : s.Inv)
    (hwf : op.wellFormed s.cfg = true) (hno : NoShim s.cfg op) :
    ∃ t r, runOp op s = .ok t ∧ t.reply = some r := by
  cases hop <;> simp only [runOp]
  case intcAck => exact ⟨_, _, rfl, rfl⟩
  case clkValueR d => exact ⟨_, _, rfl, rfl⟩
  case ctCtrlR k =>
    obtain ⟨x, hx⟩ := exists_ct hs (of_decide_eq_true hwf)
    exact ⟨_, _, withCt_some hx, rfl⟩
  case ctReloadR k =>
    obtain ⟨x, hx⟩ := exists_ct hs (of_decide_eq_true hwf)
    exact ⟨_, _, withCt_some hx, rfl⟩
  case ctValueR k =>
    obtain ⟨x, hx⟩ := exists_ct hs (of_decide_eq_true hwf)
    exact ⟨_, _, withCt_some hx, rfl⟩
  case ocCompareR d k =>
    obtain ⟨o, ho⟩ := exists_oc hs (of_decide_eq_true hwf)
    exact ⟨_, _, withOc_some ho, rfl⟩
  case ocStatusR d k =>
    obtain ⟨o, ho⟩ := exists_oc hs (of_decide_eq_true hwf)
    exact ⟨_, _, withOc_some ho, rfl⟩
  case sdmaRreg c f =>
    obtain ⟨x, hx⟩ := exists_sdma hs (of_decide_eq_true hwf)
    exact ⟨_, _, withSdma_some hx, rfl⟩
  case pdmaRreg c r =>
    obtain ⟨p, hp⟩ := exists_pdma hs (of_decide_eq_true hwf)
    exact ⟨_, _, withPdma_some hp, rfl⟩
  case extRead e off =>
    obtain ⟨h, p, x, rfl | rfl, hrun⟩ := withExt_leaf hs hwf fun ent n p he hh => (hno e ent n p he hh off 0).1 rfl
    · exact ⟨_, _, hrun _, rfl⟩
    · exact ⟨_, _, hrun _, rfl⟩
  case defaultRead n a =>
    exact ⟨_, _, defaultRead_of_check (checkAccess_none.2 (Bool.and_eq_true_iff.1 hwf)), rfl⟩
  case mismatchRead e off => exact ⟨_, _, if_pos hwf, rfl⟩

/-- A write operation on a unit the state has completes, where no shim is asked and no transfer starts. -/
theorem runOp_write_completes {op : Instr} {s : State} (hop : WriteOp op) (hs : s.Inv)
    (hwf : op.wellFormed s.cfg = true) (hno : NoShim s.cfg op)
    (hstart : ∀ c wv, op ≠ .sdmaStart c wv ∧ op ≠ .pdmaStart c wv) : ∃ t, runOp op s = .ok t := by
  cases hop <;> simp only [runOp]
  case intcEnable wv => exact ⟨_, rfl⟩
  case ctCtrlW k wv => exact ctCtrlW_completes wv hs (of_decide_eq_true hwf)
  case ctReloadW k wv =>
    obtain ⟨x, hx⟩ := exists_ct hs (of_decide_eq_true hwf)
    exact ⟨_, withCt_some hx⟩
  case ocArm d k wv =>
    obtain ⟨o, ho⟩ := exists_oc hs (of_decide_eq_true hwf)
    exact ⟨_, by rw [ocArm, setCompare, withOc_some ho]⟩
  case ocClear d k wv =>
    obtain ⟨o, ho⟩ := exists_oc hs (of_decide_eq_true hwf)
    exact ⟨_, withOc_some ho⟩
  case sdmaWreg c f wv =>
    obtain ⟨x, hx⟩ := exists_sdma hs (of_decide_eq_true hwf)
    exact ⟨_, withSdma_some hx⟩
  case sdmaStart c wv => exact absurd rfl (hstart c wv).1
  case pdmaWreg c f wv => exact pdmaWreg_completes f wv hs (of_decide_eq_true hwf)
  case pdmaStart c wv => exact absurd rfl (hstart c wv).2
  case extWrite e off wv =>
    obtain ⟨h, p, x, rfl | rfl, hrun⟩ := withExt_leaf hs hwf fun ent n p he hh => (hno e ent n p he hh off wv).2 rfl
    · exact ⟨_, hrun _⟩
    · exact ⟨_, hrun _⟩
  case defaultWrite n a v =>
    have hcheck : checkAccess s.cfg n a = none := checkAccess_none.2 (Bool.and_eq_true_iff.1 hwf)
    exact ⟨_, by rw [defaultWrite, hcheck]⟩
  case mismatchWrite e off wv => exact ⟨_, if_pos hwf⟩

/-- R40: a value cut to `n` bytes is below `2 ^ (8 * n)`. -/
theorem truncBytes_lt (n : Nat) (v : U32) : (truncBytes n v).toNat < 2 ^ (8 * n) := by
  unfold truncBytes
  rw [BitVec.toNat_ofNat]
  exact (Nat.mod_le _ _).trans_lt (Nat.mod_lt _ (by positivity))

/-- Settles O24: the operation a READ selects is well-formed, so it answers, and the answer is cut to the size. -/
theorem readsInTheApertureComplete : Obligations.ReadsInTheApertureComplete := by
  intro s i n a v hs hf hi ha hno
  have hn := sizeOk_of_busAccess hi
  obtain ⟨t, r, hrun, hr⟩ := runOp_read_completes (s := s.begun) (resolve_isRead ..) { hs with }
    (resolve_wellFormed hs.cfgOk hn ha) hno
  have hok : access .read n a v s.begun = .ok (t.truncReply n) := by
    rw [access_of_check (s := s.begun) (checkAccess_of_inAperture hn ha)]
    exact res_bind_eq_ok.2 ⟨t, hrun, rfl⟩
  refine ⟨t.truncReply n, truncBytes n r, exec_ok hf (by rw [meaning_busAccess hi, hok]),
    (access_keeps hok).fault.trans hf, ?_, truncBytes_lt n r⟩
  rw [State.truncReply_reply, hr, Option.map_some]

/-- Settles O25: the operation a WRITE selects is well-formed, so it completes, and no write operation answers. -/
theorem writesInTheApertureComplete : Obligations.WritesInTheApertureComplete := by
  intro s i n a v hs hf hi ha hno hstart
  have hn := sizeOk_of_busAccess hi
  have hop : WriteOp (resolve s.cfg .write n a v) := resolve_isWrite ..
  obtain ⟨t, hrun⟩ := runOp_write_completes (s := s.begun) hop { hs with } (resolve_wellFormed hs.cfgOk hn ha) hno
    hstart
  refine ⟨t, ?_, (runOp_keeps hrun).fault.trans hf, runOp_write_reply hop hrun⟩
  rw [exec_write hi ha]
  exact exec_ok hf (by rw [hop.meaning_eq, hrun])

end Sys2Proof.Machine
end

section
/-! PROOF. The first entry that contains an address (40_dispatch R68), and the entry `register` appends (R69). -/

namespace Sys2Proof.Machine

open Sys2Proof.Claims

/-! ### Lookup (40_dispatch R68) -/

theorem Entry.contains_iff {e : Entry} {a : U32} : e.contains a = true ↔ e.start ≤ a ∧ a ≤ e.last := by
  simp [Entry.contains]

theorem lookupFrom_cons_of_contains {a : U32} {e : Entry} (h : e.contains a = true) (n : Nat) (l : List Entry) :
    lookupFrom a n (e :: l) = some (n, e) := if_pos h

theorem lookupFrom_cons_of_not_contains {a : U32} {e : Entry} (h : ¬ e.contains a = true) (n : Nat) (l : List Entry) :
    lookupFrom a n (e :: l) = lookupFrom a (n + 1) l := if_neg h

/-- The lookup answers the entry at place `i` exactly when it contains the address and no entry before it does. -/
theorem lookupFrom_eq_some_iff {a : U32} {n i : Nat} {l : List Entry} {e : Entry} :
    lookupFrom a n l = some (n + i, e) ↔
      l[i]? = some e ∧ e.contains a = true ∧ ∀ j e', j < i → l[j]? = some e' → ¬ e'.contains a = true := by
  induction l generalizing n i with
  | nil => simp [lookupFrom]
  | cons x l ih =>
    by_cases hx : x.contains a = true
    · rw [lookupFrom_cons_of_contains hx]
      cases i with
      | zero =>
        refine ⟨fun h => ?_, fun ⟨hxe, _⟩ => ?_⟩
        · cases h
          exact ⟨rfl, hx, fun j e' hj => absurd hj j.not_lt_zero⟩
        · cases hxe
          rfl
      | succ i =>
        have hfirst : some (n, x) ≠ some (n + (i + 1), e) := fun h => by simp at h
        exact ⟨fun h => absurd h hfirst, fun ⟨_, _, hno⟩ => absurd hx (hno 0 x i.succ_pos rfl)⟩
    · rw [lookupFrom_cons_of_not_contains hx]
      cases i with
      | zero =>
        have hpast : lookupFrom a (n + 1) l ≠ some (n + 0, e) := fun h => by have := (lookupFrom_some h).1; omega
        refine ⟨fun h => absurd h hpast, ?_⟩
        rintro ⟨hxe, he, -⟩
        cases hxe
        exact absurd he hx
      | succ i =>
        rw [show n + (i + 1) = n + 1 + i by omega, ih, List.getElem?_cons_succ]
        refine and_congr_right fun _ => and_congr_right fun _ => ⟨fun h j e' hj hget => ?_, fun h j e' hj hget => ?_⟩
        · cases j with
          | zero => cases hget; exact hx
          | succ j => exact h j e' (by omega) hget
        · exact h (j + 1) e' (by omega) hget

theorem lookupFrom_eq_none_iff {a : U32} {n : Nat} {l : List Entry} :
    lookupFrom a n l = none ↔ ∀ e ∈ l, ¬ e.contains a = true := by
  induction l generalizing n with
  | nil => simp [lookupFrom]
  | cons x l ih =>
    rw [List.forall_mem_cons]
    by_cases hx : x.contains a = true
    · simp [lookupFrom_cons_of_contains hx, hx]
    · rw [lookupFrom_cons_of_not_contains hx, ih]
      exact (and_iff_right hx).symm

/-- Settles O19: the lookup takes the entries in order from place 0, and passes exactly those that do not contain the
address. -/
theorem lookupIsFirstMatch : Obligations.LookupIsFirstMatch := by
  refine fun c a => ⟨fun i e => ?_, ?_⟩
  · simpa only [Config.lookup, Nat.zero_add, Entry.contains_iff, and_assoc] using
      lookupFrom_eq_some_iff (n := 0) (i := i) (l := c.registry)
  · simpa only [Config.lookup, Entry.contains_iff] using lookupFrom_eq_none_iff (n := 0) (l := c.registry)

/-! ### The registry's entries (40_dispatch R69) -/

theorem entryOk_iff {c : Config} {e : Entry} :
    c.entryOk e = true ↔ e.start ≤ e.last ∧ e.start.toNat % 4 = 0 ∧ c.paramLegal e.handler = true := by
  simp [Config.entryOk, and_assoc]

theorem register_started {e : Entry} {s : State} (h : s.started = true) :
    register e s = .error (.outside .registryFixed) := if_pos h

theorem register_good {e : Entry} {s : State} (hs : s.started = false) (he : s.cfg.entryOk e = true) :
    register e s = .ok (s.addEntry e) := by
  simp [register, hs, he]

theorem register_bad {e : Entry} {s : State} (hs : s.started = false) (he : ¬ s.cfg.entryOk e = true) :
    register e s = .error (.raised .setup) := by
  simp [register, hs, he]

/-- Settles O10: a started machine's registry is fixed, and before the first step the entry's checks decide. -/
theorem registerAppendsAnEntry : Obligations.RegisterAppendsAnEntry := by
  refine fun s e hf => ⟨fun hs => ?_, fun hs hrange halign hparam => ?_, fun hs hbad => ?_⟩
  · exact exec_outside hf (register_started (s := s.begun) hs)
  · exact exec_ok hf (register_good (s := s.begun) hs (entryOk_iff.2 ⟨hrange, halign, hparam⟩))
  · refine exec_raised .setup hf (register_bad (s := s.begun) hs fun hok => ?_)
    obtain ⟨hrange, halign, hparam⟩ := entryOk_iff.1 hok
    rcases hbad with hlast | hodd | hillegal
    · exact BitVec.not_le.2 hlast hrange
    · exact hodd halign
    · exact Bool.false_ne_true (hillegal.symm.trans hparam)

end Sys2Proof.Machine
end

section
/-! PROOF. What the default handler (40_dispatch R77) and a mismatched access (30_encoding R59) do. -/

namespace Sys2Proof.Machine

open Sys2Proof.Claims

/-! ### The default handler's store (40_dispatch R77) -/

/-- R38: byte `j` of a value, as a number. -/
theorem byteOf_eq (v : U32) (j : Nat) : byteOf v j = BitVec.ofNat 8 (v.toNat / 2 ^ (8 * j)) := by
  rw [byteOf, BitVec.extractLsb', Nat.shiftRight_eq_div_pow]

theorem defaultWrite_of_check {n : Nat} {a v : U32} {s : State} (h : checkAccess s.cfg n a = none) :
    defaultWrite n a v s = .ok (s.setBacking (s.storeBacking a v n n s.backing)) := by
  unfold defaultWrite; rw [h]

section

variable {s : State} {a v : U32} {n : Nat} {m : Memory}

/-- A byte of the value that falls in the aperture is stored at its own address. -/
theorem get_storeBacking_written (hm : Memory.wf m = true) (ha : InAperture s.cfg a) {j : Nat} (hj : j < n)
    (hin : a.toNat + j < s.cfg.mmioBase.toNat + s.cfg.mmioSize.toNat) :
    Memory.get (s.storeBacking a v n n m) (a.toNat + j - s.cfg.mmioBase.toNat) = byteOf v j := by
  obtain ⟨hlow, -⟩ := ha
  have haddr : a.toNat + j - s.cfg.mmioBase.toNat + s.cfg.mmioBase.toNat = a.toNat + j := by omega
  rw [get_storeBacking s a v n n m hm le_rfl, haddr, if_pos]
  · congr 1; omega
  · exact ⟨by omega, by omega, by omega, (inAperture_iff _ _).2 ⟨by omega, hin⟩⟩

/-- A key that no stored byte of the value has keeps its byte. -/
theorem get_storeBacking_kept (hm : Memory.wf m = true) {x : Nat}
    (hx : ∀ j, j < n → a.toNat + j < s.cfg.mmioBase.toNat + s.cfg.mmioSize.toNat →
      x ≠ a.toNat + j - s.cfg.mmioBase.toNat) :
    Memory.get (s.storeBacking a v n n m) x = Memory.get m x := by
  rw [get_storeBacking s a v n n m hm le_rfl, if_neg]
  rintro ⟨-, hlow, hhigh, hin⟩
  obtain ⟨-, hend⟩ := (inAperture_iff _ _).1 hin
  exact hx (x + s.cfg.mmioBase.toNat - a.toNat) (by omega) (by omega) (by omega)

end

/-! ### The mismatch (30_encoding R59) -/

/-- An entry of no external kind is a core entry. -/
theorem isCore_of_entry {c : Config} {e : Nat} {ent : Entry} (he : c.registry[e]? = some ent)
    (hcore : ∀ h p, ent.handler ≠ .ext h p) : c.isCore e = true := by
  unfold Config.isCore
  rw [he]
  split
  · rename_i hent
    cases hent
    exact absurd rfl (hcore _ _)
  · rfl
  · cases ‹some ent = none›

/-- Settles O27: the access's checks pass, so the default handler answers 0 or stores the bytes, and a mismatch at a core
entry answers 0 or does nothing. -/
theorem defaultAndMismatchEffect : Obligations.DefaultAndMismatchEffect := by
  refine ⟨fun s n a v hf hn ha => ?_, fun s e ent off wv hf he hcore => ?_⟩
  · have hcheck : checkAccess s.begun.cfg n a = none := checkAccess_of_inAperture (sizeOk_iff.2 hn) ha
    refine ⟨exec_ok hf (defaultRead_of_check hcheck), fun hm => ?_⟩
    refine ⟨_, exec_ok hf (defaultWrite_of_check hcheck), fun j hj hin => ?_, fun x hx => ?_⟩
    · exact (get_storeBacking_written (s := s.begun) hm ha hj hin).trans (byteOf_eq v j)
    · exact get_storeBacking_kept (s := s.begun) hm hx
  · have hmism : s.begun.cfg.isCore e = true := isCore_of_entry he hcore
    exact ⟨exec_ok hf (if_pos hmism), exec_ok hf (if_pos hmism)⟩

end Sys2Proof.Machine
end

section
/-! PROOF. The external handlers (40_dispatch R73): the state is updated, the calls run, the result is returned; and the
two test handlers, which make no call. -/

namespace Sys2Proof.Machine

open Sys2Proof.Claims

/-! ### The Interrupt Controller's requests, in the rules' words (41_interrupt_controller R86 to R91) -/

/-- R91: the period is the system slot's reload value, shifted down. -/
theorem periodOf_eq (s : State) : periodOf s = Claims.period s := by
  unfold periodOf Claims.period
  cases s.ct[s.cfg.sysTimerSlot]? with
  | none => simp
  | some t =>
    apply BitVec.eq_of_toNat_eq
    have hlt : t.reload.toNat / 2 ^ s.cfg.periodShift < 2 ^ 32 := (Nat.div_le_self _ _).trans_lt t.reload.isLt
    rw [BitVec.toNat_ushiftRight, Nat.shiftRight_eq_div_pow, Option.map_some, Option.getD_some, BitVec.toNat_ofNat,
      Nat.mod_eq_of_lt hlt]

theorem activate_eq_afterActivate (id : Nat) (s : State) : activate id s = afterActivate id s := by
  rw [activate_eq, periodOf_eq]; rfl

theorem enableId_eq (id : Nat) (s : State) : enableId id s =
    if 1 ≤ id ∧ id < s.cfg.nIrq then { s with enabled := s.enabled.set id true } else s := by
  unfold enableId
  simp only [Config.idOk_iff]
  rfl

/-- R89: an enabled id counts down from its delay, and from 1 where the delay is 0. -/
theorem delay_eq_max (delay : U32) :
    (if delay = 0#32 then 1#32 else delay) = BitVec.ofNat 32 (max delay.toNat 1) := by
  split_ifs with hzero
  · rw [hzero]; rfl
  · have hpos : delay.toNat ≠ 0 := fun h => hzero (BitVec.eq_of_toNat_eq h)
    rw [Nat.max_eq_left (by omega), BitVec.ofNat_toNat, BitVec.setWidth_eq]

/-- R89: a trigger of an id with state activates the id, or sets its count. -/
theorem trigger_eq_afterTrigger {id : Nat} {s : State} (h0 : id ≠ 0) (h1 : ¬ s.cfg.nIrq ≤ id) (delay : U32) :
    trigger id delay s = .ok (afterTrigger id delay s) := by
  obtain ⟨t, ht⟩ := trigger_completes delay (s := s) (Nat.pos_of_ne_zero h0) (Nat.lt_of_not_le h1)
  rw [ht]
  unfold afterTrigger
  obtain ⟨-, -, ⟨hdelay, hon, hidle, rfl⟩ | ⟨hwait, hon, rfl⟩ | ⟨hoff, rfl⟩⟩ := trigger_ok ht
  · rw [if_pos ⟨hdelay, hon, hidle⟩, activate_eq_afterActivate]
  · have hno : ¬ (delay = 0 ∧ s.enabled.getD id false = true ∧ s.activeId = 0) :=
      fun ⟨hdelay, _, hidle⟩ => hwait ⟨hdelay, hidle⟩
    have hcount : s.enabled.getD id false = true := hon
    rw [if_neg hno, if_pos hcount, delay_eq_max]; rfl
  · have hmasked : ¬ s.enabled.getD id false = true := Bool.eq_false_iff.1 hoff
    rw [if_neg fun h => hmasked h.2.1, if_neg hmasked]; rfl

theorem trigger_zero (delay : U32) (s : State) : trigger 0 delay s = .error (.raised .triggerIdZero) := rfl

theorem trigger_range {id : Nat} {s : State} (h0 : id ≠ 0) (h1 : s.cfg.nIrq ≤ id) (delay : U32) :
    trigger id delay s = .error (.raised .triggerIdRange) := by
  simp [trigger, checkId, h0, h1]

/-! ### The calls of a handler -/

/-- The calls run in order, each as the request it names, and the first that fails gives the fault. -/
theorem extCalls_eq (l : List ExtCall) (s : State) : extCalls l s = (afterCalls l s).mapError .raised := by
  induction l generalizing s with
  | nil => rfl
  | cons call l ih =>
    cases call with
    | enable id => rw [extCalls, afterCalls, enableId_eq, ih]
    | trigger id delay =>
      rw [extCalls, afterCalls]
      split_ifs with h0 h1
      · rw [h0, trigger_zero]; rfl
      · rw [trigger_range h0 h1]; rfl
      · rw [trigger_eq_afterTrigger h0 h1, res_bind_ok, ih]
    | fatalReport => rfl

theorem afterTrigger_begun (id : Nat) (delay : U32) (s : State) :
    afterTrigger id delay s.begun = (afterTrigger id delay s).begun := by
  simp only [afterTrigger, apply_ite State.begun]
  rfl

/-- No call reads or writes what a step shows the outside (assumption 3). -/
theorem afterCalls_begun (l : List ExtCall) (s : State) : afterCalls l s.begun = (afterCalls l s).map State.begun := by
  induction l generalizing s with
  | nil => rfl
  | cons call l ih =>
    cases call with
    | enable id =>
      rw [afterCalls, afterCalls, ← ih, apply_ite State.begun]
      rfl
    | trigger id delay =>
      rw [afterCalls, afterCalls, State.begun_cfg, afterTrigger_begun, ih]
      split_ifs <;> rfl
    | fatalReport => rfl

theorem extCalls_begun_of_ok {l : List ExtCall} {s t : State} (h : afterCalls l s = .ok t) :
    extCalls l s.begun = .ok t.begun := by
  rw [extCalls_eq, afterCalls_begun, h]; rfl

theorem extCalls_begun_of_error {l : List ExtCall} {s : State} {code : FaultCode} (h : afterCalls l s = .error code) :
    extCalls l s.begun = .error (.raised code) := by
  rw [extCalls_eq, afterCalls_begun, h]; rfl

theorem kindOf_eq (code : FaultCode) : kindOf code = code.kind := by cases code <;> rfl

/-! ### An access to an external handler -/

theorem withExt_some {e : Nat} {ent : Entry} {h : ExtHandler} {p : U32} {x : ExtState}
    {f : ExtHandler → U32 → ExtState → State → Res} {s : State} (hent : s.cfg.registry[e]? = some ent)
    (hh : ent.handler = .ext h p) (hx : s.ext[e]? = some x) : withExt e f s = f h p x s := by
  obtain ⟨label, start, last, handler⟩ := ent
  subst hh
  simp [withExt, hent, hx]

section

variable {s t : State} {e : Nat} {ent : Entry} {h : ExtHandler} {p : U32} {x : ExtState} {code : FaultCode}
  (hent : s.cfg.registry[e]? = some ent) (hh : ent.handler = .ext h p) (hx : s.ext[e]? = some x)
include hent hh hx

theorem extRead_of_entry (off : U32) : extRead e off s =
    (extCalls (extReadFn h x p off).2.2 (s.setExt e (extReadFn h x p off).1) >>= fun t =>
      .ok (t.setReply (extReadFn h x p off).2.1)) := withExt_some hent hh hx

theorem extWrite_of_entry (off wv : U32) : extWrite e off wv s =
    extCalls (extWriteFn h x p off wv).2 (s.setExt e (extWriteFn h x p off wv).1) := withExt_some hent hh hx

variable {off wv : U32} (hf : s.fault = none)
include hf

theorem exec_extRead_of_ok
    (hcalls : afterCalls (extReadFn h x p off).2.2 (s.setExt e (extReadFn h x p off).1) = .ok t) :
    exec (.extRead e off) s = .next (answering (extReadFn h x p off).2.1 t) :=
  exec_ok hf ((extRead_of_entry (s := s.begun) hent hh hx off).trans
    (res_bind_eq_ok.2 ⟨_, extCalls_begun_of_ok hcalls, rfl⟩))

theorem exec_extRead_of_error
    (hcalls : afterCalls (extReadFn h x p off).2.2 (s.setExt e (extReadFn h x p off).1) = .error code) :
    exec (.extRead e off) s = .next (faulted (kindOf code) code s) := by
  rw [kindOf_eq]
  exact exec_raised code hf ((extRead_of_entry (s := s.begun) hent hh hx off).trans
    (res_bind_eq_error.2 (.inl (extCalls_begun_of_error hcalls))))

theorem exec_extWrite_of_ok
    (hcalls : afterCalls (extWriteFn h x p off wv).2 (s.setExt e (extWriteFn h x p off wv).1) = .ok t) :
    exec (.extWrite e off wv) s = .next (silent t) :=
  exec_ok hf ((extWrite_of_entry (s := s.begun) hent hh hx off wv).trans (extCalls_begun_of_ok hcalls))

theorem exec_extWrite_of_error
    (hcalls : afterCalls (extWriteFn h x p off wv).2 (s.setExt e (extWriteFn h x p off wv).1) = .error code) :
    exec (.extWrite e off wv) s = .next (faulted (kindOf code) code s) := by
  rw [kindOf_eq]
  exact exec_raised code hf ((extWrite_of_entry (s := s.begun) hent hh hx off wv).trans
    (extCalls_begun_of_error hcalls))

end

/-- Settles O29: what a shim's function answers is stored, and its calls then decide the outcome. -/
theorem shimCallsRunInOrder : Obligations.ShimCallsRunInOrder := by
  intro s e ent n p off wv x hf hent hh hx
  constructor
  · rintro r rfl
    cases hcalls : afterCalls (Config.shimRead n x p off).2.2
        { s with ext := s.ext.set e (Config.shimRead n x p off).1 } with
    | ok t => exact exec_extRead_of_ok hent hh hx hf hcalls
    | error code => exact exec_extRead_of_error hent hh hx hf hcalls
  · rintro r rfl
    cases hcalls : afterCalls (Config.shimWrite n x p off wv).2
        { s with ext := s.ext.set e (Config.shimWrite n x p off wv).1 } with
    | ok t => exact exec_extWrite_of_ok hent hh hx hf hcalls
    | error code => exact exec_extWrite_of_error hent hh hx hf hcalls

/-! ### The test handlers (92_eei_decisions D42) -/

/-- Storing the state a handler already has changes nothing. -/
theorem State.setExt_self {s : State} {e : Nat} {x : ExtState} (hx : s.ext[e]? = some x) : s.setExt e x = s := by
  obtain ⟨he, rfl⟩ := List.getElem?_eq_some_iff.1 hx
  rw [State.setExt, List.set_getElem_self]

theorem extWriteFn_echo (v p off wv : U32) : extWriteFn .echo [v] p off wv = ([if off = 0 then wv else v], []) := by
  unfold extWriteFn
  split_ifs <;> rfl

/-- Settles O28: neither handler makes a call, a read of either and a write to CONST keep its state, and ECHO stores what
is written at offset 0. -/
theorem echoAndConstHandlers : Obligations.EchoAndConstHandlers := by
  refine fun s e ent p v off wv hf hent => ⟨fun hh hx => ⟨?_, ?_⟩, fun hh hx => ⟨?_, ?_⟩⟩
  · exact exec_extRead_of_ok hent hh hx hf (congrArg Except.ok (State.setExt_self hx))
  · refine exec_extWrite_of_ok hent hh hx hf ?_
    rw [extWriteFn_echo]
    rfl
  · exact exec_extRead_of_ok hent hh hx hf (congrArg Except.ok (State.setExt_self hx))
  · exact exec_extWrite_of_ok hent hh hx hf (congrArg Except.ok (State.setExt_self hx))

end Sys2Proof.Machine
end

section
/-! PROOF. The Interrupt Controller's register operations and requests (41_interrupt_controller R86 to R91), and what
ends an active interrupt (R95). -/

namespace Sys2Proof.Machine

open Sys2Proof.Claims

/-! ### What ends an interrupt (41_interrupt_controller R95, 60_exceptions R163) -/

/-- Beside an active interrupt, a register operation that changes the active id is the acknowledge, which resets it. -/
theorem RegisterEffect.ends {op : Instr} {s t : State} (h : RegisterEffect op s t) (hactive : s.activeId ≠ 0)
    (hchange : t.activeId ≠ s.activeId) : t.activeId = 0 ∧ op = .intcAck := by
  cases h with
  | acknowledged hop r ht =>
    rw [acknowledge_eq] at ht
    exact ⟨congrArg State.activeId ht, hop⟩
  | changed u v r hunit hintc ht =>
    have hsingle : v.activeId = s.activeId := (hunit.intc.trans hintc.toIntcChange).single hactive
    rw [ht] at hchange
    exact absurd hsingle hchange

/-- Settles O14: of what a step can do, a tick makes requests, which keep an active interrupt, a fault keeps it, and an
access changes it by the acknowledge alone. -/
theorem onlyAReasonReadEndsAnInterrupt : Obligations.OnlyAReasonReadEndsAnInterrupt := by
  intro s t w rest hinbox h hactive hchange
  cases step_effect hinbox h with
  | access mode size a v hbus hok =>
    obtain ⟨hreset, hop⟩ := (access_effect hok).ends hactive hchange
    exact ⟨hreset, mode, size, a, v, hbus, hop⟩
  | tick htick hok => exact absurd ((onTick_moves hok).single hactive) hchange
  | faulted code ht =>
    rw [ht] at hchange
    exact absurd rfl hchange

/-! ### Trigger (41_interrupt_controller R87, R89) -/

/-- Settles O34: the id check refuses 0 and an id past the last one, and any other id is activated or scheduled. -/
theorem triggerEffect : Obligations.TriggerEffect := by
  intro s id delay hf
  split_ifs with hzero hrange
  · subst hzero
    exact exec_raised .triggerIdZero hf (trigger_zero delay s.begun)
  · exact exec_raised .triggerIdRange hf (trigger_range (s := s.begun) hzero hrange delay)
  · refine exec_ok hf ?_
    have htrigger := trigger_eq_afterTrigger (s := s.begun) hzero hrange delay
    rwa [afterTrigger_begun] at htrigger

/-! ### The registers (41_interrupt_controller R86, R90, R96) -/

/-- Settles O31: the write enables the id it holds, if that id has state. -/
theorem enableWriteSetsOneBit : Obligations.EnableWriteSetsOneBit := by
  intro s wv hf
  rw [exec_ok hf (show meaning (.intcEnable wv) s.begun = .ok (enableId wv.toNat s.begun) from rfl), enableId_eq,
    State.begun_cfg]
  split_ifs <;> rfl

/-- R90: the returned value is the active id shifted, as a number. -/
theorem reasonValue_eq (s : State) : reasonValue s = BitVec.ofNat 32 (s.activeId * 2 ^ s.cfg.reasonShift) := by
  apply BitVec.eq_of_toNat_eq
  rw [reasonValue, BitVec.toNat_shiftLeft, BitVec.toNat_ofNat, BitVec.toNat_ofNat, Nat.shiftLeft_eq, Nat.mod_mul_mod]

theorem exec_intcAck {s : State} (hf : s.fault = none) :
    exec .intcAck s = .next (answering (reasonValue s) (acknowledge s)) := by
  refine exec_ok hf ?_
  rw [meaning, intcAck, acknowledge_eq, acknowledge_eq]
  rfl

/-- Settles O32: the read acknowledges, and then no interrupt is active and there is nothing to acknowledge. -/
theorem reasonReadAcknowledges : Obligations.ReasonReadAcknowledges := by
  intro s hf
  obtain ⟨t, ht⟩ : ∃ t, t = answering (reasonValue s) (acknowledge s) := ⟨_, rfl⟩
  have hidle : t.activeId = 0 := by rw [ht, acknowledge_eq]; rfl
  have hrunning : t.fault = none := by rw [ht, acknowledge_eq]; exact hf
  refine ⟨t, ht ▸ exec_intcAck hf, by rw [ht, acknowledge_eq, reasonValue_eq], ?_⟩
  rw [exec_intcAck hrunning, reasonValue_eq, hidle, Nat.zero_mul, acknowledge, if_pos hidle]
  rfl

/-! ### Activation and the period (41_interrupt_controller R88, R91) -/

/-- Settles O33: `activate` makes R88's assignments for every id with state, and `period` answers R91's value. -/
theorem activateAndPeriod : Obligations.ActivateAndPeriod := by
  refine fun s id hf => ⟨fun hlow hhigh => exec_ok hf ?_, fun t ht => ⟨?_, exec_ok hf ?_⟩⟩
  · have hid : s.begun.cfg.idOk id = true := (Config.idOk_iff _ _).2 ⟨hlow, hhigh⟩
    refine (if_pos hid).trans ?_
    rw [activate_eq_afterActivate]
    rfl
  · rw [Claims.period, ht]; rfl
  · rw [← periodOf_eq]; rfl

end Sys2Proof.Machine
end

section
/-! PROOF. The service of a tick (41_interrupt_controller R92, R93), in the rules' words. -/

namespace Sys2Proof.Machine

open Sys2Proof.Claims

theorem ready_iff {s : State} {id : Nat} : Ready s id ↔ 1 ≤ id ∧ id < s.cfg.nIrq ∧ ReadyAt s id := Iff.rfl

/-- R92: the model's count-down is one less for a count above 1. -/
theorem countedDown_eq (v : U32) : countedDown v = counted v := by
  unfold countedDown counted
  by_cases hlow : v = 1#32 ∨ v = 0#32
  · have hle : v.toNat ≤ 1 := by rcases hlow with rfl | rfl <;> decide
    rw [if_pos hlow, if_pos hle]
  · have hgt : 1 < v.toNat := by bv_omega
    rw [if_neg hlow, if_neg (by omega)]
    bv_omega

@[simp] theorem counted_zero : counted 0 = 0 := rfl

section

variable {s : State} (hlen : s.scheduled.length = s.cfg.nIrq)
include hlen

/-- With an interrupt active or no id ready, the service counts every id down. -/
theorem serviceTick_quiet (h : s.activeId ≠ 0 ∨ ∀ id, ¬ Ready s id) :
    (serviceTick s).enabled = s.enabled ∧ (serviceTick s).activeId = s.activeId ∧
      (serviceTick s).irqLine = s.irqLine ∧ ∀ j, (serviceTick s).scheduledAt j =
        if 1 ≤ j ∧ j < s.cfg.nIrq then counted (s.scheduledAt j) else s.scheduledAt j := by
  obtain ⟨henabled, hactive, hline, hcount⟩ := serviceDown_quiet (n := s.cfg.nIrq - 1) (s := s) (by omega)
    (h.imp_right fun hnone id hlow hhigh hat => hnone id (ready_iff.2 ⟨hlow, by omega, hat⟩))
  refine ⟨henabled, hactive, hline, fun j => ?_⟩
  rw [serviceTick, hcount, countedDown_eq]
  exact if_congr (by omega) rfl rfl

/-- With nothing active, the service activates the highest ready id and counts every other down. -/
theorem serviceTick_activates {id : Nat} (hidle : s.activeId = 0) (hready : Ready s id)
    (hhighest : ∀ j, id < j → ¬ Ready s j) :
    (serviceTick s).enabled = s.enabled.set id false ∧ (serviceTick s).activeId = id ∧
      (serviceTick s).irqLine = true ∧ ∀ j, (serviceTick s).scheduledAt j =
        if j = id then (if id = s.cfg.periodicIrq then Claims.period s else 0)
        else if 1 ≤ j ∧ j < s.cfg.nIrq then counted (s.scheduledAt j) else s.scheduledAt j := by
  obtain ⟨hlow, hhigh, hat⟩ := ready_iff.1 hready
  obtain ⟨henabled, hactive, hline, hcount⟩ := serviceDown_activates (n := s.cfg.nIrq - 1) (by omega) hidle hlow
    (by omega) hat fun j hgt hle hj => hhighest j hgt (ready_iff.2 ⟨by omega, by omega, hj⟩)
  refine ⟨henabled, hactive, hline, fun j => ?_⟩
  rw [serviceTick, hcount, countedDown_eq, periodOf_eq]
  exact if_congr Iff.rfl rfl (if_congr (by omega) rfl rfl)

end

/-- Settles O35: the service touches the Interrupt Controller alone and never visits id 0, and its two cases are those of
`serviceTick_quiet` and `serviceTick_activates`. -/
theorem serviceActivatesTheHighestReadyId : Obligations.ServiceActivatesTheHighestReadyId := by
  intro s hf _ hlen
  have hmoves := serviceTick_moves s.begun
  refine ⟨serviceTick s.begun, exec_ok hf rfl, hmoves.frame, hmoves.scheduledLength, serviceDown_zero _ _, ?_, ?_⟩
  · intro hquiet
    obtain ⟨henabled, hactive, hline, hcount⟩ := serviceTick_quiet (s := s.begun) hlen hquiet
    exact ⟨henabled, hactive, hline, fun id hlow hhigh => (hcount id).trans (if_pos ⟨hlow, hhigh⟩)⟩
  · intro id hidle hready hhighest
    obtain ⟨henabled, hactive, hline, hcount⟩ := serviceTick_activates (s := s.begun) hlen hidle hready hhighest
    refine ⟨henabled, hactive, hline, (hcount id).trans (if_pos rfl), fun j hlow hhigh hne => ?_⟩
    exact (hcount j).trans ((if_neg hne).trans (if_pos ⟨hlow, hhigh⟩))

end Sys2Proof.Machine
end

section
/-! PROOF. A masked pending id through a tick (41_interrupt_controller R94). -/

namespace Sys2Proof.Machine

/-- R94: the id waits to be unmasked. -/
structure MaskedPending (id : Nat) (s : State) : Prop where
  masked : s.isEnabled id = false
  pending : s.scheduledAt id = 1#32

namespace MaskedPending

variable {id : Nat} {s t : State}

/-- Only the enable bits and the counts bear on it. -/
theorem congr (h : MaskedPending id s) (henabled : t.enabled = s.enabled) (hscheduled : t.scheduled = s.scheduled) :
    MaskedPending id t where
  masked := by unfold State.isEnabled; rw [henabled]; exact h.masked
  pending := by unfold State.scheduledAt; rw [hscheduled]; exact h.pending

theorem setPdma (h : MaskedPending id s) (c : Nat) (p : PolledDma) : MaskedPending id (s.setPdma c p) := h.congr rfl rfl

/-- The activation of an enabled id is another's. -/
theorem activate (h : MaskedPending id s) {j : Nat} (hj : s.isEnabled j = true) : MaskedPending id (activate j s) := by
  have hne : id ≠ j := fun heq => Bool.false_ne_true (h.masked.symm.trans (heq ▸ hj))
  constructor
  · rw [isEnabled_set s _ j false (by rw [activate_eq]), if_neg fun hid => hne hid.1]
    exact h.masked
  · rw [scheduledAt_set s _ j _ (by rw [activate_eq]), if_neg fun hid => hne hid.1]
    exact h.pending

/-- A count that is set is another's, or it is 1. -/
theorem setScheduled (h : MaskedPending id s) {j : Nat} {v : U32} (hv : j = id → v = 1#32) :
    MaskedPending id (s.setScheduled j v) := by
  refine ⟨h.masked, ?_⟩
  rw [scheduledAt_set s _ j v rfl]
  split_ifs with hid
  · exact hv hid.1.symm
  · exact h.pending

/-- R89: a trigger of a masked id sets its count to 1. -/
theorem trigger (h : MaskedPending id s) {j : Nat} {delay : U32} (ht : trigger j delay s = .ok t) :
    MaskedPending id t := by
  obtain ⟨-, -, ⟨-, hon, -, rfl⟩ | ⟨-, hon, rfl⟩ | ⟨-, rfl⟩⟩ := trigger_ok ht
  · exact h.activate hon
  · refine h.setScheduled fun heq => ?_
    rw [heq, h.masked] at hon
    cases hon
  · exact h.setScheduled fun _ => rfl

/-- R92: the service passes over a masked id whose count is 1. -/
theorem serviceId (h : MaskedPending id s) (j : Nat) : MaskedPending id (serviceId j s) := by
  unfold Machine.serviceId
  split_ifs with hone hready
  · exact h.activate hready.1
  · exact h
  · exact h
  · exact h.setScheduled fun heq => absurd (heq ▸ h.pending) hone

theorem serviceDown (h : MaskedPending id s) (n : Nat) : MaskedPending id (serviceDown n s) := by
  induction n generalizing s with
  | zero => exact h
  | succ n ih => exact ih (h.serviceId (n + 1))

theorem tickEngines (h : MaskedPending id s) : MaskedPending id (tickEngines s) := by
  rw [tickEngines_eq]
  exact (h.serviceDown (s.cfg.nIrq - 1)).congr rfl rfl

theorem raiseIds {l : List (Nat × Bool)} {done : List Nat} (h : MaskedPending id s)
    (ht : raiseIds l done s = .ok t) : MaskedPending id t := by
  induction l generalizing done s with
  | nil => cases ht; exact h
  | cons slot l ih =>
    obtain ⟨j, fire⟩ := slot
    rw [Machine.raiseIds] at ht
    split at ht
    · obtain ⟨u, htrigger, hrest⟩ := res_bind_eq_ok.1 ht
      exact ih (h.trigger htrigger) hrest
    · exact ih h ht

theorem ocRaise (h : MaskedPending id s) (ht : ocRaise s = .ok t) : MaskedPending id t := by
  obtain ⟨u, hnarrow, hwide⟩ := res_bind_eq_ok.1 ht
  exact (h.raiseIds hnarrow).raiseIds hwide

theorem raiseCompletion {irq : PdmaIrq} (h : MaskedPending id s) (ht : raiseCompletion irq s = .ok t) :
    MaskedPending id t := by
  obtain ⟨u, hdma, hdrv⟩ := res_bind_eq_ok.1 ht
  split at hdrv
  · exact (h.trigger hdma).trigger hdrv
  · cases hdrv
    exact h.trigger hdma

theorem pdmaFinish {c : Nat} {p : PolledDma} (h : MaskedPending id s) (ht : pdmaFinish c p s = .ok t) :
    MaskedPending id t := by
  unfold Machine.pdmaFinish at ht
  split at ht
  · split at ht
    · exact (h.setPdma c _).raiseCompletion ht
    · cases ht
  · cases ht
    exact h.setPdma c _

theorem pdmaChannel {c : Nat} (h : MaskedPending id s) (ht : pdmaChannel c s = .ok t) : MaskedPending id t := by
  obtain ⟨p, -, ht⟩ := withPdma_ok ht
  split at ht
  · obtain ⟨⟨q, u⟩, hmove, hfinish⟩ := res_bind_eq_ok.1 ht
    have hframe := (pdmaMove_ok hmove).1.frame
    exact (h.congr (by rw [hframe]) (by rw [hframe])).pdmaFinish hfinish
  · cases ht
    exact h

theorem pdmaChannels {l : List Nat} (h : MaskedPending id s) (ht : pdmaChannels l s = .ok t) :
    MaskedPending id t := by
  induction l generalizing s with
  | nil => cases ht; exact h
  | cons c l ih =>
    obtain ⟨u, hfirst, hrest⟩ := res_bind_eq_ok.1 ht
    exact ih (h.pdmaChannel hfirst) hrest

theorem onTick (h : MaskedPending id s) (ht : onTick s = .ok t) : MaskedPending id t := by
  obtain ⟨a, b, hraise, hpolled, rfl⟩ := onTick_ok.1 ht
  exact ((h.tickEngines.ocRaise hraise).pdmaChannels hpolled).congr rfl rfl

end MaskedPending

/-- Settles O36: every part of a tick keeps a masked pending id, and a faulting tick changes no enable bit and no
count. -/
theorem maskedPendingIdSurvivesATick : Obligations.MaskedPendingIdSurvivesATick := by
  intro s t id _ _ _ _ hmasked hpending h
  have hstart : MaskedPending id s.begun := ⟨hmasked, hpending⟩
  obtain ⟨-, hok | ⟨code, -, rfl⟩⟩ := exec_next.1 h
  · obtain ⟨hmasked', hpending'⟩ := hstart.onTick hok
    exact ⟨hmasked', hpending'⟩
  · exact ⟨hmasked, hpending⟩

end Sys2Proof.Machine
end

section
/-! PROOF. A count with nothing else requested (41_interrupt_controller R97): each tick takes one from it, and the tick
that finds it at 1 activates its id. -/

namespace Sys2Proof.Machine

open Sys2Proof.Claims

/-! ### A tick in which only the service can request (44_tick_driver R141) -/

theorem raiseIds_silent {l : List (Nat × Bool)} {done : List Nat} {s : State} (h : ∀ slot ∈ l, slot.2 = false) :
    raiseIds l done s = .ok s := by
  induction l with
  | nil => rfl
  | cons slot l ih =>
    obtain ⟨id, fire⟩ := slot
    have hfire : ¬ (fire = true ∧ id ∉ done) := fun hslot =>
      Bool.false_ne_true ((h _ List.mem_cons_self).symm.trans hslot.1)
    rw [raiseIds, if_neg hfire]
    exact ih fun slot hslot => h slot (List.mem_cons_of_mem _ hslot)

/-- No output-compare slot is armed. -/
def Disarmed (s : State) : Prop := ∀ d, ∀ o ∈ s.oc.get d, o.active = false

/-- R116: a slot that is not armed does not fire. -/
theorem firingIds_of_disarmed {s : State} (h : Disarmed s) (d : Domain) :
    ∀ slot ∈ firingIds d s, slot.2 = false := fun slot hslot => by
  obtain ⟨o, ho, heq⟩ := List.mem_map.1 (List.of_mem_zip hslot).2
  rw [← heq, fires, h d o ho, Bool.false_and]

theorem ocRaise_disarmed {s : State} (h : Disarmed s) : ocRaise s = .ok s := by
  rw [ocRaise, raiseFamily, raiseIds_silent (firingIds_of_disarmed h .narrow), res_bind_ok, raiseFamily,
    raiseIds_silent (firingIds_of_disarmed h .wide)]

/-- R116: a match marks a slot and arms none. -/
theorem tickEngines_disarmed {s : State} (h : Disarmed s) : Disarmed (tickEngines s) := fun d o ho => by
  rw [tickEngines_eq] at ho
  cases d with
  | narrow =>
    obtain ⟨x, hx, rfl⟩ := List.mem_map.1 ho
    split <;> exact h .narrow x hx
  | wide =>
    obtain ⟨x, hx, rfl⟩ := List.mem_map.1 ho
    split <;> exact h .wide x hx

/-! The engines after the service leave the Interrupt Controller and the channels alone. -/

@[simp] theorem tickEngines_isEnabled (s : State) (j : Nat) :
    (tickEngines s).isEnabled j = (serviceTick s).isEnabled j := by rw [tickEngines_eq]; rfl

@[simp] theorem tickEngines_scheduledAt (s : State) (j : Nat) :
    (tickEngines s).scheduledAt j = (serviceTick s).scheduledAt j := by rw [tickEngines_eq]; rfl

@[simp] theorem tickEngines_activeId (s : State) : (tickEngines s).activeId = (serviceTick s).activeId := by
  rw [tickEngines_eq]

@[simp] theorem tickEngines_irqLine (s : State) : (tickEngines s).irqLine = (serviceTick s).irqLine := by
  rw [tickEngines_eq]

theorem tickEngines_pdma (s : State) : (tickEngines s).pdma = s.pdma := by
  rw [tickEngines_eq]
  exact (serviceTick_moves s).pdma

/-- With no slot armed and no channel busy, a tick is its engines and its count. -/
theorem onTick_quiet {s : State} (hlen : s.pdma.length = s.cfg.nPdma) (hdisarmed : Disarmed s) (hidle : Idle s) :
    onTick s = .ok (tickEngines s).countTick := by
  refine onTick_ok.2 ⟨tickEngines s, tickEngines s, ocRaise_disarmed (tickEngines_disarmed hdisarmed),
    pdmaStep_idle ?_ ?_, rfl⟩
  · rw [tickEngines_pdma, hlen, (tickEngines_intc s).cfg]
  · rw [tickEngines_pdma]; exact hidle

/-! ### The count of the one requested id (41_interrupt_controller R97) -/

/-- R97: `id` is enabled with count `v`, and nothing else is requested, active, armed or busy. -/
structure Awaiting (id : Nat) (v : U32) (s : State) : Prop where
  inv : s.Inv
  running : s.fault = none
  low : 1 ≤ id
  high : id < s.cfg.nIrq
  enabled : s.isEnabled id = true
  count : s.scheduledAt id = v
  inactive : s.activeId = 0
  alone : ∀ j, j ≠ id → s.scheduledAt j = 0
  disarmed : Disarmed s
  idle : Idle s

namespace Awaiting

variable {id : Nat} {v : U32} {s : State}

theorem begun (h : Awaiting id v s) : Awaiting id v s.begun := { h with inv := { h.inv with } }

theorem line (h : Awaiting id v s) : s.irqLine = false := by rw [h.inv.line, h.inactive]; rfl

theorem onTick_eq (h : Awaiting id v s) : onTick s = .ok (tickEngines s).countTick :=
  onTick_quiet h.inv.pdmaLength h.disarmed h.idle

/-- Only the one requested id can be ready. -/
theorem eq_of_ready (h : Awaiting id v s) {j : Nat} (hj : Ready s j) : j = id ∧ v = 1#32 := by
  obtain ⟨-, -, hone, -⟩ := ready_iff.1 hj
  by_cases hne : j = id
  · exact ⟨hne, by rw [← h.count, ← hne, hone]⟩
  · rw [h.alone j hne] at hone
    cases hone

/-- A tick takes one from a count above 1, and the id still waits for the rest (R92). -/
theorem onTick (h : Awaiting id v s) (hv : 1 < v.toNat) : Awaiting id (v - 1) (tickEngines s).countTick := by
  have hquiet : ∀ j, ¬ Ready s j := fun j hj => by
    rw [(h.eq_of_ready hj).2] at hv
    exact absurd hv (by decide)
  obtain ⟨henabled, hactive, -, hcount⟩ := serviceTick_quiet h.inv.scheduledLength (.inr hquiet)
  have hm := onTick_moves h.onTick_eq
  exact {
    inv := onTick_inv h.inv h.onTick_eq
    running := hm.fault.trans h.running
    low := h.low
    high := by rw [hm.cfg]; exact h.high
    enabled := by
      rw [State.countTick_isEnabled, tickEngines_isEnabled]
      exact (congrArg (·.getD id false) henabled).trans h.enabled
    count := by
      rw [State.countTick_scheduledAt, tickEngines_scheduledAt, hcount, if_pos ⟨h.low, h.high⟩, h.count, counted,
        if_neg (by omega)]
      bv_omega
    inactive := by rw [State.countTick_activeId, tickEngines_activeId, hactive, h.inactive]
    alone := fun j hj => by
      rw [State.countTick_scheduledAt, tickEngines_scheduledAt, hcount, h.alone j hj, counted_zero, ite_self]
    disarmed := tickEngines_disarmed h.disarmed
    idle := fun p hp => h.idle p (tickEngines_pdma s ▸ hp) }

/-- The tick that finds the count at 1 activates the id. -/
theorem onTick_delivers (h : Awaiting id 1 s) :
    (tickEngines s).countTick.activeId = id ∧ (tickEngines s).countTick.irqLine = true := by
  have hready : Ready s id := ready_iff.2 ⟨h.low, h.high, h.count, h.enabled⟩
  obtain ⟨-, hactive, hline, -⟩ := serviceTick_activates h.inv.scheduledLength h.inactive hready
    fun j hgt hj => absurd (h.eq_of_ready hj).1 (by omega)
  exact ⟨by simpa using hactive, by simpa using hline⟩

theorem exec_tick (h : Awaiting id v s) : exec .tick s = .next (tickEngines s.begun).countTick :=
  exec_ok h.running h.begun.onTick_eq

/-- After fewer ticks than the count, it has fallen by their number. -/
theorem times_tick (h : Awaiting id v s) {n : Nat} (hn : n < v.toNat) :
    ∃ t, times .tick n s = .next t ∧ Awaiting id (BitVec.ofNat 32 (v.toNat - n)) t := by
  induction n with
  | zero => exact ⟨s, rfl, by rwa [Nat.sub_zero, BitVec.ofNat_toNat, BitVec.setWidth_eq]⟩
  | succ n ih =>
    obtain ⟨t, ht, hwait⟩ := ih (by omega)
    have hcount : (BitVec.ofNat 32 (v.toNat - n)).toNat = v.toNat - n := by
      rw [BitVec.toNat_ofNat, Nat.mod_eq_of_lt (by omega)]
    refine ⟨_, by rw [times, ht]; exact hwait.exec_tick, ?_⟩
    have hnext : BitVec.ofNat 32 (v.toNat - n) - 1 = BitVec.ofNat 32 (v.toNat - (n + 1)) := by bv_omega
    rw [← hnext]
    exact hwait.begun.onTick (by omega)

end Awaiting

/-- Settles O37: the count falls by one a tick, and the tick after the last of these finds it at 1. -/
theorem delayedTriggerTakesItsTicks : Obligations.DelayedTriggerTakesItsTicks := by
  intro s id d hinv hf hlow hhigh hon hcount hpos hinactive halone hdisarmed hidle
  have hwait : Awaiting id d s := ⟨hinv, hf, hlow, hhigh, hon, hcount, hinactive, halone, hdisarmed, hidle⟩
  constructor
  · intro n hn
    obtain ⟨t, ht, hstill⟩ := hwait.times_tick hn
    exact ⟨t, ht, hstill.inactive, hstill.line, hstill.count⟩
  · obtain ⟨n, hn⟩ : ∃ n, d.toNat = n + 1 := ⟨d.toNat - 1, by omega⟩
    obtain ⟨t, ht, hlast⟩ := hwait.times_tick (n := n) (by omega)
    rw [hn, Nat.add_sub_cancel_left] at hlast
    refine ⟨_, by rw [hn, times, ht]; exact hlast.exec_tick, hlast.begun.onTick_delivers⟩

end Sys2Proof.Machine
end

section
/-! PROOF. What a step can do to a set `triggered` flag (42_timers R117, R121). -/

namespace Sys2Proof.Machine

open Sys2Proof.Claims

/-- What a slot is after one slot, perhaps another, is stored. -/
theorem setOc_getElem? {s : State} {d : Domain} {k : Nat} {o : OutputCompare} (ho : (s.oc.get d)[k]? = some o)
    (e : Domain) (j : Nat) (x : OutputCompare) :
    ((s.setOc e j x).oc.get d)[k]? = some (if d = e ∧ k = j then x else o) := by
  rw [State.setOc_oc]
  by_cases hd : d = e
  · subst hd
    rw [PerDomain_get_set_same]
    by_cases hk : k = j
    · subst hk
      rw [List.getElem?_set_self (List.getElem?_eq_some_iff.1 ho).1, if_pos ⟨rfl, rfl⟩]
    · rw [List.getElem?_set_ne (Ne.symm hk), ho, if_neg fun h => hk h.2]
  · rw [PerDomain_get_set_other _ _ _ _ hd, ho, if_neg fun h => hd h.1]

/-- A tick marks the slot if its compare equals the advanced clock, and changes no slot otherwise (R116). -/
theorem TickMoves.slot {s t : State} (h : TickMoves s t) {d : Domain} {k : Nat} {o : OutputCompare}
    (ho : (s.oc.get d)[k]? = some o) :
    (t.oc.get d)[k]? = some (if fires (t.clk.get d) o then { o with triggered := true } else o) := by
  rw [h.oc d, List.getElem?_map, ho, h.clk]
  cases d <;> rfl

section

variable {op : Instr} {s t u : State} {d : Domain} {k : Nat} {o : OutputCompare}
  (ho : (s.oc.get d)[k]? = some o) (hset : o.triggered = true)
include ho hset

/-- Arming keeps the flag of its slot, a STATUS write clears the flag of its slot alone, and no other unit is a slot. -/
theorem UnitChange.triggered (h : UnitChange op s u) :
    ∃ o', (u.oc.get d)[k]? = some o' ∧ (o'.triggered = true ∨ ∃ wv, op = .ocClear d k wv) := by
  cases h with
  | arm e j wv x hop hslot =>
    refine ⟨_, setOc_getElem? ho e j _, .inl ?_⟩
    split_ifs with hsame
    · obtain ⟨rfl, rfl⟩ := hsame
      rw [ho] at hslot
      cases hslot
      exact hset
    · exact hset
  | clear e j wv x hop hslot =>
    refine ⟨_, setOc_getElem? ho e j _, ?_⟩
    split_ifs with hsame
    · obtain ⟨rfl, rfl⟩ := hsame
      exact .inr ⟨wv, hop⟩
    · exact .inl hset
  | copy c wv x u hop hcopy => rw [sdmaCopy_ram hcopy]; exact ⟨o, ho, .inl hset⟩
  | _ => exact ⟨o, ho, .inl hset⟩

theorem RegisterEffect.triggered (h : RegisterEffect op s t) :
    ∃ o', (t.oc.get d)[k]? = some o' ∧ (o'.triggered = true ∨ ∃ wv, op = .ocClear d k wv) := by
  cases h with
  | acknowledged hop r ht => rw [ht, acknowledge_eq]; exact ⟨o, ho, .inl hset⟩
  | changed u v r hunit hintc ht =>
    have hoc : t.oc = u.oc := by rw [ht]; exact hintc.oc
    rw [hoc]
    exact hunit.triggered ho hset

theorem TickMoves.triggered (h : TickMoves s t) : ∃ o', (t.oc.get d)[k]? = some o' ∧ o'.triggered = true := by
  refine ⟨_, h.slot ho, ?_⟩
  split_ifs
  · rfl
  · exact hset

end

/-- Settles O16: an access clears the flag only as the STATUS write its command selects, a tick sets flags, and a fault
changes none. -/
theorem onlyAStatusWriteClearsTriggered : Obligations.OnlyAStatusWriteClearsTriggered := by
  intro s t w rest hinbox h d k o ho hset
  cases step_effect hinbox h with
  | access mode size a v hbus hok =>
    obtain ⟨o', ho', hkept⟩ := (access_effect hok).triggered (s := s.underway rest) ho hset
    exact ⟨o', ho', hkept.imp_right fun ⟨wv, hop⟩ => ⟨wv, hop ▸ selects_resolve (c := s.cfg) hbus⟩⟩
  | tick htick hok =>
    obtain ⟨o', ho', hset'⟩ := (onTick_moves hok).triggered (s := s.underway rest) ho hset
    exact ⟨o', ho', .inl hset'⟩
  | faulted code ht => rw [ht]; exact ⟨o, ho, .inl hset⟩

end Sys2Proof.Machine
end

section
/-! PROOF. The clocks and the countdown timers (42_timers R100 to R111), and the reads and the STATUS write of the
output-compare slots (R114, R115, R117). -/

namespace Sys2Proof.Machine

open Sys2Proof.Claims

/-! ### The registers (42_timers R101 to R109, R114, R115, R117) -/

/-- R115: the two flags sit in bits of their own, so the word is their sum. -/
theorem ocStatusWord_eq (o : OutputCompare) : ocStatusWord o =
    BitVec.ofNat 32 ((if o.triggered = true then 1 else 0) + (if o.active = true then 2 else 0)) := by
  unfold ocStatusWord
  cases o.triggered <;> cases o.active <;> rfl

/-! An operation on a slot that exists is its effect on the slot. -/

section

variable {i : Instr} {k : Nat} {s u : State} (hf : s.fault = none)
include hf

theorem exec_withCt {t : Countdown} {f : Countdown → State → Res} (ht : s.ct[k]? = some t) (hi : meaning i = withCt k f)
    (h : f t s.begun = .ok u) : exec i s = .next u :=
  exec_ok hf (by rw [hi, withCt_some (s := s.begun) ht, h])

theorem exec_withOc {d : Domain} {o : OutputCompare} {f : OutputCompare → State → Res} (ho : (s.oc.get d)[k]? = some o)
    (hi : meaning i = withOc d k f) (h : f o s.begun = .ok u) : exec i s = .next u :=
  exec_ok hf (by rw [hi, withOc_some (s := s.begun) ho, h])

end

/-- Settles O39: each read looks its slot up and answers the field. -/
theorem timerReadsReturnTheirFields : Obligations.TimerReadsReturnTheirFields := by
  refine fun s hf => ⟨fun d => exec_ok hf rfl, fun k t ht => ⟨?_, ?_, ?_⟩, fun d k o ho => ⟨?_, ?_⟩⟩
  · exact exec_withCt hf ht rfl rfl
  · exact exec_withCt hf ht rfl rfl
  · exact exec_withCt hf ht rfl rfl
  · exact exec_withOc hf ho rfl rfl
  · rw [← ocStatusWord_eq]
    exact exec_withOc hf ho rfl rfl

/-- Settles O42: each write looks its slot up and stores it with the one field changed. -/
theorem reloadAndStatusWrites : Obligations.ReloadAndStatusWrites := fun _ _ hf =>
  ⟨fun _ _ ht => exec_withCt hf ht rfl rfl, fun _ _ _ ho => exec_withOc hf ho rfl rfl⟩

/-! ### Start and stop (42_timers R103 to R105) -/

theorem getLsbD_zero_iff (v : U32) : v.getLsbD 0 = true ↔ v.toNat % 2 = 1 := by
  rw [BitVec.getLsbD, Nat.testBit_zero, decide_eq_true_iff]

/-- R103: bit 0 of CTRL chooses between start and stop. -/
theorem exec_ctCtrlW_start {wv : U32} (h : wv.toNat % 2 = 1) (k : Nat) (s : State) :
    exec (.ctCtrlW k wv) s = exec (.start k) s := perform_congr (if_pos ((getLsbD_zero_iff wv).2 h))

theorem exec_ctCtrlW_stop {wv : U32} (h : wv.toNat % 2 = 0) (k : Nat) (s : State) :
    exec (.ctCtrlW k wv) s = exec (.stop k) s :=
  perform_congr (if_neg fun hbit => by have := (getLsbD_zero_iff wv).1 hbit; omega)

theorem ushiftRight_eq_ofNat (v : U32) (n : Nat) : v >>> n = BitVec.ofNat 32 (v.toNat / 2 ^ n) := by
  apply BitVec.eq_of_toNat_eq
  have hlt : v.toNat / 2 ^ n < 2 ^ 32 := (Nat.div_le_self _ _).trans_lt v.isLt
  rw [BitVec.toNat_ushiftRight, Nat.shiftRight_eq_div_pow, BitVec.toNat_ofNat, Nat.mod_eq_of_lt hlt]

theorem startCt_plain {k : Nat} {t : Countdown} {s : State} (ht : s.ct[k]? = some t) (hk : k ≠ s.cfg.sysTimerSlot) :
    startCt k s = .ok (s.setCt k { t with enabled := true }) := by
  rw [startCt, withCt_some ht, if_neg hk]

/-- R104: the start of the system slot is a trigger of the periodic id, with the slot enabled. -/
theorem startCt_system {k : Nat} {t : Countdown} {s : State} (ht : s.ct[k]? = some t) (hk : k = s.cfg.sysTimerSlot)
    (hlow : 1 ≤ s.cfg.periodicIrq) (hhigh : s.cfg.periodicIrq < s.cfg.nIrq) :
    startCt k s = .ok (afterTrigger s.cfg.periodicIrq (BitVec.ofNat 32 (t.reload.toNat / 2 ^ s.cfg.periodShift))
      (s.setCt k { t with enabled := true })) := by
  rw [startCt, withCt_some ht, if_pos hk, ushiftRight_eq_ofNat]
  exact trigger_eq_afterTrigger (s := s.setCt k _) (Nat.one_le_iff_ne_zero.1 hlow) (Nat.not_le.2 hhigh) _

/-- Settles O40: an odd CTRL write is a start, which triggers the periodic id for the system slot alone. -/
theorem startEnablesTheSlot : Obligations.StartEnablesTheSlot := by
  intro s k t i hf ht hi
  have hstart : exec i s = exec (.start k) s := by
    rcases hi with rfl | ⟨wv, hodd, rfl⟩
    · rfl
    · exact exec_ctCtrlW_start hodd k s
  rw [hstart]
  refine ⟨fun hk => exec_ok hf (startCt_plain (s := s.begun) ht hk), fun hk hlow hhigh => exec_ok hf ?_⟩
  exact (startCt_system (s := s.begun) ht hk hlow hhigh).trans
    (congrArg Except.ok (afterTrigger_begun _ _ (s.setCt k _)))

/-- Settles O41: an even CTRL write is a stop, which stores the slot alone. -/
theorem stopZeroesTheSlot : Obligations.StopZeroesTheSlot := by
  intro s k t i hf ht hi
  have hstop : exec i s = exec (.stop k) s := by
    rcases hi with rfl | ⟨wv, heven, rfl⟩
    · rfl
    · exact exec_ctCtrlW_stop heven k s
  rw [hstop]
  exact exec_withCt hf ht rfl rfl

/-! ### The step of a tick (42_timers R100, R110, 44_tick_driver R142) -/

/-- R110: the step of a slot, in numbers. -/
theorem countdownNext_eq (step : U32) (t : Countdown) : countdownNext step t = ticked step t := by
  unfold countdownNext ticked
  have hadd : t.current + step = BitVec.ofNat 32 ((t.current.toNat + step.toNat) % 2 ^ 32) := by
    apply BitVec.eq_of_toNat_eq
    rw [BitVec.toNat_add, BitVec.toNat_ofNat, Nat.mod_mod]
  have hlt : t.reload < t.current + step ↔ (t.current.toNat + step.toNat) % 2 ^ 32 > t.reload.toNat := by
    rw [BitVec.lt_def, BitVec.toNat_add]
  rw [if_congr hlt rfl hadd]

theorem exec_countdownStep {s : State} (hf : s.fault = none) :
    exec .countdownStep s = .next (silent { s with ct := s.ct.map (ticked s.cfg.ctStep) }) := by
  rw [← funext (countdownNext_eq s.cfg.ctStep)]
  exact exec_ok hf rfl

/-- Settles O38: each of the three operations stores its own field, and the re-arm none. -/
theorem clocksAndCountdownsStep : Obligations.ClocksAndCountdownsStep :=
  fun _ hf => ⟨exec_ok hf rfl, exec_countdownStep hf, exec_ok hf rfl⟩

theorem times_succ {i : Instr} {n : Nat} {s t : State} (h : times i n s = .next t) : times i (n + 1) s = exec i t := by
  rw [times, h]

/-! ### The sequence of a countdown (42_timers R111) -/

/-- R111: below the last multiple of the step that the reload value holds, a step adds; at it, the step resets. -/
theorem ticked_multiple {step : U32} {t : Countdown} {i : Nat} (hon : t.enabled = true) (hstep : 1 ≤ step.toNat)
    (hi : i ≤ t.reload.toNat / step.toNat) (hwrap : (t.reload.toNat / step.toNat + 1) * step.toNat < 2 ^ 32) :
    ticked step { t with current := BitVec.ofNat 32 (i * step.toNat) } =
      { t with current := BitVec.ofNat 32 ((i + 1) % (t.reload.toNat / step.toNat + 1) * step.toNat) } := by
  have hnext : (i + 1) * step.toNat < 2 ^ 32 := (Nat.mul_le_mul_right _ (by omega)).trans_lt hwrap
  have hsum : ((BitVec.ofNat 32 (i * step.toNat)).toNat + step.toNat) % 2 ^ 32 = (i + 1) * step.toNat := by
    rw [BitVec.toNat_ofNat, Nat.mod_add_mod, ← Nat.succ_mul, Nat.mod_eq_of_lt hnext]
  rw [ticked, if_pos hon]
  dsimp only
  rw [hsum]
  by_cases hlast : i = t.reload.toNat / step.toNat
  · have hover : (i + 1) * step.toNat > t.reload.toNat := by
      rw [hlast, Nat.mul_comm]; exact Nat.lt_mul_div_succ _ hstep
    rw [if_pos hover, ← hlast, Nat.mod_self, Nat.zero_mul]
    rfl
  · have hwithin : (i + 1) * step.toNat ≤ t.reload.toNat := (Nat.le_div_iff_mul_le hstep).1 (by omega)
    rw [if_neg (Nat.not_lt.2 hwithin), Nat.mod_eq_of_lt (by omega : i + 1 < _)]

/-- Steps of the countdowns, run on their own, iterate the step of a slot and keep the configuration. -/
theorem times_countdownStep {s : State} {k : Nat} {t : Countdown} (hf : s.fault = none) (ht : s.ct[k]? = some t)
    (n : Nat) : ∃ u, times .countdownStep n s = .next u ∧ u.fault = none ∧ u.cfg = s.cfg ∧
      u.ct[k]? = some ((ticked s.cfg.ctStep)^[n] t) := by
  induction n with
  | zero => exact ⟨s, rfl, hf, rfl, ht⟩
  | succ n ih =>
    obtain ⟨u, hu, huf, hcfg, hslot⟩ := ih
    refine ⟨_, (times_succ hu).trans (exec_countdownStep huf), huf, hcfg, ?_⟩
    show (u.ct.map (ticked u.cfg.ctStep))[k]? = _
    rw [List.getElem?_map, hslot, hcfg, Function.iterate_succ_apply']
    rfl

/-- R111: the value after `n` steps from 0. -/
theorem ticked_iterate {step : U32} {t : Countdown} (hon : t.enabled = true) (hzero : t.current = 0)
    (hstep : 1 ≤ step.toNat) (hwrap : (t.reload.toNat / step.toNat + 1) * step.toNat < 2 ^ 32) (n : Nat) :
    (ticked step)^[n] t =
      { t with current := BitVec.ofNat 32 (n % (t.reload.toNat / step.toNat + 1) * step.toNat) } := by
  induction n with
  | zero =>
    rw [Nat.zero_mod, Nat.zero_mul]
    exact congrArg (fun v => { t with current := v }) hzero
  | succ n ih =>
    have hle : n % (t.reload.toNat / step.toNat + 1) ≤ t.reload.toNat / step.toNat :=
      Nat.le_of_lt_succ (Nat.mod_lt _ (Nat.succ_pos _))
    rw [Function.iterate_succ_apply', ih, ticked_multiple hon hstep hle hwrap, Nat.mod_add_mod]

/-- Settles O43: the slot goes through the iterates of its step. -/
theorem countdownSequence : Obligations.CountdownSequence := by
  intro s k n t hf ht hon hzero hstep S m hwrap
  obtain ⟨u, hu, -, -, hslot⟩ := times_countdownStep hf ht n
  exact ⟨u, hu, by rw [hslot, ticked_iterate hon hzero hstep hwrap]⟩

end Sys2Proof.Machine
end

section
/-! PROOF. Arming an output-compare slot (42_timers R113), and the tick that finds it at its clock (R116, R119,
R120). -/

namespace Sys2Proof.Machine

open Sys2Proof.Claims

/-! ### The match (42_timers R116) -/

theorem fires_iff {clk : U32} {o : OutputCompare} : fires clk o = true ↔ o.active = true ∧ o.compare = clk := by
  rw [fires, Bool.and_eq_true, beq_iff_eq]

/-- Settles O47: each family is mapped by its own clock. -/
theorem checkMarksTheMatchingSlots : Obligations.CheckMarksTheMatchingSlots := by
  refine fun s hf => ⟨(ocCheck s.begun).oc, exec_ok hf (by rw [meaning, ocCheck_eq]; rfl), fun d => ?_⟩
  simp only [← fires_iff]
  cases d <;> rfl

/-! ### The armed compare (42_timers R113) -/

/-- The distance is the way from the clock up to the target, modulo 2^width. -/
theorem clock_add_distance {c : Config} {d : Domain} {clk : U32} {target : Nat} (hclk : clk.toNat < 2 ^ c.width.get d)
    (ht : target < 2 ^ c.width.get d) : (clk.toNat + clockDistance c d clk target) % 2 ^ c.width.get d = target := by
  rw [clockDistance, Nat.mod_eq_of_lt hclk, Nat.add_mod_mod, Nat.add_sub_cancel' (by omega), Nat.add_mod_right,
    Nat.mod_eq_of_lt ht]

theorem clockDistance_lt (c : Config) (d : Domain) (clk : U32) (target : Nat) :
    clockDistance c d clk target < 2 ^ c.width.get d := Nat.mod_lt _ (Nat.two_pow_pos _)

/-- A clock and a target on the step are a multiple of the step apart. -/
theorem dvd_clockDistance {c : Config} {d : Domain} {clk : U32} {target : Nat} (hd : c.domainOk d = true)
    (hclk : ClockOk c d clk) (ht : target % (c.clkStep.get d).toNat = 0) :
    (c.clkStep.get d).toNat ∣ clockDistance c d clk target := by
  obtain ⟨hdvd, -, -⟩ := Config.step_dvd hd
  rw [clockDistance, Nat.mod_eq_of_lt hclk.below, Nat.dvd_mod_iff hdvd]
  exact Nat.dvd_sub (Nat.dvd_add (Nat.dvd_of_mod_eq_zero ht) hdvd) (Nat.dvd_of_mod_eq_zero hclk.aligned)

section

variable {s : State} {d : Domain} (hd : s.cfg.domainOk d = true)
include hd

/-- R113: rounding in integers is rounding in naturals. -/
theorem rounded_eq (v : U32) : rounded s d v = (roundUp s.cfg d v : Int) := by
  obtain ⟨-, hstep, -⟩ := Config.step_dvd hd
  rw [rounded, roundUp, Int.natCast_emod, Int.natCast_mul, Int.natCast_ediv,
    Int.natCast_sub (show 1 ≤ v.toNat + (s.cfg.clkStep.get d).toNat by omega)]
  push_cast
  rfl

variable (hclk : ClockOk s.cfg d (s.clk.get d))
include hclk

/-- R113: the signed distance is the unsigned one, read as a signed number of the clock's width. -/
theorem armDelta_eq (v : U32) : armDelta s d v =
    if clockDistance s.cfg d (s.clk.get d) (roundUp s.cfg d v) < 2 ^ (s.cfg.width.get d - 1) then
      (clockDistance s.cfg d (s.clk.get d) (roundUp s.cfg d v) : Int)
    else clockDistance s.cfg d (s.clk.get d) (roundUp s.cfg d v) - 2 ^ s.cfg.width.get d := by
  have hbelow := hclk.below
  have hdist : (rounded s d v - (s.clk.get d).toNat) % (2 ^ s.cfg.width.get d : Int) =
      (clockDistance s.cfg d (s.clk.get d) (roundUp s.cfg d v) : Int) := by
    rw [rounded_eq hd, clockDistance, Nat.mod_eq_of_lt hbelow, Int.natCast_emod, Int.natCast_sub (by omega),
      Int.natCast_add, Int.natCast_pow, add_sub_right_comm]
    exact (Int.add_emod_right _ _).symm
  rw [armDelta, hdist]
  exact if_congr (by norm_cast) rfl rfl

/-- R113: the model snaps exactly when the signed distance is negative. -/
theorem armDelta_neg_iff (v : U32) :
    armDelta s d v < 0 ↔ isBehind s.cfg d (s.clk.get d) (roundUp s.cfg d v) = true := by
  have hlt : (clockDistance s.cfg d (s.clk.get d) (roundUp s.cfg d v) : Int) < 2 ^ s.cfg.width.get d := by
    exact_mod_cast clockDistance_lt s.cfg d (s.clk.get d) (roundUp s.cfg d v)
  rw [armDelta_eq hd hclk, isBehind, decide_eq_true_iff]
  split_ifs <;> omega

/-- A target that is not behind is its unsigned distance ahead. -/
theorem armDelta_eq_distance {v : U32} (h : 0 ≤ armDelta s d v) :
    armDelta s d v = clockDistance s.cfg d (s.clk.get d) (roundUp s.cfg d v) := by
  have hahead := (armDelta_neg_iff hd hclk v).not.1 (Int.not_lt.2 h)
  rw [isBehind, decide_eq_true_iff, Nat.not_le] at hahead
  rw [armDelta_eq hd hclk, if_pos hahead]

theorem armedCompare_eq (v : U32) : armedCompare s.cfg d (s.clk.get d) v =
    if armDelta s d v < 0 then advanced s d else BitVec.ofNat 32 (rounded s d v).toNat := by
  rw [rounded_eq hd, Int.toNat_natCast]
  exact if_congr (armDelta_neg_iff hd hclk v).symm rfl rfl

end

theorem setOc_getElem?_self {s : State} {d : Domain} {k : Nat} {o : OutputCompare} (ho : (s.oc.get d)[k]? = some o)
    (x : OutputCompare) : ((s.setOc d k x).oc.get d)[k]? = some x := by
  rw [setOc_getElem? ho, if_pos ⟨rfl, rfl⟩]

/-- R113: arming, by either operation, stores the slot with its compare and `active`. -/
theorem exec_arm {s : State} {d : Domain} {k : Nat} {o : OutputCompare} {v : U32} {i : Instr} (hf : s.fault = none)
    (ho : (s.oc.get d)[k]? = some o) (hi : i = .setCompare d k v ∨ i = .ocArm d k v) :
    exec i s = .next (silent
      (s.setOc d k { o with compare := armedCompare s.cfg d (s.clk.get d) v, active := true })) := by
  rcases hi with rfl | rfl
  · exact exec_withOc hf ho rfl rfl
  · exact exec_withOc hf ho rfl rfl

/-- Settles O44: the slot is stored with `active` set and the compare that `armedCompare_eq` gives. -/
theorem armingSetsTheCompare : Obligations.ArmingSetsTheCompare := by
  intro s d k o v i hf hd hclk ho hi
  rw [exec_arm hf ho hi, armedCompare_eq hd hclk]
  rfl

/-- Settles O45: the snapped compare is the clock after the next tick, where the check marks the slot. -/
theorem snappedSlotFiresNextTick : Obligations.SnappedSlotFiresNextTick := by
  intro s t u d k o v hs hf ho hbehind harm htick hrun
  have hcompare := armedCompare_eq (Config.domainOk_of_wellFormed hs.cfgOk d) (hs.clockOk d) v
  rw [if_pos hbehind] at hcompare
  rw [exec_arm hf ho (.inr rfl), hcompare] at harm
  cases harm
  obtain ⟨-, hok | ⟨code, -, rfl⟩⟩ := exec_next.1 htick
  · have hmoves := onTick_moves hok
    have hclk : u.clk.get d = advanced s d := hmoves.advances d
    refine ⟨_, hmoves.slot (setOc_getElem?_self ho _), ?_⟩
    rw [if_pos (fires_iff.2 ⟨rfl, hclk.symm⟩)]
    exact ⟨rfl, hclk.symm, rfl⟩
  · rw [takeFault_fault] at hrun
    cases hrun

/-! ### A slot armed ahead of its clock (42_timers R120) -/

/-- With no channel busy every tick completes, and it starts none (R141). -/
theorem onTick_completes_of_idle {s : State} (hs : s.Inv) (hidle : Idle s) : ∃ t, onTick s = .ok t ∧ Idle t := by
  have hcfg : (tickEngines s).cfg = s.cfg := (tickEngines_intc s).cfg
  obtain ⟨a, ha⟩ := ocRaise_completes (s := tickEngines s) (by rw [hcfg]; exact Config.ocIds_of_wellFormed hs.cfgOk)
  have hpdma : a.pdma = s.pdma := (ocRaise_moves ha).pdma.trans (tickEngines_pdma s)
  have hpolled : pdmaStep a = .ok a := pdmaStep_idle
    (by rw [hpdma, (ocRaise_moves ha).cfg, hcfg, hs.pdmaLength]) (by rw [hpdma]; exact hidle)
  exact ⟨a.countTick, onTick_ok.2 ⟨a, a, ha, hpolled, rfl⟩, fun p hp => hidle p (hpdma ▸ hp)⟩

/-- R120: a clock that is `m` steps short of the compare, and less than a full wrap, does not match it. -/
theorem ne_of_steps_short {M S c x : Nat} (hx : (c + m * S) % M = x) (hc : c < M) (hpos : 0 < m * S) (hlt : m * S < M) :
    x ≠ c := by
  rintro rfl
  have hzero : (x + m * S) ≡ (x + 0) [MOD M] := hx.trans (Nat.mod_eq_of_lt hc).symm
  have hmod := Nat.ModEq.add_left_cancel' x hzero
  rw [Nat.ModEq, Nat.mod_eq_of_lt hlt, Nat.zero_mod] at hmod
  omega

/-- R120: slot `(d, k)` is armed, has not fired, and its compare is `m` steps of the clock ahead, at most a full wrap;
no channel is busy, so nothing stops the ticks. -/
structure ArmedAhead (d : Domain) (k m : Nat) (s : State) : Prop where
  inv : s.Inv
  running : s.fault = none
  idle : Idle s
  slot : ∃ o, (s.oc.get d)[k]? = some o ∧ o.active = true ∧ o.triggered = false ∧
    ((s.clk.get d).toNat + m * (s.cfg.clkStep.get d).toNat) % 2 ^ s.cfg.width.get d = o.compare.toNat
  pos : 1 ≤ m
  within : m * (s.cfg.clkStep.get d).toNat ≤ 2 ^ s.cfg.width.get d

namespace ArmedAhead

variable {d : Domain} {k m : Nat} {s : State}

/-- A tick completes, and the clock it leaves is one step nearer to the compare. -/
theorem exec_tick (h : ArmedAhead d k m s) : ∃ u, exec .tick s = .next u ∧ TickMoves s.begun u ∧ u.Inv ∧ Idle u ∧
    (u.clk.get d).toNat = ((s.clk.get d).toNat + (s.cfg.clkStep.get d).toNat) % 2 ^ s.cfg.width.get d := by
  have hinv : s.begun.Inv := { h.inv with }
  obtain ⟨u, hu, hidle⟩ := onTick_completes_of_idle hinv h.idle
  have hmoves := onTick_moves hu
  refine ⟨u, exec_ok h.running hu, hmoves, onTick_inv hinv hu, hidle, ?_⟩
  rw [hmoves.advances d]
  exact (clockNext_ok (Config.domainOk_of_wellFormed h.inv.cfgOk d) _ (h.inv.clockOk d).aligned).1

theorem tick (h : ArmedAhead d k (m + 1) s) (hm : 1 ≤ m) : ∃ u, exec .tick s = .next u ∧ ArmedAhead d k m u := by
  obtain ⟨u, hu, hmoves, hinv, hidle, hclk⟩ := h.exec_tick
  obtain ⟨o, ho, hactive, hclear, hcompare⟩ := h.slot
  have hcfg : u.cfg = s.cfg := hmoves.cfg
  obtain ⟨-, hstep, -⟩ := Config.step_dvd (Config.domainOk_of_wellFormed h.inv.cfgOk d)
  have hwithin := h.within
  rw [Nat.add_one_mul] at hwithin hcompare
  have hnext : ((u.clk.get d).toNat + m * (s.cfg.clkStep.get d).toNat) % 2 ^ s.cfg.width.get d = o.compare.toNat := by
    rw [hclk, Nat.mod_add_mod, ← hcompare]
    congr 1
    omega
  have hbelow : (u.clk.get d).toNat < 2 ^ s.cfg.width.get d := hcfg ▸ (hinv.clockOk d).below
  have hno : ¬ fires (u.clk.get d) o = true := fun hfire =>
    ne_of_steps_short hnext hbelow (Nat.mul_pos hm hstep) (by omega) (congrArg BitVec.toNat (fires_iff.1 hfire).2)
  have hslot := hmoves.slot (s := s.begun) ho
  rw [if_neg hno] at hslot
  exact ⟨u, hu, hinv, hmoves.fault.trans h.running, hidle, ⟨o, hslot, hactive, hclear, by rw [hcfg]; exact hnext⟩, hm,
    by rw [hcfg]; omega⟩

theorem tick_fires (h : ArmedAhead d k 1 s) : ∃ u o, exec .tick s = .next u ∧ (u.oc.get d)[k]? = some o ∧
    o.triggered = true := by
  obtain ⟨u, hu, hmoves, -, -, hclk⟩ := h.exec_tick
  obtain ⟨o, ho, hactive, -, hcompare⟩ := h.slot
  rw [Nat.one_mul, ← hclk] at hcompare
  have hfire : fires (u.clk.get d) o = true := fires_iff.2 ⟨hactive, BitVec.eq_of_toNat_eq hcompare.symm⟩
  exact ⟨u, _, hu, hmoves.slot (s := s.begun) ho, by rw [if_pos hfire]⟩

/-- After `j` ticks of `j + m` the slot is still `m` steps ahead. -/
theorem times_tick {j : Nat} (h : ArmedAhead d k (j + m) s) (hm : 1 ≤ m) :
    ∃ u, times .tick j s = .next u ∧ ArmedAhead d k m u := by
  induction j generalizing m with
  | zero => exact ⟨s, rfl, by rwa [Nat.zero_add] at h⟩
  | succ j ih =>
    obtain ⟨t, ht, hahead⟩ := ih (m := m + 1) (by rwa [← Nat.add_assoc, Nat.add_right_comm]) (by omega)
    obtain ⟨u, hu, hnext⟩ := hahead.tick hm
    exact ⟨u, (times_succ ht).trans hu, hnext⟩

/-- R120: the slot does not fire in the first `m - 1` ticks, and fires in the `m`-th. -/
theorem fires_after (h : ArmedAhead d k m s) :
    (∀ j, j < m → ∃ u o, times .tick j s = .next u ∧ (u.oc.get d)[k]? = some o ∧ o.triggered = false) ∧
      ∃ u o, times .tick m s = .next u ∧ (u.oc.get d)[k]? = some o ∧ o.triggered = true := by
  constructor
  · intro j hj
    obtain ⟨r, rfl⟩ := Nat.exists_eq_add_of_lt hj
    obtain ⟨u, hu, hstill⟩ := h.times_tick (m := r + 1) (by omega)
    obtain ⟨o, ho, -, hclear, -⟩ := hstill.slot
    exact ⟨u, o, hu, ho, hclear⟩
  · obtain ⟨j, rfl⟩ := Nat.exists_eq_add_of_le' h.pos
    obtain ⟨u, hu, hlast⟩ := h.times_tick le_rfl
    obtain ⟨w, o, hw, ho, hset⟩ := hlast.tick_fires
    exact ⟨w, o, (times_succ hu).trans hw, ho, hset⟩

end ArmedAhead

/-- R120: the number of steps from an arm to the first match. -/
theorem steps_to_match {c : Config} {d : Domain} {clk : U32} {target n : Nat} (hd : c.domainOk d = true)
    (hclk : ClockOk c d clk) (hlt : target < 2 ^ c.width.get d) (ht : target % (c.clkStep.get d).toNat = 0)
    (hn : n = if clockDistance c d clk target = 0 then 2 ^ c.width.get d / (c.clkStep.get d).toNat
      else clockDistance c d clk target / (c.clkStep.get d).toNat) :
    1 ≤ n ∧ n * (c.clkStep.get d).toNat ≤ 2 ^ c.width.get d ∧
      (clk.toNat + n * (c.clkStep.get d).toNat) % 2 ^ c.width.get d = target := by
  obtain ⟨hdvd, hstep, -⟩ := Config.step_dvd hd
  have hreach := clock_add_distance hclk.below hlt
  have hmul := dvd_clockDistance hd hclk ht
  by_cases hzero : clockDistance c d clk target = 0
  · rw [if_pos hzero] at hn
    rw [hzero] at hreach
    rw [hn, Nat.div_mul_cancel hdvd, Nat.add_mod_right]
    exact ⟨Nat.div_pos (Nat.le_of_dvd (Nat.two_pow_pos _) hdvd) hstep, le_rfl, hreach⟩
  · rw [if_neg hzero] at hn
    rw [hn, Nat.div_mul_cancel hmul]
    exact ⟨Nat.div_pos (Nat.le_of_dvd (Nat.pos_of_ne_zero hzero) hmul) hstep, (clockDistance_lt _ _ _ _).le, hreach⟩

/-- An arm at or ahead of the clock leaves the slot its distance ahead, and a full wrap for distance 0. -/
theorem armedAhead_of_arm {s : State} {d : Domain} {k n : Nat} {o : OutputCompare} {v : U32} (hs : s.Inv)
    (hf : s.fault = none) (hidle : Idle s) (ho : (s.oc.get d)[k]? = some o) (hclear : o.triggered = false)
    (hahead : 0 ≤ armDelta s d v)
    (hn : n = if armDelta s d v = 0 then 2 ^ s.cfg.width.get d / (s.cfg.clkStep.get d).toNat
      else (armDelta s d v).toNat / (s.cfg.clkStep.get d).toNat) :
    ArmedAhead d k n (silent
      (s.setOc d k { o with compare := armedCompare s.cfg d (s.clk.get d) v, active := true })) := by
  have hd := Config.domainOk_of_wellFormed hs.cfgOk d
  have hclk := hs.clockOk d
  obtain ⟨hlt, haligned⟩ := roundUp_ok hd v
  rw [armDelta_eq_distance hd hclk hahead, Int.toNat_natCast] at hn
  obtain ⟨hpos, hwithin, hmatch⟩ := steps_to_match hd hclk hlt haligned
    (hn.trans (if_congr Int.natCast_eq_zero rfl rfl))
  have hcompare : (armedCompare s.cfg d (s.clk.get d) v).toNat = roundUp s.cfg d v := by
    rw [armedCompare, if_neg ((armDelta_neg_iff hd hclk v).not.1 (Int.not_lt.2 hahead)), BitVec.toNat_ofNat,
      Nat.mod_eq_of_lt (hlt.trans_le (Config.step_dvd hd).2.2)]
  exact {
    inv := { setOc_inv hs d k (o := { o with compare := _, active := true }) (armedCompare_lt hd _ v) with }
    running := hf
    idle := hidle
    slot := ⟨_, setOc_getElem?_self ho _, rfl, hclear, hmatch.trans hcompare.symm⟩
    pos := hpos
    within := hwithin }

/-- Settles O46: the arm leaves the slot `n` steps ahead of its clock, and each tick takes one of them. -/
theorem armedSlotFiresAfterItsDelta : Obligations.ArmedSlotFiresAfterItsDelta := by
  intro s t d k o v hs hf hidle ho hclear hahead harm S n
  rw [exec_arm hf ho (.inr rfl)] at harm
  cases harm
  exact (armedAhead_of_arm hs hf hidle ho hclear hahead rfl).fires_after

end Sys2Proof.Machine
end

section
/-! PROOF. The raise of the output-compare families (42_timers R118): one trigger for each firing id, and what these
triggers leave of the Interrupt Controller. -/

namespace Sys2Proof.Machine

open Sys2Proof.Claims

/-! ### A trigger with delay 0 (41_interrupt_controller R89) -/

/-- R89: what a trigger with delay 0 can have done: activated its id, or set its count to 1. -/
theorem afterTrigger_zero (id : Nat) (s : State) :
    (s.activeId = 0 ∧ afterTrigger id 0 s = afterActivate id s) ∨
      afterTrigger id 0 s = { s with scheduled := s.scheduled.set id 1 } := by
  unfold afterTrigger
  split_ifs with hready
  · exact .inl ⟨hready.2.2, rfl⟩
  · exact .inr rfl
  · exact .inr rfl

/-- R118: an id that has been raised: it is active, or its count is 1. -/
def Raised (id : Nat) (s : State) : Prop := s.activeId = id ∨ s.scheduledAt id = 1

/-! ### The raises, one after another -/

theorem raisedAll_cons (j : Nat) (l : List Nat) (s : State) :
    raisedAll (j :: l) s = raisedAll l (afterTrigger j 0 s) := rfl

theorem raisedAll_append (l m : List Nat) (s : State) : raisedAll (l ++ m) s = raisedAll m (raisedAll l s) :=
  List.foldl_append

theorem raisedAll_begun (l : List Nat) (s : State) : raisedAll l s.begun = (raisedAll l s).begun := by
  induction l generalizing s with
  | nil => rfl
  | cons j l ih => rw [raisedAll_cons, raisedAll_cons, afterTrigger_begun, ih]

/-- Every id of the list has state (R87). -/
def HaveState (l : List Nat) (s : State) : Prop := ∀ id ∈ l, 1 ≤ id ∧ id < s.cfg.nIrq

theorem afterTrigger_moves {id : Nat} {s : State} (hlow : 1 ≤ id) (hhigh : id < s.cfg.nIrq) :
    IntcMoves s (afterTrigger id 0 s) :=
  trigger_moves (trigger_eq_afterTrigger (Nat.one_le_iff_ne_zero.1 hlow) (Nat.not_le.2 hhigh) 0)

theorem HaveState.tail {j : Nat} {l : List Nat} {s : State} (h : HaveState (j :: l) s) :
    HaveState l (afterTrigger j 0 s) := fun id hid => by
  obtain ⟨hlow, hhigh⟩ := h j List.mem_cons_self
  rw [(afterTrigger_moves hlow hhigh).cfg]
  exact h id (List.mem_cons_of_mem j hid)

theorem raisedAll_moves {l : List Nat} {s : State} (h : HaveState l s) : IntcMoves s (raisedAll l s) := by
  induction l generalizing s with
  | nil => exact .refl s
  | cons j l ih =>
    obtain ⟨hlow, hhigh⟩ := h j List.mem_cons_self
    exact (afterTrigger_moves hlow hhigh).trans (ih h.tail)

/-- R95: beside an active interrupt a raise masks nothing. -/
theorem raisedAll_enabled {l : List Nat} {s : State} (h : HaveState l s) (hactive : s.activeId ≠ 0) :
    (raisedAll l s).enabled = s.enabled := by
  induction l generalizing s with
  | nil => rfl
  | cons j l ih =>
    obtain ⟨hlow, hhigh⟩ := h j List.mem_cons_self
    have hkept : (afterTrigger j 0 s).activeId ≠ 0 := by
      rwa [(afterTrigger_moves hlow hhigh).single hactive]
    rw [raisedAll_cons, ih h.tail hkept]
    rcases afterTrigger_zero j s with ⟨hidle, -⟩ | heq
    · exact absurd hidle hactive
    · rw [heq]

theorem afterTrigger_other {j id : Nat} (hne : id ≠ j) (s : State) :
    (afterTrigger j 0 s).scheduledAt id = s.scheduledAt id ∧ (afterTrigger j 0 s).isEnabled id = s.isEnabled id := by
  rcases afterTrigger_zero j s with ⟨-, heq⟩ | heq
  · rw [heq, scheduledAt_set s (afterActivate j s) j _ rfl, isEnabled_set s (afterActivate j s) j _ rfl]
    exact ⟨if_neg fun h => hne h.1, if_neg fun h => hne h.1⟩
  · rw [heq, scheduledAt_set s { s with scheduled := _ } j _ rfl]
    exact ⟨if_neg fun h => hne h.1, rfl⟩

/-- The raises touch no id but their own. -/
theorem raisedAll_other {l : List Nat} {id : Nat} (hid : id ∉ l) (s : State) :
    (raisedAll l s).scheduledAt id = s.scheduledAt id ∧ (raisedAll l s).isEnabled id = s.isEnabled id := by
  induction l generalizing s with
  | nil => exact ⟨rfl, rfl⟩
  | cons j l ih =>
    obtain ⟨hne, hnot⟩ := List.ne_and_not_mem_of_not_mem_cons hid
    obtain ⟨hcount, henabled⟩ := ih hnot (afterTrigger j 0 s)
    obtain ⟨hcount', henabled'⟩ := afterTrigger_other hne s
    exact ⟨hcount.trans hcount', henabled.trans henabled'⟩

theorem raised_afterTrigger {id : Nat} {s : State} (hlen : id < s.scheduled.length) :
    Raised id (afterTrigger id 0 s) := by
  rcases afterTrigger_zero id s with ⟨-, heq⟩ | heq
  · exact .inl (by rw [heq]; rfl)
  · refine .inr ?_
    rw [heq, scheduledAt_set s { s with scheduled := _ } id _ rfl, if_pos ⟨rfl, hlen⟩]

/-- A raised id stays raised through a trigger: an active one keeps its place, and a pending one its count. -/
theorem Raised.afterTrigger {id j : Nat} {s : State} (h : Raised id s) (hid : id ≠ 0)
    (hlen : id < s.scheduled.length) (hj : 1 ≤ j ∧ j < s.cfg.nIrq) : Raised id (afterTrigger j 0 s) := by
  by_cases hne : id = j
  · exact hne ▸ raised_afterTrigger hlen
  · rcases h with hactive | hcount
    · exact .inl (((afterTrigger_moves hj.1 hj.2).single (by rwa [hactive])).trans hactive)
    · exact .inr ((afterTrigger_other hne s).1.trans hcount)

theorem Raised.raisedAll {l : List Nat} {id : Nat} {s : State} (h : Raised id s) (hid : id ≠ 0)
    (hlen : id < s.scheduled.length) (hl : HaveState l s) : Raised id (raisedAll l s) := by
  induction l generalizing s with
  | nil => exact h
  | cons j l ih =>
    have hj := hl j List.mem_cons_self
    exact ih (h.afterTrigger hid hlen hj) (by rwa [(afterTrigger_moves hj.1 hj.2).scheduledLength]) hl.tail

/-- R118: every id of the list ends raised. -/
theorem raised_of_mem {l : List Nat} {id : Nat} {s : State} (hmem : id ∈ l) (hlen : id < s.scheduled.length)
    (hl : HaveState l s) : Raised id (raisedAll l s) := by
  induction l generalizing s with
  | nil => cases hmem
  | cons j l ih =>
    have hj := hl j List.mem_cons_self
    have hlen' : id < (afterTrigger j 0 s).scheduled.length := by
      rwa [(afterTrigger_moves hj.1 hj.2).scheduledLength]
    rcases List.mem_cons.1 hmem with rfl | hmem
    · exact (raised_afterTrigger hlen).raisedAll (Nat.one_le_iff_ne_zero.1 hj.1) hlen' hl.tail
    · exact ih hmem hlen' hl.tail

/-- R118: the id that the raises activate, requested once, keeps what its activation left. -/
theorem raisedAll_activates {l : List Nat} {id : Nat} {s : State} (hl : HaveState l s) (hid : id ≠ 0)
    (hcount : id < s.scheduled.length) (henabled : id < s.enabled.length) (hidle : s.activeId = 0)
    (hactive : (raisedAll l s).activeId = id) (honce : l.count id ≤ 1) :
    (raisedAll l s).scheduledAt id = (if id = s.cfg.periodicIrq then Claims.period s else 0) ∧
      (raisedAll l s).isEnabled id = false := by
  induction l generalizing s with
  | nil => exact absurd (hactive.symm.trans hidle) hid
  | cons j l ih =>
    have hj := hl j List.mem_cons_self
    have hmoves := afterTrigger_moves hj.1 hj.2
    rw [raisedAll_cons] at hactive ⊢
    by_cases hstill : (afterTrigger j 0 s).activeId = 0
    · have hrest := ih hl.tail (by rwa [hmoves.scheduledLength]) (by rwa [hmoves.enabledLength]) hstill hactive
        (List.count_le_count_cons.trans honce)
      rwa [hmoves.cfg, ← periodOf_eq, hmoves.period, periodOf_eq] at hrest
    · rcases afterTrigger_zero j s with ⟨-, heq⟩ | heq
      · have hsame : id = j := by
          rw [← hactive, (raisedAll_moves hl.tail).single hstill, heq]
          rfl
        subst hsame
        have hnot : id ∉ l := List.count_eq_zero.1 (by rw [List.count_cons_self] at honce; omega)
        obtain ⟨hcount', henabled'⟩ := raisedAll_other hnot (afterTrigger id 0 s)
        rw [hcount', henabled', heq, scheduledAt_set s (afterActivate id s) id _ rfl,
          isEnabled_set s (afterActivate id s) id _ rfl]
        exact ⟨if_pos ⟨rfl, hcount⟩, if_pos ⟨rfl, henabled⟩⟩
      · rw [heq] at hstill
        exact absurd hidle hstill

/-! ### The firing ids of a family (42_timers R116, R118) -/

theorem nodup_eraseDups (l : List Nat) : l.eraseDups.Nodup := by
  induction hn : l.length using Nat.strong_induction_on generalizing l with
  | _ n ih =>
    cases l with
    | nil => exact List.nodup_nil
    | cons a l =>
      rw [List.eraseDups_cons]
      have hshort : (l.filter fun b => !b == a).length < n := by
        rw [← hn]; exact Nat.lt_succ_of_le (List.length_filter_le _ _)
      exact List.nodup_cons.2 ⟨by simp, ih _ hshort _ rfl⟩

/-- The ids of a list of slots that fire, in the order of the slots. -/
def firedOf (l : List (Nat × Bool)) : List Nat := l.filterMap fun x => if x.2 = true then some x.1 else none

theorem firingOnce_eq (s : State) (d : Domain) : firingOnce s d = (firedOf (firingIds d s)).eraseDups := by
  rw [firingOnce, firedOf, firingIds, List.zip_map_right, List.filterMap_map]
  congr 2
  funext x
  exact if_congr fires_iff.symm rfl rfl

/-- R118: the raises of a family are one trigger for each id that fires and is not yet done, in their order. -/
theorem raiseIds_eq {l : List (Nat × Bool)} {done : List Nat} {s : State} (h : ∀ x ∈ l, 1 ≤ x.1 ∧ x.1 < s.cfg.nIrq) :
    raiseIds l done s = .ok (raisedAll ((firedOf l).filter fun id => id ∉ done).eraseDups s) := by
  induction l generalizing done s with
  | nil => rfl
  | cons x l ih =>
    obtain ⟨id, fire⟩ := x
    obtain ⟨⟨hlow, hhigh⟩, hrest⟩ := List.forall_mem_cons.1 h
    rw [raiseIds]
    cases fire with
    | false =>
      rw [if_neg (by simp), ih hrest]
      rfl
    | true =>
      have hfired : firedOf ((id, true) :: l) = id :: firedOf l := rfl
      rw [hfired]
      by_cases hdone : id ∈ done
      · rw [if_neg fun hnew => hnew.2 hdone, ih hrest, List.filter_cons_of_neg (by simpa using hdone)]
      · rw [if_pos ⟨rfl, hdone⟩, trigger_eq_afterTrigger (Nat.one_le_iff_ne_zero.1 hlow) (Nat.not_le.2 hhigh) 0,
          res_bind_ok, ih (by rwa [(afterTrigger_moves hlow hhigh).cfg]),
          List.filter_cons_of_pos (by simpa using hdone), List.eraseDups_cons, List.filter_filter, raisedAll_cons]
        simp only [List.mem_cons, not_or, Bool.decide_and, decide_not]
        rfl

theorem raiseFamily_eq {d : Domain} {s : State} (h : ∀ id ∈ s.cfg.ocIrq.get d, 1 ≤ id ∧ id < s.cfg.nIrq) :
    raiseFamily d s = .ok (raisedAll (firingOnce s d) s) := by
  rw [raiseFamily, raiseIds_eq fun x hx => h x.1 (firingIds_mem hx), firingOnce_eq]
  simp

/-- R116: the ids to raise are those of the matching slots. -/
theorem mem_firingOnce {s : State} {d : Domain} {id : Nat} : id ∈ firingOnce s d ↔ Fires s d id := by
  rw [firingOnce, List.mem_eraseDups, List.mem_filterMap]
  constructor
  · rintro ⟨⟨j, o⟩, hslot, hfire⟩
    obtain ⟨k, hk⟩ := List.mem_iff_getElem?.1 hslot
    obtain ⟨hid, ho⟩ := List.getElem?_zip_eq_some.1 hk
    split_ifs at hfire with hmatch
    cases hfire
    exact ⟨k, o, hid, ho, hmatch.1, hmatch.2⟩
  · rintro ⟨k, o, hid, ho, hactive, hcompare⟩
    exact ⟨(id, o), List.mem_iff_getElem?.2 ⟨k, List.getElem?_zip_eq_some.2 ⟨hid, ho⟩⟩, if_pos ⟨hactive, hcompare⟩⟩

/-- The Interrupt Controller's requests change no match (assumption 14). -/
theorem IntcMoves.firingOnce {s t : State} (h : IntcMoves s t) (d : Domain) : firingOnce t d = firingOnce s d := by
  rw [Claims.firingOnce, Claims.firingOnce, h.cfg, h.oc, h.clk]

theorem haveState_firingOnce {s : State} (hs : s.Inv) (d : Domain) : HaveState (firingOnce s d) s := fun id hid => by
  obtain ⟨k, -, hk, -⟩ := mem_firingOnce.1 hid
  exact Config.ocIds_of_wellFormed hs.cfgOk d id (List.mem_of_getElem? hk)

/-- An id that fires in one family alone is requested once. -/
theorem count_firingOnce_le_one {s : State} {id : Nat} (h : ¬ Fires s .narrow id ∨ ¬ Fires s .wide id) :
    (firingOnce s .narrow ++ firingOnce s .wide).count id ≤ 1 := by
  have hfamily : ∀ d, (firingOnce s d).count id ≤ 1 := fun d => List.nodup_iff_count_le_one.1 (nodup_eraseDups _) id
  have hnone : ∀ d, ¬ Fires s d id → (firingOnce s d).count id = 0 := fun d hno =>
    List.count_eq_zero.2 fun hmem => hno (mem_firingOnce.1 hmem)
  rw [List.count_append]
  rcases h with hno | hno
  · rw [hnone _ hno, Nat.zero_add]; exact hfamily _
  · rw [hnone _ hno, Nat.add_zero]; exact hfamily _

/-! ### The raise of both families -/

/-- R118: `oc_raise` triggers the narrow family's ids, then the wide family's, which no trigger changes. -/
theorem ocRaise_eq {s : State} (hs : s.Inv) :
    ocRaise s = .ok (raisedAll (firingOnce s .narrow ++ firingOnce s .wide) s) := by
  have hmoves := raisedAll_moves (haveState_firingOnce hs .narrow)
  have hids := Config.ocIds_of_wellFormed hs.cfgOk
  rw [ocRaise, raiseFamily_eq (hids .narrow), res_bind_ok, raiseFamily_eq (by rw [hmoves.cfg]; exact hids .wide),
    hmoves.firingOnce,raisedAll_append]

/-- Settles O48: the raise is the triggers of `ocRaise_eq`; each id of the list ends raised, no other is touched, and
the one that they activate keeps what its activation left. -/
theorem raiseReachesEachFiringIdOnce : Obligations.RaiseReachesEachFiringIdOnce := by
  intro s hs hf
  obtain ⟨l, hl⟩ : ∃ l, l = firingOnce s .narrow ++ firingOnce s .wide := ⟨_, rfl⟩
  have hmem : ∀ id, id ∈ l ↔ ∃ d, Fires s d id := fun id => by
    rw [hl, List.mem_append, mem_firingOnce, mem_firingOnce]
    exact ⟨fun h => h.elim (⟨_, ·⟩) (⟨_, ·⟩), fun ⟨d, hd⟩ => by cases d; exacts [.inl hd, .inr hd]⟩
  have hstate : HaveState l s := fun id hid => by
    obtain ⟨d, hd⟩ := (hmem id).1 hid
    exact haveState_firingOnce hs d id (mem_firingOnce.2 hd)
  have hmoves := raisedAll_moves hstate
  refine ⟨(raisedAll l s).begun, exec_ok hf ?_, ?_, congrArg State.begun hmoves.frame, fun hactive => ?_,
    fun id hlow hhigh => ⟨fun hfires => ?_, fun hquiet => ?_, fun hidle hactive honce => ?_⟩⟩
  · rw [hl, ← raisedAll_begun]
    exact ocRaise_eq (s := s.begun) { hs with }
  · rw [hl, raisedAll_append]; rfl
  · exact ⟨hmoves.single hactive, raisedAll_enabled hstate hactive⟩
  · exact raised_of_mem ((hmem id).2 hfires) (by rw [hs.scheduledLength]; exact hhigh) hstate
  · exact raisedAll_other (fun hid => ((hmem id).1 hid).elim hquiet) s
  · exact raisedAll_activates hstate (Nat.one_le_iff_ne_zero.1 hlow) (by rw [hs.scheduledLength]; exact hhigh)
      (by rw [hs.enabledLength]; exact hhigh) hidle hactive (hl ▸ count_firingOnce_le_one honce)

end Sys2Proof.Machine
end

section
/-! PROOF. The registers of the DMA channels (43_dma R122, R126, R131, R133), the synchronous copy (R124, R128) and the
two STARTs (R123, R132). -/

namespace Sys2Proof.Machine

open Sys2Proof.Claims

/-! ### The registers (43_dma R122, R126, R131, R133) -/

/-! An operation on a channel that exists is its effect on the channel. -/

section

variable {i : Instr} {c : Nat} {s u : State} (hf : s.fault = none)
include hf

theorem exec_withSdma {x : SyncDma} {f : SyncDma → State → Res} (hx : s.sdma[c]? = some x)
    (hi : meaning i = withSdma c f) (h : f x s.begun = .ok u) : exec i s = .next u :=
  exec_ok hf (by rw [hi, withSdma_some (s := s.begun) hx, h])

theorem exec_withPdma {p : PolledDma} {f : PolledDma → State → Res} (hp : s.pdma[c]? = some p)
    (hi : meaning i = withPdma c f) (h : f p s.begun = .ok u) : exec i s = .next u :=
  exec_ok hf (by rw [hi, withPdma_some (s := s.begun) hp, h])

end

/-- R133: the two flags sit in bits of their own, so the word is their sum. -/
theorem pdmaStatusWord_eq (p : PolledDma) : pdmaStatusWord p =
    BitVec.ofNat 32 ((if p.busy = true then 1 else 0) + (if p.dir = .outward then 2 else 0)) := by
  unfold pdmaStatusWord
  cases p.busy <;> cases p.dir <;> rfl

/-- Settles O49: each read looks its channel up and answers the field. -/
theorem dmaReadsReturnTheirFields : Obligations.DmaReadsReturnTheirFields := by
  refine fun s hf => ⟨fun c x hx => ⟨?_, ?_, ?_⟩, fun c p hp => ⟨?_, ?_, ?_, ?_, ?_⟩⟩
  · exact exec_withSdma hf hx rfl rfl
  · exact exec_withSdma hf hx rfl rfl
  · exact exec_withSdma hf hx rfl rfl
  · exact exec_withPdma hf hp rfl rfl
  · exact exec_withPdma hf hp rfl rfl
  · exact exec_withPdma hf hp rfl rfl
  · exact exec_withPdma hf hp rfl rfl
  · rw [← pdmaStatusWord_eq]
    exact exec_withPdma hf hp rfl rfl

/-- R131: a write to an idle channel replaces one field. -/
theorem exec_pdmaWreg_idle {s : State} {c : Nat} {p : PolledDma} (hf : s.fault = none) (hp : s.pdma[c]? = some p)
    (hidle : p.busy = false) (f : DmaField) (wv : U32) :
    exec (.pdmaWreg c f wv) s = .next (s.begun.setPdma c (p.put f wv)) :=
  exec_withPdma hf hp rfl (if_neg (Bool.eq_false_iff.1 hidle))

/-- Settles O50: each write looks its channel up and stores it with the one field changed, but for a busy polled
channel. -/
theorem dmaWritesSetOneField : Obligations.DmaWritesSetOneField := by
  refine fun s wv hf => ⟨fun c x hx => ⟨?_, ?_, ?_⟩, fun c p hp hidle => ⟨?_, ?_, ?_⟩, fun c p f hp hbusy => ?_⟩
  · exact exec_withSdma hf hx rfl rfl
  · exact exec_withSdma hf hx rfl rfl
  · exact exec_withSdma hf hx rfl rfl
  · exact exec_pdmaWreg_idle hf hp hidle .src wv
  · exact exec_pdmaWreg_idle hf hp hidle .dst wv
  · exact exec_pdmaWreg_idle hf hp hidle .count wv
  · exact exec_withPdma hf hp rfl (if_pos hbusy)

/-! ### Usable ranges (20_memory R36, R37) -/

theorem canRead_iff {c : Config} {a : U32} {n : Nat} : CanRead c a.toNat n ↔ readable c a n = true := by
  rw [readable_iff]
  simp only [inRam_iff, inRom_iff]
  rfl

theorem canWrite_iff {c : Config} {a : U32} {n : Nat} : CanWrite c a.toNat n ↔ writable c a n = true := by
  rw [writable_iff]
  simp only [inRam_iff]
  rfl

/-! ### The synchronous copy (43_dma R124, R127, R128) -/

/-- What a copy between usable ranges leaves: RAM alone has changed, in `[dst, dst + n)` alone, a destination byte is
what its chunk read, and the copy is a true move where no chunk reads what an earlier one wrote. -/
structure Copied (src dst : U32) (n : Nat) (s t : State) : Prop where
  frame : t = { s with ram := t.ram }
  replicated : ∀ j, j < n → t.byteAt (dst.toNat + j) =
    if dst.toNat ≤ src.toNat + j ∧ src.toNat + j < dst.toNat + j / s.cfg.sdmaChunk * s.cfg.sdmaChunk then
      t.byteAt (src.toNat + j)
    else s.byteAt (src.toNat + j)
  moved : src.toNat + n ≤ dst.toNat ∨ dst.toNat ≤ src.toNat ∨ n ≤ s.cfg.sdmaChunk →
    ∀ j, j < n → t.byteAt (dst.toNat + j) = s.byteAt (src.toNat + j)
  outside : ∀ x, ¬ (dst.toNat ≤ x ∧ x < dst.toNat + n) → t.byteAt x = s.byteAt x

theorem sdmaCopy_copied {src dst n : U32} {s : State} (hs : s.Inv) (hr : readable s.cfg src n.toNat = true)
    (hw : writable s.cfg dst n.toNat = true) : ∃ t, sdmaCopy src dst n s = .ok t ∧ Copied src dst n.toNat s t := by
  obtain ⟨-, -, -, -, hchunk, -⟩ := Config.scalars_of_wellFormed hs.cfgOk
  obtain ⟨t, hcopy, houtside, hmoved⟩ := copyLoop_spec hchunk hr hw hs.ramWf (Nat.zero_le _) (Nat.le_refl _)
  have hbytes := copyLoop_bytes hchunk hr hw hs.ramWf (Nat.zero_mod _) (Nat.le_refl _) hcopy
  rw [Nat.zero_add] at hmoved
  exact ⟨t, hcopy, sdmaCopy_ram hcopy, fun j hj => hbytes j (Nat.zero_le j) hj,
    fun hmove j hj => hmoved hmove j (Nat.zero_le j) hj, houtside⟩

/-- Settles O51: the copy of the op level is the chunk loop from offset 0. -/
theorem copyMovesTheBytes : Obligations.CopyMovesTheBytes := by
  intro s src dst n hs hf hr hw
  obtain ⟨t, hcopy, h⟩ := sdmaCopy_copied (s := s.begun) { hs with } (canRead_iff.1 hr) (canWrite_iff.1 hw)
  exact ⟨t, exec_ok hf hcopy, h.frame, h.replicated, h.moved, h.outside⟩

/-! ### The synchronous START (43_dma R123, R125, R129) -/

/-- Interrupt Controller requests change no byte of memory. -/
theorem IntcMoves.byteAt {s t : State} (h : IntcMoves s t) (a : Nat) : t.byteAt a = s.byteAt a := by
  rw [h.frame]; rfl

/-- R123: with a range it cannot use, START is refused before anything moves. -/
theorem sdmaStart_refused {s : State} {c : Nat} {x : SyncDma} (wv : U32) (hx : s.sdma[c]? = some x)
    (h : ¬ (readable s.cfg x.src x.count.toNat = true ∧ writable s.cfg x.dst x.count.toNat = true)) :
    sdmaStart c wv s = .error (.raised .dmaRegion) := by
  rw [sdmaStart, withSdma_some hx, if_neg (by rwa [Bool.and_eq_true])]

/-- R123, R125: between usable ranges START is the copy, then the trigger of the completion id. -/
theorem sdmaStart_of_copy {s u : State} {c id : Nat} {x : SyncDma} (wv : U32) (hs : s.Inv) (hx : s.sdma[c]? = some x)
    (hid : s.cfg.sdmaIrq[c]? = some id)
    (h : readable s.cfg x.src x.count.toNat = true ∧ writable s.cfg x.dst x.count.toNat = true)
    (hcopy : sdmaCopy x.src x.dst x.count s = .ok u) :
    sdmaStart c wv s = .ok (afterTrigger id (sdmaDelay s.cfg x.count) u) ∧
      IntcMoves u (afterTrigger id (sdmaDelay s.cfg x.count) u) := by
  obtain ⟨hlow, hhigh⟩ := Config.sdmaIds_of_wellFormed hs.cfgOk id (List.mem_of_getElem? hid)
  have hcfg : u.cfg = s.cfg := by rw [sdmaCopy_ram hcopy]
  have htrigger := trigger_eq_afterTrigger (s := u) (Nat.one_le_iff_ne_zero.1 hlow)
    (by rw [hcfg]; exact Nat.not_le.2 hhigh) (sdmaDelay s.cfg x.count)
  refine ⟨?_, trigger_moves htrigger⟩
  rw [sdmaStart, withSdma_some hx, if_pos (by rwa [Bool.and_eq_true]), hid]
  simp only [hcopy, res_bind_ok, htrigger]

/-- Settles O52: the range check of START is the one of the copy, so either it copies and triggers, or it is refused
whole. -/
theorem syncStartCopiesAndTriggers : Obligations.SyncStartCopiesAndTriggers := by
  intro s c id x wv hs hf hx hid
  constructor
  · rintro ⟨hr, hw⟩
    have hranges := And.intro (canRead_iff.1 hr) (canWrite_iff.1 hw)
    have hbegun : s.begun.Inv := { hs with }
    obtain ⟨u, hcopy, hu⟩ := sdmaCopy_copied hbegun hranges.1 hranges.2
    obtain ⟨hstart, hmoves⟩ := sdmaStart_of_copy (s := s.begun) wv hbegun hx hid hranges hcopy
    have hram : u = ({ s with ram := u.ram } : State).begun := hu.frame
    refine ⟨u.ram, _, exec_ok hf hstart, ?_, exec_ok hf (hcopy.trans (congrArg Except.ok hram)), fun y hy => ?_⟩
    · conv_lhs => rw [hram]
      exact afterTrigger_begun _ _ _
    · rw [hmoves.byteAt, hu.outside y hy]
      rfl
  · intro h
    refine exec_raised .dmaRegion hf (sdmaStart_refused (s := s.begun) wv hx fun hranges => ?_)
    exact h.elim (fun hr => hr (canRead_iff.2 hranges.1)) fun hw => hw (canWrite_iff.2 hranges.2)

/-! ### The polled START (43_dma R132) -/

theorem startDir_eq (wv : U32) : startDir wv = if wv.toNat % 2 = 1 then .outward else .inward :=
  if_congr (getLsbD_zero_iff wv) rfl rfl

theorem regionOk_iff {c : Config} {p : PolledDma} {dir : Dir} : p.regionOk c dir = true ↔
    (dir = .inward ∧ CanWrite c p.dst.toNat p.count.toNat) ∨
      (dir = .outward ∧ CanRead c p.src.toNat p.count.toNat) := by
  cases dir <;> simp [PolledDma.regionOk, canRead_iff, canWrite_iff]

section

variable {s : State} {c : Nat} {p : PolledDma} (wv : U32) (hp : s.pdma[c]? = some p)
include hp

theorem pdmaStart_busy (hbusy : p.busy = true) : pdmaStart c wv s = .error (.raised .pdmaBusy) := by
  rw [pdmaStart, withPdma_some hp, if_pos hbusy]

variable (hidle : p.busy = false)
include hidle

theorem pdmaStart_misaligned (hcount : p.count.toNat % 4 ≠ 0) : pdmaStart c wv s = .error (.raised .pdmaAlign) := by
  rw [pdmaStart, withPdma_some hp, if_neg (Bool.eq_false_iff.1 hidle), if_pos hcount]

variable (hcount : p.count.toNat % 4 = 0)
include hcount

theorem pdmaStart_unusable (h : ¬ p.regionOk s.cfg (startDir wv) = true) :
    pdmaStart c wv s = .error (.raised .dmaRegion) := by
  rw [pdmaStart, withPdma_some hp, if_neg (Bool.eq_false_iff.1 hidle), if_neg (not_not.2 hcount), if_neg h]

theorem pdmaStart_starts (h : p.regionOk s.cfg (startDir wv) = true) :
    pdmaStart c wv s = .ok (s.setPdma c (p.started s.cfg (startDir wv))) := by
  rw [pdmaStart, withPdma_some hp, if_neg (Bool.eq_false_iff.1 hidle), if_neg (not_not.2 hcount), if_pos h]

end

/-- Settles O53: START's checks in R132's order, each with its outcome. -/
theorem polledStartOutcome : Obligations.PolledStartOutcome := by
  intro s c p wv hf hp
  have hp' : s.begun.pdma[c]? = some p := hp
  simp only [← startDir_eq, ← regionOk_iff]
  refine ⟨fun hbusy => ?_, fun hidle hcount => ?_, fun hidle hcount hno => ?_, fun hidle hcount hok => ?_⟩
  · exact exec_raised .pdmaBusy hf (pdmaStart_busy wv hp' hbusy)
  · exact exec_raised .pdmaAlign hf (pdmaStart_misaligned wv hp' hidle hcount)
  · exact exec_raised .dmaRegion hf (pdmaStart_unusable wv hp' hidle hcount hno)
  · exact exec_ok hf (pdmaStart_starts wv hp' hidle hcount hok)

end Sys2Proof.Machine
end

section
/-! PROOF. The step of one polled channel (43_dma R134, R135): the draws it takes, every outcome of its chunk, and its
completion. -/

namespace Sys2Proof.Machine

open Sys2Proof.Claims

/-! ### The draws of the storage backend (43_dma R135, assumption 5) -/

theorem takeDraw_fst (s : State) : (takeDraw s).1 = drawAt s 0 := by
  unfold takeDraw drawAt
  split <;> simp [*]

theorem byteAt_takeDraw (s : State) (a : Nat) : (takeDraw s).2.byteAt a = s.byteAt a := by
  rw [takeDraw_frame]; rfl

/-- `t` is `s` with `k` more draws taken, none of which reports an impossible backend. -/
structure Drew (k : Nat) (s t : State) : Prop where
  draws : t.draws = s.draws.drop k
  taken : t.drawsTaken = s.drawsTaken + k
  possible : ∀ n, n < k → (drawAt s n).impossible = false

namespace Drew

variable {k m : Nat} {s t u : State}

theorem of_eq (hdraws : t.draws = s.draws) (htaken : t.drawsTaken = s.drawsTaken) : Drew 0 s t :=
  ⟨hdraws, htaken, fun _ hn => absurd hn (Nat.not_lt_zero _)⟩

/-- The draws that come after those taken. -/
theorem drawAt_eq (h : Drew k s t) (n : Nat) : drawAt t n = drawAt s (k + n) := by
  unfold drawAt
  rw [h.draws, h.taken, List.getElem?_drop, Nat.add_assoc]

theorem trans (h : Drew k s t) (h' : Drew m t u) : Drew (k + m) s u where
  draws := by rw [h'.draws, h.draws, List.drop_drop]
  taken := by rw [h'.taken, h.taken, Nat.add_assoc]
  possible n hn := by
    by_cases hk : n < k
    · exact h.possible n hk
    · obtain ⟨j, rfl⟩ := Nat.exists_eq_add_of_le (Nat.le_of_not_lt hk)
      rw [← h.drawAt_eq]
      exact h'.possible j (by omega)

theorem congr (h : Drew k s t) (hdraws : u.draws = t.draws) (htaken : u.drawsTaken = t.drawsTaken) : Drew k s u :=
  ⟨hdraws.trans h.draws, htaken.trans h.taken, h.possible⟩

end Drew

theorem drew_takeDraw {s : State} (h : (drawAt s 0).impossible = false) : Drew 1 s (takeDraw s).2 where
  draws := by unfold takeDraw; split <;> simp [*]
  taken := by unfold takeDraw; split <;> rfl
  possible n hn := by rwa [show n = 0 by omega]

/-- With enough draws listed, each answer of the step is a listed one. -/
theorem possible_of_drawsServe {s : State} (h : DrawsServe s) {n : Nat} (hn : n < 2 * s.cfg.nPdma) :
    (drawAt s n).impossible = false := by
  obtain ⟨henough, hgood⟩ := h
  unfold drawAt
  rw [List.getElem?_eq_getElem (Nat.lt_of_lt_of_le hn henough), Option.getD_some]
  exact hgood _ (List.getElem_mem _)

/-! ### A chunk (43_dma R134 part 1) -/

section

variable {c : Nat} {p : PolledDma} {s t : State}

/-- R134: the next chunk of a checked IN transfer is RAM, and its address does not wrap. -/
theorem writable_chunk {cfg : Config} (hr : p.regionOk cfg p.dir = true) (hdir : p.dir = .inward)
    (hlt : p.transferred < p.count) : writable cfg (p.dst + p.transferred) (chunkSize cfg p) = true ∧
      (p.dst + p.transferred).toNat = p.dst.toNat + p.transferred.toNat := by
  rw [hdir] at hr
  have h := writable_sub (len := chunkSize cfg p) hr (chunk_advances hlt).2 (BitVec.lt_def.1 hlt)
  rwa [BitVec.ofNat_toNat, BitVec.setWidth_eq] at h

/-- R134: the next chunk of a checked OUT transfer is RAM or ROM, and its address does not wrap. -/
theorem readable_chunk {cfg : Config} (hr : p.regionOk cfg p.dir = true) (hdir : p.dir = .outward)
    (hlt : p.transferred < p.count) : readable cfg (p.src + p.transferred) (chunkSize cfg p) = true ∧
      (p.src + p.transferred).toNat = p.src.toNat + p.transferred.toNat := by
  rw [hdir] at hr
  have h := readable_sub (len := chunkSize cfg p) hr (chunk_advances hlt).2 (BitVec.lt_def.1 hlt)
  rwa [BitVec.ofNat_toNat, BitVec.setWidth_eq] at h

/-- An IN chunk is the drawn bytes, written at dst + transferred. -/
theorem moveChunk_inward_ok {n : Nat} (hdir : p.dir = .inward) (h : moveChunk c n p s = .ok t) :
    (drawAt s 0).impossible = false ∧
      memWrite (takeDraw s).2 (p.dst + p.transferred) (exactBytes n (drawAt s 0).data) = .ok t := by
  simp only [moveChunk, hdir] at h
  obtain ⟨⟨b, u⟩, hread, hwrite⟩ := res_bind_eq_ok.1 h
  obtain ⟨hpossible, rfl, rfl⟩ := devRead_ok hread
  rw [takeDraw_fst] at hpossible hwrite
  exact ⟨hpossible, hwrite⟩

/-- An OUT chunk is the bytes at src + transferred, sent to the channel's device. -/
theorem moveChunk_outward_ok {n : Nat} (hdir : p.dir = .outward) (h : moveChunk c n p s = .ok t) :
    (drawAt s 0).impossible = false ∧ t = { (takeDraw s).2 with
      devOut := s.devOut ++ [(c, s.bytesAt (p.src + p.transferred).toNat n)] } := by
  simp only [moveChunk, hdir] at h
  obtain ⟨b, hread, hwrite⟩ := res_bind_eq_ok.1 h
  obtain ⟨-, rfl⟩ := memRead_ok.1 hread
  obtain ⟨hpossible, rfl⟩ := devWrite_ok hwrite
  rw [takeDraw_fst] at hpossible
  exact ⟨hpossible, by rw [takeDraw_devOut]⟩

/-- R135: a chunk takes one draw. -/
theorem moveChunk_drew {n : Nat} (h : moveChunk c n p s = .ok t) : Drew 1 s t := by
  cases hdir : p.dir with
  | inward =>
    obtain ⟨hpossible, hwrite⟩ := moveChunk_inward_ok hdir h
    have hram := memWrite_ram hwrite
    exact (drew_takeDraw hpossible).congr (by rw [hram]) (by rw [hram])
  | outward =>
    obtain ⟨hpossible, rfl⟩ := moveChunk_outward_ok hdir h
    exact (drew_takeDraw hpossible).congr rfl rfl

/-- R134, R135: a chunk of a checked channel moves, unless the backend's answer is impossible. -/
theorem moveChunk_outcome (hr : p.regionOk s.cfg p.dir = true) (hlt : p.transferred < p.count) :
    ((drawAt s 0).impossible = false ∧ ∃ u, moveChunk c (chunkSize s.cfg p) p s = .ok u) ∨
      ((drawAt s 0).impossible = true ∧ moveChunk c (chunkSize s.cfg p) p s = .error (.raised .extHandler)) := by
  cases h : moveChunk c (chunkSize s.cfg p) p s with
  | ok u => exact .inl ⟨(moveChunk_drew h).possible 0 Nat.one_pos, u, rfl⟩
  | error e =>
    obtain ⟨rfl, himpossible⟩ := moveChunk_error hr hlt h
    rw [takeDraw_fst] at himpossible
    exact .inr ⟨himpossible, rfl⟩

/-- R134: a channel that has moved its next chunk. -/
def PolledDma.afterChunk (cfg : Config) (p : PolledDma) : PolledDma :=
  { p with transferred := p.transferred + BitVec.ofNat 32 (chunkSize cfg p) }

/-- Every outcome of part 1 of the polled step, with the answers of the backend that lead to it (R134, R135). -/
inductive MoveOutcome (c : Nat) (p : PolledDma) (s : State) : Except Stop (PolledDma × State) → Prop
  | dataless (hall : ¬ p.transferred < p.count) : MoveOutcome c p s (.ok (p, s))
  | waits (hlt : p.transferred < p.count) (hfirst : (drawAt s 0).impossible = false)
      (hwait : (drawAt s 0).ready = false) : MoveOutcome c p s (.ok (p, (takeDraw s).2))
  | chunk (u : State) (hlt : p.transferred < p.count) (hfirst : (drawAt s 0).impossible = false)
      (hready : (drawAt s 0).ready = true) (hmove : moveChunk c (chunkSize s.cfg p) p (takeDraw s).2 = .ok u) :
      MoveOutcome c p s (.ok (p.afterChunk s.cfg, u))
  | impossible (hlt : p.transferred < p.count)
      (hbad : (drawAt s 0).impossible = true ∨ ((drawAt s 0).ready = true ∧ (drawAt s 1).impossible = true)) :
      MoveOutcome c p s (.error (.raised .extHandler))

theorem devReady_impossible (h : (drawAt s 0).impossible = true) : devReady s = .error (.raised .extHandler) := by
  rw [devReady, takeDraw_fst, if_pos h]

theorem devReady_answers (h : (drawAt s 0).impossible = false) :
    devReady s = .ok ((drawAt s 0).ready, (takeDraw s).2) := by
  rw [devReady, takeDraw_fst, if_neg (Bool.eq_false_iff.1 h)]

theorem pdmaMove_outcome (hr : p.regionOk s.cfg p.dir = true) : MoveOutcome c p s (pdmaMove c p s) := by
  unfold pdmaMove
  by_cases hlt : p.transferred < p.count
  · rw [if_pos hlt]
    cases hfirst : (drawAt s 0).impossible with
    | true =>
      rw [devReady_impossible hfirst]
      exact .impossible hlt (.inl hfirst)
    | false =>
      rw [devReady_answers hfirst, res_bind_ok]
      cases hready : (drawAt s 0).ready with
      | false => exact .waits hlt hfirst hready
      | true =>
        have hsecond : drawAt (takeDraw s).2 0 = drawAt s 1 := (drew_takeDraw hfirst).drawAt_eq 0
        have hcfg : (takeDraw s).2.cfg = s.cfg := takeDraw_cfg s
        rcases moveChunk_outcome (c := c) (s := (takeDraw s).2) (by rw [hcfg]; exact hr) hlt with
          ⟨-, u, hmove⟩ | ⟨hbad, hmove⟩
        · rw [hcfg] at hmove
          simp only [hmove]
          exact .chunk u hlt hfirst hready hmove
        · rw [hcfg] at hmove
          simp only [hmove]
          exact .impossible hlt (.inr ⟨hready, hsecond ▸ hbad⟩)
  · rw [if_neg hlt]
    exact .dataless hlt

/-- Part 1 takes at most two draws, the second for its chunk (R135). -/
theorem MoveOutcome.drew {q : PolledDma} (h : MoveOutcome c p s (.ok (q, t))) : ∃ k, k ≤ 2 ∧ Drew k s t := by
  cases h with
  | dataless hall => exact ⟨0, by omega, .of_eq rfl rfl⟩
  | waits hlt hfirst hwait => exact ⟨1, by omega, drew_takeDraw hfirst⟩
  | chunk u hlt hfirst hready hmove => exact ⟨2, by omega, (drew_takeDraw hfirst).trans (moveChunk_drew hmove)⟩

end

/-! ### The wait and the completion (43_dma R134 parts 2 and 3) -/

/-- R134 part 2: the wait counts down by one and stops at -2^31. -/
theorem waitNext_eq (p : PolledDma) : waitNext p.wait = waitAfter p := by
  have hlow := BitVec.le_toInt p.wait
  have hhigh := BitVec.toInt_lt (x := p.wait)
  unfold waitNext waitAfter
  split_ifs with h
  · rw [max_eq_left (by omega)]
    apply BitVec.eq_of_toInt_eq
    rw [BitVec.toInt_sub, BitVec.toInt_ofInt]
    rfl
  · rw [max_eq_right (by omega), show (-2 ^ 31 : Int) = p.wait.toInt by omega, BitVec.ofInt_toInt]

/-- R134 parts 2 and 3: a busy channel at the end of its step. -/
def PolledDma.finished (q : PolledDma) : PolledDma :=
  { q with
    wait := waitAfter q
    busy := !(decide (q.transferred = q.count) && decide ((waitAfter q).toInt ≤ 0)) }

/-- R134 part 3: the ids the end of its step raises. -/
def raisedBy (irq : PdmaIrq) (q : PolledDma) : List Nat := if q.finished.busy = true then [] else completionIds irq

theorem finished_busy_iff {q : PolledDma} :
    q.finished.busy = true ↔ ¬ (q.transferred = q.count ∧ (waitAfter q).toInt ≤ 0) := by
  simp only [PolledDma.finished, ← Bool.decide_and, Bool.not_eq_true', decide_eq_false_iff_not]

theorem complete_eq (q : PolledDma) : PolledDma.complete { q with wait := waitNext q.wait } = !q.finished.busy := by
  rw [waitNext_eq, PolledDma.finished, Bool.not_not]
  rfl

theorem haveState_completionIds {irq : PdmaIrq} {s : State} (hc : s.cfg.wellFormed = true) (h : irq ∈ s.cfg.pdmaIrq) :
    HaveState (completionIds irq) s := fun id hid => by
  obtain ⟨⟨hlow, hhigh⟩, hdrv⟩ := Config.pdmaIds_of_wellFormed hc irq h
  unfold completionIds at hid
  split_ifs at hid with hnone
  · rw [List.mem_singleton.1 hid]
    exact ⟨hlow, hhigh⟩
  · rcases List.mem_pair.1 hid with rfl | rfl
    · exact ⟨hlow, hhigh⟩
    · exact ⟨Nat.one_le_iff_ne_zero.2 hnone, hdrv⟩

theorem haveState_raisedBy {irq : PdmaIrq} {s : State} (hc : s.cfg.wellFormed = true) (h : irq ∈ s.cfg.pdmaIrq)
    (q : PolledDma) : HaveState (raisedBy irq q) s := by
  unfold raisedBy
  split_ifs
  · exact fun id hid => absurd hid List.not_mem_nil
  · exact haveState_completionIds hc h

/-- R134 part 3: the completion is the raises of its ids, one after another. -/
theorem raiseCompletion_eq {irq : PdmaIrq} {s : State} (h : HaveState (completionIds irq) s) :
    raiseCompletion irq s = .ok (raisedAll (completionIds irq) s) := by
  have htrigger : ∀ {id : Nat} {u : State}, 1 ≤ id → id < u.cfg.nIrq → trigger id 0 u = .ok (afterTrigger id 0 u) :=
    fun hlow hhigh => trigger_eq_afterTrigger (Nat.one_le_iff_ne_zero.1 hlow) (Nat.not_le.2 hhigh) 0
  unfold raiseCompletion
  by_cases hnone : irq.drv = 0
  · rw [completionIds, if_pos hnone] at h ⊢
    obtain ⟨hlow, hhigh⟩ := h irq.dma List.mem_cons_self
    rw [htrigger hlow hhigh, res_bind_ok, if_neg (not_not.2 hnone)]
    rfl
  · rw [completionIds, if_neg hnone] at h ⊢
    obtain ⟨hlow, hhigh⟩ := h irq.dma List.mem_cons_self
    obtain ⟨hlow', hhigh'⟩ := h.tail irq.drv List.mem_cons_self
    rw [htrigger hlow hhigh, res_bind_ok, if_pos hnone, htrigger hlow' hhigh']
    rfl

/-- R134 parts 2 and 3 on a busy channel: it is stored finished, and then its ids are raised. -/
theorem pdmaFinish_eq {c : Nat} {irq : PdmaIrq} {q : PolledDma} {s : State} (hc : s.cfg.wellFormed = true)
    (hirq : s.cfg.pdmaIrq[c]? = some irq) (hbusy : q.busy = true) :
    pdmaFinish c q s = .ok (raisedAll (raisedBy irq q) (s.setPdma c q.finished)) := by
  have hfinished : q.finished = { q with wait := waitNext q.wait, busy := q.finished.busy } := by
    rw [waitNext_eq]
    rfl
  unfold pdmaFinish raisedBy
  rw [complete_eq]
  cases hdone : q.finished.busy with
  | true =>
    rw [hdone, ← hbusy] at hfinished
    rw [if_neg (by decide), if_pos rfl, hfinished]
    rfl
  | false =>
    rw [hdone] at hfinished
    rw [if_pos (by decide), if_neg (by decide), hirq, ← hfinished]
    exact raiseCompletion_eq (s := s.setPdma c q.finished) (haveState_completionIds hc (List.mem_of_getElem? hirq))

end Sys2Proof.Machine
end

section
/-! PROOF. The polled step over its channels (43_dma R134): each channel's part, the parts one after another, and the
step of a lone busy channel. -/

namespace Sys2Proof.Machine

open Sys2Proof.Claims

/-! ### The states the polled step runs in -/

/-- What the polled step needs of its state: the parts of the run invariant about the channels, their ids and RAM. -/
structure Pollable (s : State) : Prop where
  cfgOk : s.cfg.wellFormed = true
  length : s.pdma.length = s.cfg.nPdma
  channels : ∀ p ∈ s.pdma, PolledOk s.cfg p
  ramWf : Memory.wf s.ram = true

theorem State.Inv.pollable {s : State} (hs : s.Inv) : Pollable s := ⟨hs.cfgOk, hs.pdmaLength, hs.polledOk, hs.ramWf⟩

namespace Pollable

variable {s t : State} {c : Nat} {p : PolledDma}

theorem congr (h : Pollable s) (hcfg : t.cfg = s.cfg) (hpdma : t.pdma = s.pdma) (hram : t.ram = s.ram) :
    Pollable t where
  cfgOk := by rw [hcfg]; exact h.cfgOk
  length := by rw [hpdma, hcfg]; exact h.length
  channels := by rw [hpdma, hcfg]; exact h.channels
  ramWf := by rw [hram]; exact h.ramWf

theorem region (h : Pollable s) (hp : s.pdma[c]? = some p) (hbusy : p.busy = true) :
    p.regionOk s.cfg p.dir = true := (h.channels p (List.mem_of_getElem? hp)).region hbusy

/-- R5: every channel has its ids. -/
theorem exists_irq (h : Pollable s) (hp : s.pdma[c]? = some p) : ∃ irq, s.cfg.pdmaIrq[c]? = some irq := by
  obtain ⟨hlt, -⟩ := List.getElem?_eq_some_iff.1 hp
  rw [h.length] at hlt
  exact ⟨_, List.getElem?_eq_getElem hlt⟩

theorem exists_channel (h : Pollable s) (hc : c < s.cfg.nPdma) : ∃ p, s.pdma[c]? = some p :=
  ⟨_, List.getElem?_eq_getElem (h.length.symm ▸ hc)⟩

theorem pdmaChannel (h : Pollable s) (ht : pdmaChannel c s = .ok t) : Pollable t := by
  obtain ⟨-, -, -, -, -, -, -, hchunk, -⟩ := Config.scalars_of_wellFormed h.cfgOk
  have hmoves := pdmaChannel_moves ht
  exact {
    cfgOk := by rw [hmoves.cfg]; exact h.cfgOk
    length := by rw [hmoves.pdmaLength, hmoves.cfg]; exact h.length
    channels := by rw [hmoves.cfg]; exact (pdmaChannel_polledKept hchunk h.channels ht).polledOk h.channels
    ramWf := hmoves.wf h.ramWf }

end Pollable

/-! ### The fields the polled step writes besides the Interrupt Controller's -/

/-- `s` with the channels, RAM, draws and output of `t`. -/
def State.polledTo (s t : State) : State :=
  { s with pdma := t.pdma, ram := t.ram, draws := t.draws, drawsTaken := t.drawsTaken, devOut := t.devOut }

/-- The raises neither read nor write those fields. -/
theorem raisedAll_polledTo (l : List Nat) (s t : State) :
    raisedAll l (s.polledTo t) = (raisedAll l s).polledTo t := by
  induction l generalizing s with
  | nil => rfl
  | cons id l ih =>
    have hone : afterTrigger id 0 (s.polledTo t) = (afterTrigger id 0 s).polledTo t := by
      simp only [afterTrigger, apply_ite (State.polledTo · t)]
      rfl
    rw [raisedAll_cons, raisedAll_cons, hone, ih]

/-- A state that took those fields from another has its own. -/
theorem eq_polledTo_self {s t u : State} (h : t = s.polledTo u) : t = s.polledTo t := by
  rw [h]; rfl

theorem ChunkMoves.setPdma_eq {s u : State} (h : ChunkMoves s u) (c : Nat) (q : PolledDma) :
    u.setPdma c q = s.polledTo (u.setPdma c q) := by
  rw [h.frame]; rfl

/-! ### The step of one channel (43_dma R134) -/

/-- R134: what a busy channel's part leaves, after part 1 left the channel and the state `x`. -/
def served (c : Nat) (irq : PdmaIrq) (x : PolledDma × State) : State :=
  raisedAll (raisedBy irq x.1) (x.2.setPdma c x.1.finished)

section

variable {c : Nat} {irq : PdmaIrq} {p q : PolledDma} {s t u : State}

/-- The step of a busy channel is its part 1 and then its end. -/
theorem pdmaChannel_busy (hs : Pollable s) (hp : s.pdma[c]? = some p) (hbusy : p.busy = true)
    (hirq : s.cfg.pdmaIrq[c]? = some irq) : pdmaChannel c s = (pdmaMove c p s).map (served c irq) := by
  rw [pdmaChannel, withPdma_some hp, if_pos hbusy]
  cases hmove : pdmaMove c p s with
  | error e => rfl
  | ok x =>
    obtain ⟨q, u⟩ := x
    obtain ⟨hchunk, hq⟩ := pdmaMove_ok hmove
    have hcfg : u.cfg = s.cfg := by rw [hchunk.frame]
    have hqbusy : q.busy = true := by
      rcases hq with rfl | ⟨-, rfl⟩
      · exact hbusy
      · exact hbusy
    exact pdmaFinish_eq (by rw [hcfg]; exact hs.cfgOk) (by rw [hcfg]; exact hirq) hqbusy

theorem pdmaChannel_idle (hp : s.pdma[c]? = some p) (hidle : p.busy = false) : pdmaChannel c s = .ok s := by
  rw [pdmaChannel, withPdma_some hp, if_neg (Bool.eq_false_iff.1 hidle)]

/-- What the end of a channel's step leaves: the raises, beside what part 1 wrote and the finished channel. -/
theorem served_eq (hchunk : ChunkMoves s u) :
    served c irq (q, u) = (raisedAll (raisedBy irq q) s).polledTo (u.setPdma c q.finished) := by
  rw [served, hchunk.setPdma_eq, raisedAll_polledTo]
  rfl

/-- The end of a channel's step touches the channel and the Interrupt Controller alone. -/
theorem served_moves (hs : Pollable s) (hchunk : ChunkMoves s u) (hirq : s.cfg.pdmaIrq[c]? = some irq) :
    IntcMoves (u.setPdma c q.finished) (served c irq (q, u)) := by
  have hcfg : (u.setPdma c q.finished).cfg = s.cfg := by rw [hchunk.setPdma_eq]; rfl
  exact raisedAll_moves (haveState_raisedBy (by rw [hcfg]; exact hs.cfgOk)
    (by rw [hcfg]; exact List.mem_of_getElem? hirq) q)

theorem served_pdma (hchunk : ChunkMoves s u) : (served c irq (q, u)).pdma = s.pdma.set c q.finished := by
  rw [served_eq hchunk, hchunk.frame]
  rfl

/-- R134: the channel after its step is one the rule allows. -/
theorem servedTo_of_move (hbusy : p.busy = true) (h : MoveOutcome c p s (.ok (q, u))) :
    ServedTo s.cfg p q.finished := by
  refine ⟨fun hidle => absurd (hbusy.symm.trans hidle) Bool.noConfusion, fun _ => ?_⟩
  cases h with
  | dataless hall => exact ⟨.inl rfl, rfl⟩
  | waits hlt hfirst hwait => exact ⟨.inl rfl, rfl⟩
  | chunk u hlt hfirst hready hmove => exact ⟨.inr (chunk_advances hlt).1, rfl⟩

end

/-! ### The channels, one after another (43_dma R134) -/

/-- R134 part 3: the ids channel `c` raises, if it was busy in `s` and is idle in `t`. -/
def completedAt (s t : State) (c : Nat) : List Nat :=
  match s.pdma[c]?, t.pdma[c]?, s.cfg.pdmaIrq[c]? with
  | some p, some q, some irq => if p.busy = true ∧ q.busy = false then completionIds irq else []
  | _, _, _ => []

theorem completedAt_eq {s t : State} {c : Nat} {p q : PolledDma} {irq : PdmaIrq} (hp : s.pdma[c]? = some p)
    (hq : t.pdma[c]? = some q) (hirq : s.cfg.pdmaIrq[c]? = some irq) :
    completedAt s t c = if p.busy = true ∧ q.busy = false then completionIds irq else [] := by
  simp only [completedAt, hp, hq, hirq]

/-- Only the channel and its ids bear on it. -/
theorem completedAt_congr {s s' t t' : State} {c : Nat} (hs : s'.pdma[c]? = s.pdma[c]?) (ht : t'.pdma[c]? = t.pdma[c]?)
    (hcfg : s'.cfg = s.cfg) : completedAt s' t' c = completedAt s t c := by
  simp only [completedAt, hs, ht, hcfg]

/-- Everything the channels of `l` do in their part of the polled step, when it completes: the ids they raise, what
becomes of them and of the others, the bytes they leave alone, and the draws they take. -/
structure Polled (l : List Nat) (s t : State) : Prop where
  raised : t = (raisedAll (l.flatMap (completedAt s t)) s).polledTo t
  cfg : t.cfg = s.cfg
  served : ∀ c ∈ l, ∀ p, s.pdma[c]? = some p → ∃ q, t.pdma[c]? = some q ∧ ServedTo s.cfg p q
  others : ∀ c, c ∉ l → t.pdma[c]? = s.pdma[c]?
  bytes : ∀ x, (∀ c ∈ l, ∀ p, s.pdma[c]? = some p → ¬ InNextChunk s.cfg p x) → t.byteAt x = s.byteAt x
  drew : ∃ k, k ≤ 2 * l.length ∧ Drew k s t

namespace Polled

variable {l m : List Nat} {s t u : State}

theorem nil (s : State) : Polled [] s s where
  raised := rfl
  cfg := rfl
  served _ hc := absurd hc List.not_mem_nil
  others _ _ := rfl
  bytes _ _ := rfl
  drew := ⟨0, Nat.le_refl 0, .of_eq rfl rfl⟩

/-- The parts of two separate groups of channels make the part of both. -/
theorem append (hdisjoint : l.Disjoint m) (h : Polled l s t) (k : Polled m t u) : Polled (l ++ m) s u where
  raised := by
    have hl : l.flatMap (completedAt s u) = l.flatMap (completedAt s t) :=
      List.flatMap_congr fun c hc => completedAt_congr rfl (k.others c (hdisjoint hc)) rfl
    have hm : m.flatMap (completedAt s u) = m.flatMap (completedAt t u) :=
      List.flatMap_congr fun c hc => completedAt_congr (h.others c fun hcl => hdisjoint hcl hc).symm rfl h.cfg.symm
    rw [List.flatMap_append, raisedAll_append, hl, hm]
    refine k.raised.trans ?_
    rw [h.raised, raisedAll_polledTo]
    rfl
  cfg := k.cfg.trans h.cfg
  served c hc p hp := by
    rcases List.mem_append.1 hc with hcl | hcm
    · rw [k.others c (hdisjoint hcl)]
      exact h.served c hcl p hp
    · rw [← h.cfg]
      exact k.served c hcm p ((h.others c fun hcl => hdisjoint hcl hcm).trans hp)
  others c hc := by
    rw [List.mem_append, not_or] at hc
    exact (k.others c hc.2).trans (h.others c hc.1)
  bytes x hx := by
    refine (k.bytes x fun c hcm p hp => ?_).trans (h.bytes x fun c hcl => hx c (List.mem_append_left m hcl))
    rw [h.cfg]
    exact hx c (List.mem_append_right l hcm) p ((h.others c fun hcl => hdisjoint hcl hcm).symm.trans hp)
  drew := by
    obtain ⟨i, hi, hdrew⟩ := h.drew
    obtain ⟨j, hj, hdrew'⟩ := k.drew
    exact ⟨i + j, by rw [List.length_append]; omega, hdrew.trans hdrew'⟩

end Polled

section

variable {c : Nat} {s t : State}

/-- A busy channel's part (R134). -/
theorem polled_of_busy {p q : PolledDma} {irq : PdmaIrq} {u : State} (hs : Pollable s) (hp : s.pdma[c]? = some p)
    (hbusy : p.busy = true) (hirq : s.cfg.pdmaIrq[c]? = some irq) (hmove : pdmaMove c p s = .ok (q, u)) :
    Polled [c] s (served c irq (q, u)) := by
  have hchunk := (pdmaMove_ok hmove).1
  have hmoves := served_moves (q := q) hs hchunk hirq
  have houtcome : MoveOutcome c p s (.ok (q, u)) := hmove ▸ pdmaMove_outcome (hs.region hp hbusy)
  have hpdma : (served c irq (q, u)).pdma = s.pdma.set c q.finished := served_pdma hchunk
  have hchannel : (served c irq (q, u)).pdma[c]? = some q.finished := by
    rw [hpdma, List.getElem?_set_self (List.getElem?_eq_some_iff.1 hp).1]
  have hids : completedAt s (served c irq (q, u)) c = raisedBy irq q := by
    rw [completedAt_eq hp hchannel hirq, raisedBy]
    cases q.finished.busy <;> simp [hbusy]
  constructor
  case raised =>
    rw [List.flatMap_singleton, hids]
    exact eq_polledTo_self (served_eq hchunk)
  case cfg => rw [hmoves.cfg, hchunk.setPdma_eq]; rfl
  case served =>
    intro j hj p' hp'
    obtain rfl := List.mem_singleton.1 hj
    obtain rfl := Option.some.inj (hp.symm.trans hp')
    exact ⟨_, hchannel, servedTo_of_move hbusy houtcome⟩
  case others =>
    intro j hj
    rw [hpdma, List.getElem?_set_ne fun hcj => hj (List.mem_singleton.2 hcj.symm)]
  case bytes =>
    intro x hx
    rw [hmoves.byteAt]
    refine pdmaMove_bytes hs.ramWf (hs.region hp hbusy) hmove x fun ⟨hdir, hrange⟩ => ?_
    exact hx c List.mem_cons_self p hp ⟨hbusy, hdir, hrange⟩
  case drew =>
    obtain ⟨k, hk, hdrew⟩ := houtcome.drew
    exact ⟨k, hk, hdrew.congr hmoves.draws hmoves.drawsTaken⟩

/-- An idle channel's part (R134). -/
theorem polled_of_idle {p : PolledDma} (hs : Pollable s) (hp : s.pdma[c]? = some p) (hidle : p.busy = false) :
    Polled [c] s s where
  raised := by
    obtain ⟨irq, hirq⟩ := hs.exists_irq hp
    have hids : completedAt s s c = [] := by
      rw [completedAt_eq hp hp hirq, if_neg fun h => absurd (h.1.symm.trans hidle) Bool.noConfusion]
    rw [List.flatMap_singleton, hids]
    rfl
  cfg := rfl
  served j hj p' hp' := by
    obtain rfl := List.mem_singleton.1 hj
    obtain rfl := Option.some.inj (hp.symm.trans hp')
    exact ⟨p, hp, fun _ => rfl, fun hbusy => absurd (hbusy.symm.trans hidle) Bool.noConfusion⟩
  others _ _ := rfl
  bytes _ _ := rfl
  drew := ⟨0, Nat.zero_le _, .of_eq rfl rfl⟩

theorem pdmaChannel_polled (hs : Pollable s) (h : pdmaChannel c s = .ok t) : Polled [c] s t := by
  obtain ⟨p, hp, -⟩ := pdmaChannel_ok h
  obtain ⟨irq, hirq⟩ := hs.exists_irq hp
  cases hbusy : p.busy with
  | false =>
    rw [pdmaChannel_idle hp hbusy] at h
    cases h
    exact polled_of_idle hs hp hbusy
  | true =>
    rw [pdmaChannel_busy hs hp hbusy hirq] at h
    cases hmove : pdmaMove c p s with
    | error e => rw [hmove] at h; cases h
    | ok x =>
      rw [hmove] at h
      cases h
      exact polled_of_busy hs hp hbusy hirq hmove

/-- R135: a channel's part fails only on an impossible answer, one of its first two. -/
theorem pdmaChannel_error {e : Stop} (hs : Pollable s) (hc : c < s.cfg.nPdma) (h : pdmaChannel c s = .error e) :
    e = .raised .extHandler ∧ ∃ n, n < 2 ∧ (drawAt s n).impossible = true := by
  obtain ⟨p, hp⟩ := hs.exists_channel hc
  obtain ⟨irq, hirq⟩ := hs.exists_irq hp
  cases hbusy : p.busy with
  | false => rw [pdmaChannel_idle hp hbusy] at h; cases h
  | true =>
    rw [pdmaChannel_busy hs hp hbusy hirq] at h
    have houtcome := pdmaMove_outcome (c := c) (hs.region hp hbusy)
    cases hmove : pdmaMove c p s with
    | ok x => rw [hmove] at h; cases h
    | error e' =>
      rw [hmove] at h houtcome
      cases h
      cases houtcome with
      | impossible hlt hbad => exact ⟨rfl, hbad.elim (fun h0 => ⟨0, by omega, h0⟩) fun h1 => ⟨1, by omega, h1.2⟩⟩

end

/-- The part of any channels, one after another (R134). -/
theorem pdmaChannels_polled {l : List Nat} {s t : State} (hs : Pollable s) (hl : l.Nodup)
    (h : pdmaChannels l s = .ok t) : Polled l s t := by
  induction l generalizing s with
  | nil => cases h; exact .nil _
  | cons c l ih =>
    obtain ⟨u, hfirst, hrest⟩ := res_bind_eq_ok.1 h
    obtain ⟨hc, hl⟩ := List.nodup_cons.1 hl
    exact (pdmaChannel_polled hs hfirst).append (List.singleton_disjoint.2 hc) (ih (hs.pdmaChannel hfirst) hl hrest)

/-- R135: the part of any channels fails only on an impossible answer, one of the first two for each. -/
theorem pdmaChannels_error {l : List Nat} {s : State} {e : Stop} (hs : Pollable s) (hl : ∀ c ∈ l, c < s.cfg.nPdma)
    (h : pdmaChannels l s = .error e) :
    e = .raised .extHandler ∧ ∃ n, n < 2 * l.length ∧ (drawAt s n).impossible = true := by
  induction l generalizing s with
  | nil => cases h
  | cons c l ih =>
    rcases res_bind_eq_error.1 h with hfirst | ⟨u, hfirst, hrest⟩
    · obtain ⟨he, n, hn, hbad⟩ := pdmaChannel_error hs (hl c List.mem_cons_self) hfirst
      exact ⟨he, n, by rw [List.length_cons]; omega, hbad⟩
    · have hpolled := pdmaChannel_polled hs hfirst
      obtain ⟨k, hk, hdrew⟩ := hpolled.drew
      obtain ⟨he, n, hn, hbad⟩ := ih (hs.pdmaChannel hfirst)
        (fun j hj => by rw [hpolled.cfg]; exact hl j (List.mem_cons_of_mem c hj)) hrest
      rw [hdrew.drawAt_eq] at hbad
      exact ⟨he, k + n, by rw [List.length_cons]; rw [List.length_singleton] at hk; omega, hbad⟩

theorem pdmaStep_polled {s t : State} (hs : Pollable s) (h : pdmaStep s = .ok t) :
    Polled (List.range s.cfg.nPdma) s t := pdmaChannels_polled hs List.nodup_range h

theorem pdmaStep_error {s : State} {e : Stop} (hs : Pollable s) (h : pdmaStep s = .error e) :
    e = .raised .extHandler ∧ ∃ n, n < 2 * s.cfg.nPdma ∧ (drawAt s n).impossible = true := by
  have herror := pdmaChannels_error hs (fun c hc => List.mem_range.1 hc) h
  rwa [List.length_range] at herror

/-- With draws that report no impossible backend the polled step completes (R135). -/
theorem pdmaStep_completes {s : State} (hs : Pollable s) (hserve : DrawsServe s) : ∃ t, pdmaStep s = .ok t := by
  cases h : pdmaStep s with
  | ok t => exact ⟨t, rfl⟩
  | error e =>
    obtain ⟨-, n, hn, hbad⟩ := pdmaStep_error hs h
    rw [possible_of_drawsServe hserve hn] at hbad
    cases hbad

end Sys2Proof.Machine
end

section
/-! PROOF. The statements about the polled step as a whole (43_dma R134 to R137): what it serves, the ids it raises, and
the backend that reports an impossible state, in a step of its own and in a TICK. -/

namespace Sys2Proof.Machine

open Sys2Proof.Claims

/-! ### What the step leaves (43_dma R134, R137) -/

theorem State.Inv.begun {s : State} (hs : s.Inv) : s.begun.Inv := { hs with }

/-- Settles O54: the listed draws let the step complete, and it is the part of every channel. -/
theorem polledStepServesEveryChannel : Obligations.PolledStepServesEveryChannel := by
  intro s hs hf hserve
  have hpollable : Pollable s.begun := hs.begun.pollable
  obtain ⟨t, ht⟩ := pdmaStep_completes hpollable hserve
  have hpolled := pdmaStep_polled hpollable ht
  refine ⟨t, exec_ok hf ht, (pdmaStep_moves ht).frame, fun c p hp => ?_, fun x hx => ?_, fun hidle => ?_⟩
  · have hc : c < s.cfg.nPdma := hs.pdmaLength ▸ (List.getElem?_eq_some_iff.1 hp).1
    exact hpolled.served c (List.mem_range.2 hc) p hp
  · exact hpolled.bytes x fun c _ p hp => hx p (List.mem_of_getElem? hp)
  · exact Except.ok.inj (ht.symm.trans (pdmaStep_idle (s := s.begun) hs.pdmaLength hidle))

/-! ### The ids of a step (43_dma R134 part 3) -/

/-- A list's parts in order are the parts of its indices. -/
theorem flatMap_eq_flatMap_range {α β : Type} (f : α → List β) (l : List α) :
    l.flatMap f = (List.range l.length).flatMap fun i => (l[i]?).elim [] f := by
  induction l with
  | nil => rfl
  | cons a l ih =>
    rw [List.length_cons, List.range_succ_eq_map, List.flatMap_cons, List.flatMap_cons, List.flatMap_map, ih]
    rfl

theorem completedIds_eq {s t : State} (hs : Pollable s) (hlen : t.pdma.length = s.pdma.length) :
    completedIds s t = (List.range s.cfg.nPdma).flatMap (completedAt s t) := by
  have hirqs : s.cfg.pdmaIrq.length = s.cfg.nPdma := rfl
  have hzip : ((s.pdma.zip t.pdma).zip s.cfg.pdmaIrq).length = s.cfg.nPdma := by
    rw [List.length_zip, List.length_zip, hlen, hs.length, hirqs, Nat.min_self, Nat.min_self]
  rw [completedIds, flatMap_eq_flatMap_range, hzip]
  refine List.flatMap_congr fun c hc => ?_
  obtain ⟨p, hp⟩ := hs.exists_channel (List.mem_range.1 hc)
  obtain ⟨irq, hirq⟩ := hs.exists_irq hp
  obtain ⟨q, hq⟩ : ∃ q, t.pdma[c]? = some q :=
    ⟨_, List.getElem?_eq_getElem (hlen ▸ (List.getElem?_eq_some_iff.1 hp).1)⟩
  have hc : ((s.pdma.zip t.pdma).zip s.cfg.pdmaIrq)[c]? = some ((p, q), irq) :=
    List.getElem?_zip_eq_some.2 ⟨List.getElem?_zip_eq_some.2 ⟨hp, hq⟩, hirq⟩
  rw [hc, completedAt_eq hp hq hirq]
  rfl

/-- R134 part 3: the polled step is the raises of the ids of the channels that complete in it, beside what it moves. -/
theorem pdmaStep_raised {s t : State} (hs : Pollable s) (h : pdmaStep s = .ok t) :
    t = (raisedAll (completedIds s t) s).polledTo t := by
  rw [completedIds_eq hs (pdmaStep_moves h).pdmaLength]
  exact (pdmaStep_polled hs h).raised

/-! ### The step of a lone busy channel (43_dma R134) -/

theorem ChunkMoves.fault {s u : State} (h : ChunkMoves s u) : u.fault = s.fault := by rw [h.frame]

/-- What the step of a lone busy channel leaves, where its part 1 left the channel as `q` and the state `u`. -/
structure LoneStep (c : Nat) (q : PolledDma) (s u t : State) : Prop where
  exec : exec .pdmaStep s = .next t
  fault : t.fault = none
  pdma : t.pdma = s.pdma.set c q.finished
  intc : IntcMoves (u.setPdma c q.finished) t

theorem loneStep_of_move {s u : State} {c : Nat} {p q : PolledDma} {irq : PdmaIrq} (hs : s.Inv) (hf : s.fault = none)
    (hlone : LoneBusy s c p) (hirq : s.cfg.pdmaIrq[c]? = some irq) (hmove : pdmaMove c p s.begun = .ok (q, u)) :
    LoneStep c q s u (served c irq (q, u)) := by
  obtain ⟨hp, hbusy, hothers⟩ := hlone
  have hc := (List.getElem?_eq_some_iff.1 hp).1
  have hchunk := (pdmaMove_ok hmove).1
  have hintc := served_moves (q := q) hs.begun.pollable hchunk hirq
  refine ⟨exec_ok hf ?_, hintc.fault.trans (hchunk.fault.trans hf), served_pdma (s := s.begun) hchunk, hintc⟩
  rw [show meaning .pdmaStep s.begun = pdmaStep s.begun from rfl, pdmaStep_lone hs.begun.pdmaLength hc hothers,
    pdmaChannel_busy hs.begun.pollable hp hbusy hirq, hmove]
  rfl

section

variable {c : Nat} {p : PolledDma} {s : State}

theorem pdmaMove_dataless (h : ¬ p.transferred < p.count) : pdmaMove c p s = .ok (p, s) := by
  rw [pdmaMove, if_neg h]
  rfl

variable (hr : p.regionOk s.cfg p.dir = true) (hlt : p.transferred.toNat < p.count.toNat)
include hr hlt

/-- R134 part 1: a device that is not ready leaves the chunk for a later step. -/
theorem pdmaMove_waits (hfirst : (drawAt s 0).impossible = false) (hwait : (drawAt s 0).ready = false) :
    pdmaMove c p s = .ok (p, (takeDraw s).2) := by
  have h := pdmaMove_outcome (c := c) hr
  generalize pdmaMove c p s = r at h ⊢
  cases h with
  | dataless hall => exact absurd (BitVec.lt_def.2 hlt) hall
  | waits => rfl
  | chunk _ _ _ hready => rw [hwait] at hready; cases hready
  | impossible _ hbad => simp [hfirst, hwait] at hbad

/-- R135: an answer that reports an impossible backend stops the channel's step. -/
theorem pdmaMove_impossible
    (hbad : (drawAt s 0).impossible = true ∨ ((drawAt s 0).ready = true ∧ (drawAt s 1).impossible = true)) :
    pdmaMove c p s = .error (.raised .extHandler) := by
  have h := pdmaMove_outcome (c := c) hr
  generalize pdmaMove c p s = r at h ⊢
  cases h with
  | dataless hall => exact absurd (BitVec.lt_def.2 hlt) hall
  | waits _ hfirst hwait => simp [hfirst, hwait] at hbad
  | chunk u _ hfirst hready hmove =>
    have hsecond := ((drew_takeDraw hfirst).trans (moveChunk_drew hmove)).possible 1 Nat.one_lt_two
    simp [hfirst, hsecond] at hbad
  | impossible => rfl

variable (hfirst : (drawAt s 0).impossible = false) (hready : (drawAt s 0).ready = true)
  (hsecond : (drawAt s 1).impossible = false)
include hfirst hready hsecond

/-- R134 part 1: a ready device takes or gives one chunk. -/
theorem pdmaMove_chunk : ∃ u, pdmaMove c p s = .ok (p.afterChunk s.cfg, u) ∧ Drew 2 s u ∧
    moveChunk c (chunkSize s.cfg p) p (takeDraw s).2 = .ok u := by
  have h := pdmaMove_outcome (c := c) hr
  generalize pdmaMove c p s = r at h ⊢
  cases h with
  | dataless hall => exact absurd (BitVec.lt_def.2 hlt) hall
  | waits _ _ hwait => rw [hready] at hwait; cases hwait
  | chunk u _ _ _ hmove => exact ⟨u, rfl, (drew_takeDraw hfirst).trans (moveChunk_drew hmove), hmove⟩
  | impossible _ hbad => simp [hfirst, hsecond] at hbad

/-- R134: an IN chunk is the bytes of the second draw, at dst + transferred. -/
theorem pdmaMove_inward (hm : Memory.wf s.ram = true) (hdir : p.dir = .inward) :
    ∃ u, pdmaMove c p s = .ok (p.afterChunk s.cfg, u) ∧ Drew 2 s u ∧ u.devOut = s.devOut ∧ ∀ x, u.byteAt x =
      if p.dst.toNat + p.transferred.toNat ≤ x ∧ x < p.dst.toNat + p.transferred.toNat + nextChunk s.cfg p then
        some ((drawAt s 1).data.getD (x - (p.dst.toNat + p.transferred.toNat)) 0)
      else s.byteAt x := by
  obtain ⟨u, hmove, hdrew, hchunk⟩ := pdmaMove_chunk (c := c) hr hlt hfirst hready hsecond
  obtain ⟨-, hwrite⟩ := moveChunk_inward_ok hdir hchunk
  rw [(drew_takeDraw hfirst).drawAt_eq] at hwrite
  refine ⟨u, hmove, hdrew, ?_, fun x => ?_⟩
  · rw [memWrite_ram hwrite]
    exact (takeDraw_devOut _).trans (takeDraw_devOut s)
  · rw [byteAt_memWrite (by rwa [takeDraw_ram, takeDraw_ram]) hwrite, exactBytes_length,
      (writable_chunk hr hdir (BitVec.lt_def.2 hlt)).2, byteAt_takeDraw, byteAt_takeDraw]
    refine ite_congr rfl (fun ⟨hlow, hhigh⟩ => ?_) fun _ => rfl
    exact congrArg some (exactBytes_getD _ _ _ (Nat.sub_lt_left_of_lt_add hlow hhigh))

/-- R134: an OUT chunk is the bytes at src + transferred, in address order, to the channel's device. -/
theorem pdmaMove_outward (hdir : p.dir = .outward) :
    ∃ u b, pdmaMove c p s = .ok (p.afterChunk s.cfg, u) ∧ Drew 2 s u ∧ u.ram = s.ram ∧
      u.devOut = s.devOut ++ [(c, b)] ∧ b.length = nextChunk s.cfg p ∧
      ∀ j, j < b.length → s.byteAt (p.src.toNat + p.transferred.toNat + j) = b[j]? := by
  obtain ⟨u, hmove, hdrew, hchunk⟩ := pdmaMove_chunk (c := c) hr hlt hfirst hready hsecond
  obtain ⟨-, hu⟩ := moveChunk_outward_ok hdir hchunk
  obtain ⟨hreadable, haddr⟩ := readable_chunk hr hdir (BitVec.lt_def.2 hlt)
  refine ⟨u, (takeDraw s).2.bytesAt (p.src + p.transferred).toNat (chunkSize s.cfg p), hmove, hdrew, ?_, ?_,
    bytesAt_length _ _ _, fun j hj => ?_⟩
  · rw [hu]
    exact (takeDraw_ram _).trans (takeDraw_ram s)
  · rw [hu, takeDraw_devOut]
  · rw [bytesAt_length] at hj
    rw [bytesAt_getElem? _ _ _ _ hj, haddr, byteAt_takeDraw]
    rcases (readable_iff _ _ _).1 hreadable with hzero | ⟨-, hin⟩
    · omega
    · obtain ⟨v, hv⟩ := byteAt_isSome s (p.src.toNat + p.transferred.toNat + j) (hin _ (by omega) (by omega))
      rw [hv]
      rfl

end

/-! ### The chunk of a lone busy channel (43_dma R134 part 1) -/

theorem drawAt_zero {s : State} {d : Draw} {l : List Draw} (h : s.draws = d :: l) : drawAt s 0 = d := by
  rw [drawAt, h]; rfl

theorem drawAt_one {s : State} {d e : Draw} {l : List Draw} (h : s.draws = d :: e :: l) : drawAt s 1 = e := by
  rw [drawAt, h]; rfl

section

variable {s : State} {c : Nat} {p : PolledDma} {d e : Draw} {rest : List Draw} (hs : s.Inv) (hf : s.fault = none)
  (hlone : LoneBusy s c p) (hlt : p.transferred.toNat < p.count.toNat) (hdraws : s.draws = d :: e :: rest)
  (hd : d.impossible = false)
include hs hf hlone hlt hdraws hd

/-- A device that is not ready costs the first draw alone. -/
theorem loneStep_waits (hwait : d.ready = false) :
    ∃ t, LoneStep c p s (takeDraw s.begun).2 t ∧ t.draws = e :: rest := by
  have hfirst : drawAt s.begun 0 = d := drawAt_zero hdraws
  have ⟨hp, hbusy, _⟩ := hlone
  obtain ⟨irq, hirq⟩ := hs.pollable.exists_irq hp
  have hr := hs.begun.pollable.region hp hbusy
  have hstep := loneStep_of_move hs hf hlone hirq (pdmaMove_waits hr hlt (hfirst ▸ hd) (hfirst ▸ hwait))
  refine ⟨_, hstep, hstep.intc.draws.trans ((drew_takeDraw (hfirst ▸ hd)).draws.trans ?_)⟩
  rw [State.begun_draws, hdraws]
  rfl

variable (he : e.impossible = false) (hready : d.ready = true)
include he hready

/-- With a ready device the step of an IN channel is that of `pdmaMove_inward`. -/
theorem loneStep_inward (hdir : p.dir = .inward) : ∃ u t, LoneStep c (p.afterChunk s.cfg) s u t ∧ t.draws = rest ∧
    u.devOut = [] ∧ ∀ x, u.byteAt x =
      if p.dst.toNat + p.transferred.toNat ≤ x ∧ x < p.dst.toNat + p.transferred.toNat + nextChunk s.cfg p then
        some (e.data.getD (x - (p.dst.toNat + p.transferred.toNat)) 0)
      else s.byteAt x := by
  have hfirst : drawAt s.begun 0 = d := drawAt_zero hdraws
  have hsecond : drawAt s.begun 1 = e := drawAt_one hdraws
  have ⟨hp, hbusy, _⟩ := hlone
  obtain ⟨irq, hirq⟩ := hs.pollable.exists_irq hp
  have hr := hs.begun.pollable.region hp hbusy
  obtain ⟨u, hmove, hdrew, hout, hbytes⟩ := pdmaMove_inward (c := c) hr hlt (hfirst ▸ hd) (hfirst ▸ hready)
    (hsecond ▸ he) hs.ramWf hdir
  have hstep := loneStep_of_move hs hf hlone hirq hmove
  rw [hsecond] at hbytes
  refine ⟨u, _, hstep, hstep.intc.draws.trans (hdrew.draws.trans ?_), hout, hbytes⟩
  rw [State.begun_draws, hdraws]
  rfl

/-- With a ready device the step of an OUT channel is that of `pdmaMove_outward`. -/
theorem loneStep_outward (hdir : p.dir = .outward) : ∃ u t b, LoneStep c (p.afterChunk s.cfg) s u t ∧
    t.draws = rest ∧ u.ram = s.ram ∧ u.devOut = [(c, b)] ∧ b.length = nextChunk s.cfg p ∧
      ∀ j, j < b.length → s.byteAt (p.src.toNat + p.transferred.toNat + j) = b[j]? := by
  have hfirst : drawAt s.begun 0 = d := drawAt_zero hdraws
  have hsecond : drawAt s.begun 1 = e := drawAt_one hdraws
  have ⟨hp, hbusy, _⟩ := hlone
  obtain ⟨irq, hirq⟩ := hs.pollable.exists_irq hp
  have hr := hs.begun.pollable.region hp hbusy
  obtain ⟨u, b, hmove, hdrew, hsent⟩ := pdmaMove_outward (c := c) hr hlt (hfirst ▸ hd) (hfirst ▸ hready)
    (hsecond ▸ he) hdir
  have hstep := loneStep_of_move hs hf hlone hirq hmove
  refine ⟨u, _, b, hstep, hstep.intc.draws.trans (hdrew.draws.trans ?_), hsent⟩
  rw [State.begun_draws, hdraws]
  rfl

end

/-- Settles O55: by whether the first draw says ready. -/
theorem polledInChunkLandsInMemory : Obligations.PolledInChunkLandsInMemory := by
  intro s c p d e rest hs hf hlone hdir hlt hdraws hd he
  cases hready : d.ready with
  | false =>
    obtain ⟨t, h, hrest⟩ := loneStep_waits hs hf hlone hlt hdraws hd hready
    refine ⟨t, p.finished, h.exec, h.fault, h.pdma, h.intc.devOut.trans (takeDraw_devOut _), fun _ => ⟨hrest, rfl, ?_⟩,
      fun hno => absurd hno Bool.false_ne_true⟩
    exact fun x => (h.intc.byteAt x).trans (byteAt_takeDraw s.begun x)
  | true =>
    obtain ⟨u, t, h, hrest, hout, hbytes⟩ := loneStep_inward hs hf hlone hlt hdraws hd he hready hdir
    refine ⟨t, (p.afterChunk s.cfg).finished, h.exec, h.fault, h.pdma, h.intc.devOut.trans hout,
      fun hno => absurd hno.symm Bool.false_ne_true,
      fun _ => ⟨hrest, (chunk_advances (BitVec.lt_def.2 hlt)).1, fun j hj => ?_, fun x hx => ?_⟩⟩
    · refine (h.intc.byteAt _).trans ((hbytes _).trans ?_)
      rw [if_pos ⟨Nat.le_add_right _ _, Nat.add_lt_add_left hj _⟩, Nat.add_sub_cancel_left]
    · exact (h.intc.byteAt x).trans ((hbytes x).trans (if_neg hx))

/-- Settles O56: by whether the first draw says ready. -/
theorem polledOutChunkReachesTheDevice : Obligations.PolledOutChunkReachesTheDevice := by
  intro s c p d e rest hs hf hlone hdir hlt hdraws hd he
  cases hready : d.ready with
  | false =>
    obtain ⟨t, h, hrest⟩ := loneStep_waits hs hf hlone hlt hdraws hd hready
    exact ⟨t, p.finished, h.exec, h.fault, h.pdma, h.intc.ram.trans (takeDraw_ram _),
      fun _ => ⟨hrest, rfl, h.intc.devOut.trans (takeDraw_devOut _)⟩, fun hno => absurd hno Bool.false_ne_true⟩
  | true =>
    obtain ⟨u, t, b, h, hrest, hram, hout, hsent⟩ := loneStep_outward hs hf hlone hlt hdraws hd he hready hdir
    exact ⟨t, (p.afterChunk s.cfg).finished, h.exec, h.fault, h.pdma, h.intc.ram.trans hram,
      fun hno => absurd hno.symm Bool.false_ne_true,
      fun _ => ⟨hrest, (chunk_advances (BitVec.lt_def.2 hlt)).1, b, h.intc.devOut.trans hout, hsent⟩⟩

/-! ### The completion of a lone busy channel (43_dma R134 part 3) -/

section

variable {irq : PdmaIrq} {q : PolledDma}

theorem raisedBy_of_done (hall : q.transferred = q.count) (hwait : (waitAfter q).toInt ≤ 0) :
    raisedBy irq q = completionIds irq := if_neg fun h => finished_busy_iff.1 h ⟨hall, hwait⟩

theorem finished_of_done (hall : q.transferred = q.count) (hwait : (waitAfter q).toInt ≤ 0) :
    q.finished = { q with wait := waitAfter q, busy := false } := by
  simp [PolledDma.finished, hall, hwait]

variable (h : ¬ (q.transferred = q.count ∧ (waitAfter q).toInt ≤ 0))
include h

theorem raisedBy_of_pending : raisedBy irq q = [] := if_pos (finished_busy_iff.2 h)

theorem finished_of_pending (hbusy : q.busy = true) : q.finished = { q with wait := waitAfter q } := by
  have hfinished := finished_busy_iff.2 h
  rw [← hbusy] at hfinished
  show { q with wait := waitAfter q, busy := q.finished.busy } = { q with wait := waitAfter q }
  rw [hfinished]

end

/-- R134: `transferred` after a chunk, as a number. -/
theorem afterChunk_transferred {c : Config} {p : PolledDma} (hlt : p.transferred < p.count) :
    (p.afterChunk c).transferred = BitVec.ofNat 32 (p.transferred.toNat + nextChunk c p) := by
  obtain ⟨hadd, hle⟩ := chunk_advances (c := c) hlt
  change p.transferred.toNat + nextChunk c p ≤ p.count.toNat at hle
  apply BitVec.eq_of_toNat_eq
  rw [BitVec.toNat_ofNat, Nat.mod_eq_of_lt (Nat.lt_of_le_of_lt hle p.count.isLt)]
  exact hadd

/-- R134: a chunk is the last one when no more than PDMA_CHUNK is left. -/
theorem afterChunk_last_iff {c : Config} {p : PolledDma} (hlt : p.transferred < p.count) :
    (p.afterChunk c).transferred = p.count ↔ p.count.toNat - p.transferred.toNat ≤ c.pdmaChunk := by
  have hadd : (p.afterChunk c).transferred.toNat = p.transferred.toNat + chunkSize c p := (chunk_advances hlt).1
  have hlt := BitVec.lt_def.1 hlt
  rw [← BitVec.toNat_inj, hadd, chunkSize]
  omega

/-- What a lone busy channel's step leaves of the state before it. -/
theorem served_begun_eq {c : Nat} {irq : PdmaIrq} {q : PolledDma} {s u : State} (hchunk : ChunkMoves s.begun u) :
    served c irq (q, u) = { raisedAll (raisedBy irq q) s with
      pdma := s.pdma.set c q.finished
      ram := u.ram, draws := u.draws, drawsTaken := u.drawsTaken, reply := none, devOut := u.devOut } := by
  have hpdma : u.pdma = s.pdma := by rw [hchunk.frame]; rfl
  rw [served_eq hchunk, raisedAll_begun, ← hpdma]
  rfl

/-- With all data moved, the step finishes the channel, and moves nothing. -/
theorem exec_pdmaStep_dataless {s : State} {c : Nat} {p : PolledDma} {irq : PdmaIrq} (hs : s.Inv) (hf : s.fault = none)
    (hlone : LoneBusy s c p) (hirq : s.cfg.pdmaIrq[c]? = some irq) (hall : p.transferred = p.count) :
    exec .pdmaStep s =
      .next (silent (raisedAll (raisedBy irq p) { s with pdma := s.pdma.set c p.finished })) := by
  have hmove := pdmaMove_dataless (c := c) (s := s.begun) (by rw [hall]; exact BitVec.lt_irrefl p.count)
  rw [(loneStep_of_move hs hf hlone hirq hmove).exec]
  exact congrArg Host.Outcome.next (raisedAll_begun (raisedBy irq p) { s with pdma := s.pdma.set c p.finished })

/-- Settles O57: the raises of any step are `pdmaStep_raised`, and a lone busy channel's are its ids when its last byte
has moved and its wait has run out. -/
theorem polledCompletionRaisesItsIds : Obligations.PolledCompletionRaisesItsIds := by
  constructor
  · intro s hs hf hserve
    obtain ⟨t, ht⟩ := pdmaStep_completes hs.begun.pollable hserve
    refine ⟨t, exec_ok hf ht, (pdmaStep_raised hs.begun.pollable ht).trans ?_⟩
    rw [raisedAll_begun]
    rfl
  · intro s c p irq hs hf hlone hirq
    have ⟨hp, hbusy, _⟩ := hlone
    refine ⟨fun hall hwait => ?_, fun hall hwait => ?_, fun d e rest hlt hdraws hd he hready => ?_⟩
    · rw [exec_pdmaStep_dataless hs hf hlone hirq hall, raisedBy_of_done hall hwait, finished_of_done hall hwait]
    · have hpending : ¬ (p.transferred = p.count ∧ (waitAfter p).toInt ≤ 0) := fun h => by omega
      rw [exec_pdmaStep_dataless hs hf hlone hirq hall, raisedBy_of_pending hpending,
        finished_of_pending hpending hbusy]
      rfl
    · have hfirst : drawAt s.begun 0 = d := drawAt_zero hdraws
      have hsecond : drawAt s.begun 1 = e := drawAt_one hdraws
      have hlt' := BitVec.lt_def.2 hlt
      have hlast := afterChunk_last_iff (c := s.cfg) hlt'
      obtain ⟨u, hmove, hdrew, -⟩ := pdmaMove_chunk (c := c) (hs.begun.pollable.region hp hbusy) hlt
        (hfirst ▸ hd) (hfirst ▸ hready) (hsecond ▸ he)
      rw [State.begun_cfg] at hmove
      have hexec := (loneStep_of_move hs hf hlone hirq hmove).exec
      have hrest : u.draws = rest := by rw [hdrew.draws, State.begun_draws, hdraws]; rfl
      have htaken : u.drawsTaken = s.drawsTaken + 2 := hdrew.taken
      rw [served_begun_eq (pdmaMove_ok hmove).1, hrest, htaken] at hexec
      refine ⟨u.ram, u.devOut, fun hleft hwait => ?_, fun hleft => ?_⟩
      · have hall := hlast.2 hleft
        rw [hexec, raisedBy_of_done hall hwait, finished_of_done hall hwait, hall]
        rfl
      · have hpending : ¬ ((p.afterChunk s.cfg).transferred = p.count ∧ (waitAfter p).toInt ≤ 0) :=
          fun h => by have := hlast.1 h.1; omega
        rw [hexec, raisedBy_of_pending hpending, finished_of_pending hpending hbusy, afterChunk_transferred hlt']
        rfl

end Sys2Proof.Machine
end

section
/-! PROOF. A backend that reports an impossible state (43_dma R135, 60_exceptions R152), in a polled step of its own
and in a TICK. -/

namespace Sys2Proof.Machine

open Sys2Proof.Claims

/-! ### The first channel with data left (43_dma R134, R135) -/

/-- A channel that is idle or has moved all its data. -/
def Dataless (s : State) (c : Nat) : Prop := ∀ p, s.pdma[c]? = some p → p.busy = true → p.transferred = p.count

/-- Such a channel's part completes without a draw. -/
theorem pdmaChannel_dataless {c : Nat} {s : State} (hs : Pollable s) (hc : c < s.cfg.nPdma) (h : Dataless s c) :
    ∃ t, pdmaChannel c s = .ok t ∧ Drew 0 s t := by
  obtain ⟨p, hp⟩ := hs.exists_channel hc
  obtain ⟨irq, hirq⟩ := hs.exists_irq hp
  cases hbusy : p.busy with
  | false => exact ⟨s, pdmaChannel_idle hp hbusy, .of_eq rfl rfl⟩
  | true =>
    have hmove := pdmaMove_dataless (c := c) (s := s) (by rw [h p hp hbusy]; exact BitVec.lt_irrefl p.count)
    have hintc := served_moves (q := p) hs (ChunkMoves.refl s) hirq
    refine ⟨served c irq (p, s), ?_, .of_eq hintc.draws hintc.drawsTaken⟩
    rw [pdmaChannel_busy hs hp hbusy hirq, hmove]
    rfl

theorem pdmaChannels_dataless {l : List Nat} {s : State} (hs : Pollable s) (hl : l.Nodup)
    (h : ∀ c ∈ l, c < s.cfg.nPdma ∧ Dataless s c) : ∃ t, pdmaChannels l s = .ok t ∧ Drew 0 s t ∧ Pollable t := by
  induction l generalizing s with
  | nil => exact ⟨s, rfl, .of_eq rfl rfl, hs⟩
  | cons c l ih =>
    obtain ⟨hnot, hl⟩ := List.nodup_cons.1 hl
    obtain ⟨hc, hdataless⟩ := h c List.mem_cons_self
    obtain ⟨u, hfirst, hdrew⟩ := pdmaChannel_dataless hs hc hdataless
    have hpolled := pdmaChannel_polled hs hfirst
    obtain ⟨t, hrest, hdrew', ht⟩ := ih (hs.pdmaChannel hfirst) hl fun j hj => by
      obtain ⟨hlt, hj'⟩ := h j (List.mem_cons_of_mem c hj)
      have hother := hpolled.others j fun hjc => hnot (List.mem_singleton.1 hjc ▸ hj)
      exact ⟨by rwa [hpolled.cfg], fun p hp => hj' p (hother ▸ hp)⟩
    exact ⟨t, by rw [pdmaChannels, hfirst, res_bind_ok, hrest], hdrew.trans hdrew', ht⟩

/-- R135: the first channel with data left takes the first answer, and the second when that says ready. -/
theorem pdmaStep_impossible {c : Nat} {p : PolledDma} {s : State} (hs : Pollable s) (hp : s.pdma[c]? = some p)
    (hbusy : p.busy = true) (hlt : p.transferred.toNat < p.count.toNat) (hbefore : ∀ j, j < c → Dataless s j)
    (hbad : (drawAt s 0).impossible = true ∨ ((drawAt s 0).ready = true ∧ (drawAt s 1).impossible = true)) :
    pdmaStep s = .error (.raised .extHandler) := by
  have hc : c < s.cfg.nPdma := hs.length ▸ (List.getElem?_eq_some_iff.1 hp).1
  obtain ⟨m, hm⟩ := Nat.exists_eq_add_of_lt hc
  obtain ⟨t, hfirst, hdrew, ht⟩ := pdmaChannels_dataless hs (List.nodup_range (n := c)) fun j hj => by
    have hj := List.mem_range.1 hj
    exact ⟨Nat.lt_trans hj hc, hbefore j hj⟩
  have hpolled := pdmaChannels_polled hs List.nodup_range hfirst
  have hp' : t.pdma[c]? = some p :=
    (hpolled.others c fun hmem => Nat.lt_irrefl c (List.mem_range.1 hmem)).trans hp
  obtain ⟨irq, hirq⟩ := ht.exists_irq hp'
  have hmove : pdmaMove c p t = .error (.raised .extHandler) :=
    pdmaMove_impossible (ht.region hp' hbusy) hlt (by rwa [hdrew.drawAt_eq, hdrew.drawAt_eq])
  rw [pdmaStep, hm, Nat.add_assoc, List.range_add, List.range_succ_eq_map, List.map_cons, pdmaChannels_append, hfirst,
    res_bind_ok, pdmaChannels, Nat.add_zero, pdmaChannel_busy ht hp' hbusy hirq, hmove]
  rfl

/-! ### The polled step in an operation of its own and in a TICK (44_tick_driver R141) -/

/-- The polled step of instruction `i` runs from `a`: its outcome decides that of `i`, and `a` has the channels and the
draws of `s`. -/
structure PollsFrom (i : Instr) (s a : State) : Prop where
  pollable : Pollable a
  cfg : a.cfg = s.cfg
  pdma : a.pdma = s.pdma
  drew : Drew 0 s a
  completes : ∀ {t}, pdmaStep a = .ok t → ∃ u, exec i s = .next u ∧ u.fault = none ∧ u.drawsTaken = t.drawsTaken
  faults : pdmaStep a = .error (.raised .extHandler) → exec i s = .next (faulted .fatal .extHandler s)

/-- The polled step records no fault in the state it leaves. -/
theorem pdmaStep_fault {s t : State} (h : pdmaStep s = .ok t) : t.fault = s.fault := by
  rw [(pdmaStep_moves h).frame]

theorem pollsFrom_pdmaStep {s : State} (hs : s.Inv) (hf : s.fault = none) : PollsFrom .pdmaStep s s.begun where
  pollable := hs.begun.pollable
  cfg := rfl
  pdma := rfl
  drew := .of_eq rfl rfl
  completes ht := ⟨_, exec_ok hf ht, (pdmaStep_fault ht).trans hf, rfl⟩
  faults h := exec_raised .extHandler hf h

/-- The engines of a tick touch neither RAM nor the draws. -/
theorem tickEngines_kept (s : State) : (tickEngines s).ram = s.ram ∧ (tickEngines s).draws = s.draws ∧
    (tickEngines s).drawsTaken = s.drawsTaken ∧ (tickEngines s).fault = s.fault := by
  have hmoves := serviceTick_moves s
  rw [tickEngines_eq]
  exact ⟨hmoves.ram, hmoves.draws, hmoves.drawsTaken, hmoves.fault⟩

theorem pollsFrom_tick {s : State} (hs : s.Inv) (hf : s.fault = none) : ∃ a, PollsFrom .tick s a := by
  have hcfg : (tickEngines s.begun).cfg = s.cfg := (tickEngines_intc s.begun).cfg
  obtain ⟨hram, hdraws, htaken, hfault⟩ := tickEngines_kept s.begun
  have hids := Config.ocIds_of_wellFormed hs.cfgOk
  obtain ⟨a, ha⟩ := ocRaise_completes (s := tickEngines s.begun) (by rw [hcfg]; exact hids)
  have hraise := ocRaise_moves ha
  have hcfg' : a.cfg = s.cfg := hraise.cfg.trans hcfg
  have hpdma : a.pdma = s.pdma := hraise.pdma.trans (tickEngines_pdma s.begun)
  refine ⟨a, hs.pollable.congr hcfg' hpdma (hraise.ram.trans hram), hcfg', hpdma,
    .of_eq (hraise.draws.trans hdraws) (hraise.drawsTaken.trans htaken), fun {t} ht => ?_, fun h => ?_⟩
  · refine ⟨t.countTick, exec_ok hf (onTick_ok.2 ⟨a, t, ha, ht, rfl⟩), ?_, rfl⟩
    exact (pdmaStep_fault ht).trans (hraise.fault.trans (hfault.trans hf))
  · refine exec_raised .extHandler hf ?_
    simp only [meaning, onTick, ha, res_bind_ok, h, res_bind_error]

/-- Settles O58: the polled step fails on an impossible answer alone, and the first channel with data left takes the
first answers. -/
theorem impossibleBackendIsFatal : Obligations.ImpossibleBackendIsFatal := by
  intro s i hs hf hi
  obtain ⟨a, h⟩ : ∃ a, PollsFrom i s a := by
    rcases hi with rfl | rfl
    · exact ⟨s.begun, pollsFrom_pdmaStep hs hf⟩
    · exact pollsFrom_tick hs hf
  have hdraw : ∀ n, drawAt a n = drawAt s n := fun n => by rw [h.drew.drawAt_eq, Nat.zero_add]
  refine ⟨?_, fun c p hp hbusy hlt hbefore hbad => ?_⟩
  · cases hstep : pdmaStep a with
    | error e =>
      obtain ⟨rfl, n, hn, hbad⟩ := pdmaStep_error h.pollable hstep
      rw [h.cfg] at hn
      exact ⟨_, h.faults hstep, .inl ⟨rfl, n, hn, hdraw n ▸ hbad⟩⟩
    | ok t =>
      obtain ⟨k, -, hdrew⟩ := (pdmaStep_polled h.pollable hstep).drew
      obtain ⟨u, hexec, hfault, htaken⟩ := h.completes hstep
      have hdrew := h.drew.trans hdrew
      refine ⟨u, hexec, .inr ⟨hfault, fun n hn => hdrew.possible n ?_⟩⟩
      rw [htaken, hdrew.taken] at hn
      exact Nat.lt_of_add_lt_add_left hn
  · refine h.faults (pdmaStep_impossible h.pollable (h.pdma.symm ▸ hp) hbusy hlt (fun j hj q hq => ?_) ?_)
    · rw [h.pdma] at hq
      exact hbefore j q hj hq
    · rwa [hdraw, hdraw]

end Sys2Proof.Machine
end

section
/-! PROOF. The TICK (44_tick_driver R141): its steps, each run as an operation of its own, and its completion with what
its timers, channels and memory become. -/

namespace Sys2Proof.Machine

open Sys2Proof.Claims

/-! ### A step of the tick as an operation of its own (00_scope R8) -/

/-- An operation that never fails leaves its one result. -/
theorem eq_of_exec_next {i : Instr} {op : State → State} {s t : State} (hi : ∀ u, meaning i u = .ok (op u))
    (h : exec i s = .next t) : t = op s.begun := by
  obtain ⟨-, hok | ⟨code, herror, -⟩⟩ := exec_next.1 h
  · rw [hi] at hok
    exact (Except.ok.inj hok).symm
  · rw [hi] at herror
    cases herror

/-- R152: a next state without a fault is the result of the operation. -/
theorem meaning_ok_of_exec_next {i : Instr} {s t : State} (h : exec i s = .next t) (hf : t.fault = none) :
    meaning i s.begun = .ok t := by
  obtain ⟨-, hok | ⟨code, -, rfl⟩⟩ := exec_next.1 h
  · exact hok
  · rw [takeFault_fault] at hf
    cases hf

/-! The start of an operation clears `reply` and `devOut` (assumption 3). The steps of a tick before the polled one leave
both as they are, so the clearing between two of them changes nothing. -/

theorem IntcMoves.begun_eq {s t : State} (h : IntcMoves s t) (hs : s.begun = s) : t.begun = t := by
  rw [h.frame, ← hs]
  rfl

theorem serviceTick_begun (s : State) : (serviceTick s.begun).begun = serviceTick s.begun :=
  (serviceTick_moves s.begun).begun_eq rfl

theorem clockStep_begun (s : State) : (clockStep s).begun = clockStep s.begun := rfl

theorem countdownStep_begun (s : State) : (countdownStep s).begun = countdownStep s.begun := rfl

theorem ocCheck_begun (s : State) : (ocCheck s).begun = ocCheck s.begun := rfl

theorem tickEngines_begun (s : State) : (tickEngines s.begun).begun = tickEngines s.begun := by
  rw [tickEngines, ocCheck_begun, countdownStep_begun, clockStep_begun, serviceTick_begun]

/-- Settles O59: the four steps that cannot fault make up `tickEngines`, and the raises and the polled step continue from
there; the clearing at the start of a step takes effect only at the re-arm, on what the polled step sent. -/
theorem tickRunsItsStepsInOrder : Obligations.TickRunsItsStepsInOrder := by
  intro s a b c d e f g hs hservice hclock hcountdown hcheck hraise he hpolled hf hrearm
  have ha : a = serviceTick s.begun := eq_of_exec_next (fun _ => rfl) hservice
  have hb : b = clockStep a.begun := eq_of_exec_next (fun _ => rfl) hclock
  have hc : c = countdownStep b.begun := eq_of_exec_next (fun _ => rfl) hcountdown
  have hd : d = ocCheck c.begun := eq_of_exec_next (fun _ => rfl) hcheck
  have hg : g = f.countTick.begun := eq_of_exec_next (op := rearm) (fun _ => rfl) hrearm
  have hengines : d.begun = tickEngines s.begun := by
    simp only [hd, hc, hb, ha, ocCheck_begun, countdownStep_begun, clockStep_begun, serviceTick_begun, tickEngines]
  have hraised : ocRaise (tickEngines s.begun) = .ok e := hengines ▸ meaning_ok_of_exec_next hraise he
  have hebegun : e.begun = e := (ocRaise_moves hraised).begun_eq (tickEngines_begun s)
  have hstep : pdmaStep e = .ok f := hebegun ▸ meaning_ok_of_exec_next hpolled hf
  have hreply : f.reply = none := by
    rw [(pdmaStep_moves hstep).frame, ← hebegun]
    rfl
  have hlast : f.countTick = { g with devOut := f.devOut } := by
    rw [hg, State.countTick, hreply]
    rfl
  exact exec_ok hs (onTick_ok.2 ⟨e, f, hraised, hstep, hlast.symm⟩)

/-! ### The state the polled step of a tick starts from (44_tick_driver R141 steps 1 to 5) -/

/-- The steps before the polled one touch the Interrupt Controller's fields and the timers alone. -/
theorem raised_frame {s a : State} (h : ocRaise (tickEngines s) = .ok a) : a = { s with
    enabled := a.enabled, scheduled := a.scheduled, activeId := a.activeId, irqLine := a.irqLine
    ct := a.ct, clk := a.clk, oc := a.oc } := by
  rw [(ocRaise_moves h).frame, tickEngines_eq, (serviceTick_moves s).frame]

/-! ### What a tick leaves (42_timers R110, R116) -/

theorem TickMoves.countsDown {s t : State} (h : TickMoves s t) : t.ct = s.ct.map (ticked s.cfg.ctStep) := by
  rw [h.ct, funext (countdownNext_eq s.cfg.ctStep)]

theorem TickMoves.marks {s t : State} (h : TickMoves s t) (d : Domain) : t.oc.get d = (s.oc.get d).map fun o =>
    if o.active = true ∧ o.compare = advanced s d then { o with triggered := true } else o := by
  have hclk : clockNext s.cfg d (s.clk.get d) = advanced s d := rfl
  simp only [h.oc d, hclk, fires_iff]

/-- Settles O60: the raises complete because every slot has its id, and the polled step because the draws serve it; the
timers are the tick's own, and the channels and the memory are the polled step's. -/
theorem tickCompletes : Obligations.TickCompletes := by
  intro s hs hf hserve
  obtain ⟨a, ha⟩ := ocRaise_completes (s := tickEngines s.begun) (by
    rw [(tickEngines_intc s.begun).cfg]
    exact Config.ocIds_of_wellFormed hs.cfgOk)
  have hframe := raised_frame ha
  have hcfg : a.cfg = s.cfg := by rw [hframe]; rfl
  have hpdma : a.pdma = s.pdma := by rw [hframe]; rfl
  have hram : a.ram = s.ram := by rw [hframe]; rfl
  have hdraws : a.draws = s.draws := by rw [hframe]; rfl
  have hdevOut : a.devOut = [] := by rw [hframe]; rfl
  have hbytes : ∀ x, a.byteAt x = s.byteAt x := fun x => by rw [hframe]; rfl
  have hpollable : Pollable a := hs.pollable.congr hcfg hpdma hram
  obtain ⟨b, hb⟩ := pdmaStep_completes hpollable (by rwa [DrawsServe, hcfg, hdraws])
  have hpolled := pdmaStep_polled hpollable hb
  have htick : onTick s.begun = .ok b.countTick := onTick_ok.2 ⟨a, b, ha, hb, rfl⟩
  have hmoves := onTick_moves htick
  refine ⟨b.countTick, exec_ok hf htick, hmoves.fault.trans hf, hmoves.ticks, hmoves.advances, hmoves.countsDown,
    hmoves.marks, fun c p hp => ?channels, fun x hx => ?bytes, fun hidle => ?idle, hmoves.sdma, hmoves.rom,
    hmoves.backing, hmoves.ext, hmoves.reply⟩
  case channels =>
    have hc : c < a.cfg.nPdma := hpollable.length ▸ hpdma.symm ▸ (List.getElem?_eq_some_iff.1 hp).1
    rw [← hpdma] at hp
    rw [← hcfg]
    exact hpolled.served c (List.mem_range.2 hc) p hp
  case bytes =>
    refine (hpolled.bytes x fun c _ p hp => ?_).trans (hbytes x)
    rw [hpdma] at hp
    rw [hcfg]
    exact hx p (List.mem_of_getElem? hp)
  case idle =>
    obtain rfl : a = b := Except.ok.inj ((pdmaStep_idle hpollable.length (hpdma ▸ hidle)).symm.trans hb)
    exact ⟨hram, hpdma, hdevOut, hdraws⟩

end Sys2Proof.Machine
end

section
/-! PROOF. A step that faults (60_exceptions R152): no operation that completes records a fault, so a fault in the next
state is one the operation raised. -/

namespace Sys2Proof.Machine

open Sys2Proof.Claims

theorem activate_fault (id : Nat) (s : State) : (activate id s).fault = s.fault := by rw [activate_eq]

theorem register_fault {e : Entry} {s t : State} (h : register e s = .ok t) : t.fault = s.fault := by
  unfold register at h
  split at h
  · cases h
  split at h
  · cases h
    rfl
  · cases h

/-- Everything a stop that completes can have done (R105). -/
theorem stopCt_ok {k : Nat} {s t : State} (h : stopCt k s = .ok t) :
    ∃ x, s.ct[k]? = some x ∧ t = s.setCt k { x with enabled := false, current := 0 } := by
  obtain ⟨x, hx, hstop⟩ := withCt_ok h
  exact ⟨x, hx, (Except.ok.inj hstop).symm⟩

/-- R152: an operation that completes records no fault, whatever instruction runs it. The commands and the internal
operations have a case each; the others are the register operations. -/
theorem meaning_fault {i : Instr} {s t : State} (h : meaning i s = .ok t) : t.fault = s.fault := by
  cases hi : i <;> rw [hi] at h
  case readB => exact (access_keeps h).fault
  case readH => exact (access_keeps h).fault
  case readW => exact (access_keeps h).fault
  case writeB => exact (access_keeps h).fault
  case writeH => exact (access_keeps h).fault
  case writeW => exact (access_keeps h).fault
  case tick => exact (onTick_moves h).fault
  case illegal w =>
    simp only [meaning] at h
    split at h <;> cases h
  case register => exact register_fault h
  case activate id =>
    simp only [meaning] at h
    split at h
    · cases h
      exact activate_fault id s
    · cases h
  case trigger => exact (trigger_moves h).fault
  case period => cases h; rfl
  case serviceTick => cases h; exact (serviceTick_moves s).fault
  case clockStep => cases h; rfl
  case start =>
    obtain ⟨x, -, hstart⟩ := startCt_ok h
    exact hstart.fault
  case stop =>
    obtain ⟨x, -, rfl⟩ := stopCt_ok h
    rfl
  case countdownStep => cases h; rfl
  case setCompare => obtain ⟨o, -, rfl⟩ := setCompare_ok h; rfl
  case ocCheck => cases h; rfl
  case ocRaise => exact (ocRaise_moves h).fault
  case sdmaCopy => rw [sdmaCopy_ram h]
  case pdmaStep => exact pdmaStep_fault h
  case rearm => cases h; rfl
  all_goals exact (runOp_keeps (op := i) (by rw [hi]; exact h)).fault

/-- Settles O7: the fault of the next state is not the operation's own, which completes without one, so the step raised it
and took it on the state before. -/
theorem faultDiscardsTheStep : Obligations.FaultDiscardsTheStep := by
  intro i s t hf h hfault
  obtain ⟨-, hok | ⟨code, -, ht⟩⟩ := exec_next.1 h
  · exact absurd ((meaning_fault hok).trans hf) hfault
  · exact ⟨code, by rw [ht, takeFault_eq, kindOf_eq, faulted]⟩

end Sys2Proof.Machine
end

section
/-! PROOF. Reset and setup (70_reset R171, R172): what the reset state holds, and that registering the entries of a
well-formed configuration in order builds it (40_dispatch R69). -/

namespace Sys2Proof.Machine

/-! ### Setup (70_reset R172) -/

theorem setup_wellFormed {c : Config} (hc : c.wellFormed = true) : setup c = State.resetOf c := if_pos hc

theorem setup_illFormed {c : Config} (hc : ¬ c.wellFormed = true) : setup c = takeFault .setup (State.resetOf c) :=
  if_neg hc

/-- The checks of an entry do not look at the registry it joins. -/
theorem entryOk_registry (c : Config) (l : List Entry) (e : Entry) :
    { c with registry := l }.entryOk e = c.entryOk e := rfl

/-- R21: an entry brings its handler's initial state, as reset gives it to an entry of the configuration. -/
theorem addEntry_resetOf (c : Config) (e : Entry) :
    (State.resetOf c).addEntry e = State.resetOf { c with registry := c.registry ++ [e] } := by
  have hext : (c.registry ++ [e]).map (fun e => initialExt e.handler) =
      c.registry.map (fun e => initialExt e.handler) ++ [initialExt e.handler] := by
    rw [List.map_append, List.map_singleton]
  simp only [State.addEntry, State.resetOf, hext]
  rfl

theorem register_resetOf {c : Config} {e : Entry} (he : c.entryOk e = true) :
    register e (State.resetOf c) = .ok (State.resetOf { c with registry := c.registry ++ [e] }) := by
  rw [register_good (s := State.resetOf c) rfl he, addEntry_resetOf]

/-- R172 step 2: `register` calls on the reset state of a configuration reset it with their entries after its own. -/
theorem registerAll_resetOf {c : Config} {l : List Entry} (hl : ∀ e ∈ l, c.entryOk e = true) :
    registerAll l (State.resetOf c) = .ok (State.resetOf { c with registry := c.registry ++ l }) := by
  induction l generalizing c with
  | nil => simp only [registerAll, List.append_nil]
  | cons e l ih =>
    obtain ⟨he, hrest⟩ := List.forall_mem_cons.1 hl
    have hnext : ∀ x ∈ l, { c with registry := c.registry ++ [e] }.entryOk x = true := fun x hx =>
      (entryOk_registry c _ x).trans (hrest x hx)
    calc registerAll (e :: l) (State.resetOf c)
        = registerAll l (State.resetOf { c with registry := c.registry ++ [e] }) := by
          rw [registerAll, register_resetOf he]; rfl
      _ = .ok (State.resetOf { c with registry := c.registry ++ e :: l }) := by
          rw [ih hnext, List.append_assoc, List.singleton_append]

/-- Settles O9: setup decides by the configuration alone, and a well-formed one's entries all pass `register`, the first
on an empty registry. -/
theorem setupOutcome : Obligations.SetupOutcome := by
  refine fun c => ⟨fun hc => ⟨setup_wellFormed hc, ?_⟩, fun hc => ?_⟩
  · obtain ⟨-, -, -, -, -, hentries, -⟩ := Config.wellFormed_parts hc
    exact registerAll_resetOf (c := { c with registry := [] }) fun e he =>
      (entryOk_registry c [] e).trans (hentries e he)
  · rw [setup_illFormed (Bool.eq_false_iff.1 hc)]
    rfl

/-! ### The reset table (70_reset R171) -/

theorem resetOf_ram {c : Config} {im : Image} (h : c.initRam = some im) : (State.resetOf c).ram = im.bytes :=
  congrArg imageBytes h

theorem resetOf_rom {c : Config} {im : Image} (h : c.initRom = some im) : (State.resetOf c).rom = im.bytes :=
  congrArg imageBytes h

theorem resetOf_ext {c : Config} {i : Nat} {e : Entry} (h : c.registry[i]? = some e) :
    (State.resetOf c).ext[i]? = some (initialExt e.handler) := by
  rw [State.resetOf, List.getElem?_map, h, Option.map_some]

/-- Settles O8: the lists of units are replicates of a unit at rest, and the state of an entry's handler is the one it
starts with. -/
theorem resetLeavesTheTable : Obligations.ResetLeavesTheTable := by
  refine ⟨rfl, fun c => ⟨List.getElem?_getD_replicate_default_eq false c.nIrq,
    List.getElem?_getD_replicate_default_eq 0 c.nIrq, rfl, rfl, List.length_replicate,
    fun _ => List.eq_of_mem_replicate, resetOf_clk c, fun d => ?oc_length,
    fun d o ho => ?oc_at_rest, List.length_replicate, fun _ => List.eq_of_mem_replicate, List.length_replicate,
    fun _ => resetOf_polled, fun _ => resetOf_ram, fun _ => resetOf_rom, fun _ => rfl, rfl,
    fun e ent p he => ⟨fun hecho => ?echo, fun hconst => ?const⟩, rfl, rfl, rfl⟩⟩
  case oc_length => rw [resetOf_oc, List.length_replicate]
  case oc_at_rest =>
    rw [resetOf_oc] at ho
    exact List.eq_of_mem_replicate ho
  case echo => rw [resetOf_ext he, hecho, initialExt]
  case const => rw [resetOf_ext he, hconst, initialExt]

end Sys2Proof.Machine
end
